-- ==== Sys2Proof/Word.lean ====
section
/-! DEFINITION. The words the CORE's rules speak of (00_scope.md R4, R5; 30_encoding.md R101, R102). -/

namespace Sys2Proof

/-- `u8` of R5. -/
abbrev Byte := BitVec 8

/-- `u16` of R5: a bus address. -/
abbrev Addr := BitVec 16

/-- The 17-bit selector `S` of format BUS (R101): bit 16 is the kind, bits 15..0 the address. -/
abbrev Selector := BitVec 17

/-- The 8-bit code `U` of format CTRL (R102). -/
abbrev Code := BitVec 8

/-- `u9` of R5: the day counter (R30). -/
abbrev Day := BitVec 9

/-- A signed 64-bit clock field of the persistence store (R32, R225). -/
abbrev ClockField := BitVec 64

/-- A Bool as a byte: bit 0, every other bit 0. -/
def boolByte (b : Bool) : Byte := if b then 1 else 0

end Sys2Proof
end

