-- ==== Sys2Proof/Config.lean ====
section
/-! DEFINITION. The sound map's form and the default parameter tables (00_scope.md section 5), and the FREE values: constants
without a body, of which nothing can be proved but what every value has. -/

namespace Sys2Proof

/-- One row of the sound address map: the addresses `first .. last` belong to channel generator `CH[channel + 1]` (R42). -/
structure SubRange where
  first : Addr
  last : Addr
  channel : Fin 4
deriving DecidableEq, Repr

/-- `P_SND_MAP` (00_scope.md section 5, R42): the sub-ranges the channels own, NR10's address, where the power-on sequence begins
(R258), the addresses of the volume, selection and master-enable registers, and the length registers with their masks (R113).
NR50's bit layout is no part of it (DESIGN CHOICE, log 30). -/
structure SndMap where
  ranges : List SubRange
  nr10 : Addr
  nr50 : Addr
  nr51 : Addr
  nr52 : Addr
  lengths : List (Addr × Byte)
deriving DecidableEq, Repr

/-- The default `P_SND_MAP`, R42's table, which the SND rows of the opcode table are written for (log 3). -/
def Config.defaultSndMap : SndMap where
  ranges := [ ⟨0xFF10, 0xFF14, 0⟩, ⟨0xFF15, 0xFF19, 1⟩, ⟨0xFF1A, 0xFF1E, 2⟩, ⟨0xFF1F, 0xFF23, 3⟩, ⟨0xFF30, 0xFF3F, 2⟩ ]
  nr10 := 0xFF10
  nr50 := 0xFF24
  nr51 := 0xFF25
  nr52 := 0xFF26
  lengths := [ (0xFF11, 0x3F), (0xFF16, 0x3F), (0xFF1B, 0xFF), (0xFF20, 0x3F) ]

/-- The addresses MBC accepts (R170): the ROM window and the RAM/RTC window. -/
def Config.mbcAccepts (a : Addr) : Bool :=
  a.toNat < 0x8000 || (0xA000 ≤ a.toNat && a.toNat < 0xC000)

/-- The default `P_SND_READ_MASK` of R43, addresses whose mask is 0x00 left out. PRESUMED (log 4): the spec marks these values
as general knowledge. -/
def Config.defaultReadMask : List Host.Cell :=
  [ (0xFF10, 0x80), (0xFF11, 0x3F), (0xFF13, 0xFF), (0xFF14, 0xBF), (0xFF15, 0xFF), (0xFF16, 0x3F), (0xFF18, 0xFF),
    (0xFF19, 0xBF), (0xFF1A, 0x7F), (0xFF1B, 0xFF), (0xFF1C, 0x9F), (0xFF1D, 0xFF), (0xFF1E, 0xBF), (0xFF1F, 0xFF),
    (0xFF20, 0xFF), (0xFF23, 0xBF), (0xFF26, 0x70) ]

/-- The default `P_VOLUME_LAW`, `v -> v` (00_scope.md section 5, R252). -/
def Config.defaultVolumeLaw : Vector Int 8 := #v[0, 1, 2, 3, 4, 5, 6, 7]

/-- FREE (log 5): a `P_MIX_SCALE` other than the identity, one for each `id` (R252, I17). -/
opaque Config.customMixScale (id : Nat) : Int → Int

/-- FREE (log 6): an advance law other than R221's, one for each `id`, from (sec, min, hrs, day, halt, ovf) to the same six
(R220, I16). R222's bound on `ovf` is put on it where it is used. -/
opaque Config.customRtcLaw (id : Nat) (sec min hrs : Byte) (day : Day) (halt ovf : Bool) :
    Byte × Byte × Byte × Day × Bool × Bool

/-- FREE (log 20): the `n`-th `draw u8` of a run (R221, I2). -/
opaque Config.freeByte (n : Nat) : Byte

/-- FREE (log 20): the `n`-th `draw u9` of a run (R221, I2). -/
opaque Config.freeDay (n : Nat) : Day

/-- FREE (log 20): the `n`-th `draw Bool` of a run (R221, I2). -/
opaque Config.freeBool (n : Nat) : Bool

/-- FREE (log 7): what `tick()` of the channel model `id` gives from its raw bytes and its internal state: the level and the
next internal state (R264 d). -/
opaque Config.channelTick (id : Nat) (regs : List Host.Cell) (inner : Nat) : Int × Nat

/-- FREE (log 7): the internal state after `write(a, v)` (R264 c). -/
opaque Config.channelWrite (id : Nat) (regs : List Host.Cell) (inner : Nat) (a : Addr) (v : Byte) : Nat

/-- FREE (log 7): the internal state after `start()` (R264 e). -/
opaque Config.channelStart (id : Nat) (regs : List Host.Cell) (inner : Nat) : Nat

/-- FREE (log 7): the internal state after `stop()` (R264 e). -/
opaque Config.channelStop (id : Nat) (regs : List Host.Cell) (inner : Nat) : Nat

/-- FREE (log 7): what `isEnabled()` reports (R264 f, I29). -/
opaque Config.channelIsEnabled (id : Nat) (regs : List Host.Cell) (inner : Nat) : Bool

end Sys2Proof
end

