-- ==== Sys2Proof/Syntax.lean ====
section
/-! DEFINITION. The operations of spec/opcode_table.json, one constructor of `Instr` a row. -/

namespace Sys2Proof

/-- The agents of R1. -/
inductive Agent where
  | emu
  | audio
  | clock
deriving DecidableEq, Repr

/-- The two bus slaves (00_scope.md R3): the unit the host sends a BUS transaction to (R71). -/
inductive BusUnit where
  | mbc
  | snd
deriving DecidableEq, Repr

/-- The kind of a bus access, `S[16]` (R101), as a fault records it (R331). -/
inductive AccessKind where
  | read
  | write
deriving DecidableEq, Repr

/-- A bus access of either kind: a write carries its data byte `D` (R101). -/
inductive Access where
  | read
  | write (data : Byte)
deriving DecidableEq, Repr

/-- The operations of the CORE, a constructor for each row of the opcode table.
A BUS row's free address bits (the `a` of its pattern, R101) are its first operand, so an address outside the row cannot be
written down; `d` is the data byte. The three SCAN_TICK rows share one code and the RAM and RTC rows one selector: which of
them a transaction is depends on the state (R101, R103, R141). -/
inductive Instr where
  /-- SCAN_START, R140. -/
  | scanStart
  /-- SCAN_TICK_Y, R142. -/
  | scanTickY
  /-- SCAN_TICK_X, R143. -/
  | scanTickX
  /-- SCAN_TICK_OVERRUN, R145. -/
  | scanTickOverrun
  /-- SCAN_GET_SPRITES, R146. -/
  | scanGetSprites
  /-- MBC_ACCEPTS, R170. -/
  | mbcAccepts (a : Addr)
  /-- MBC_SAVE, R183. -/
  | mbcSave
  /-- RTC_ADVANCE, R220. -/
  | rtcAdvance
  /-- SND_ACCEPTS, R250. -/
  | sndAccepts (a : Addr)
  /-- SND_TICK, R251. -/
  | sndTick
  /-- SND_TOGGLE, R260; an index outside 0..3 is a legal operand, which the operation faults. -/
  | sndToggle (i : Int)
  /-- RB_WRITE, R300. -/
  | rbWrite (data : List Byte) (count : Nat)
  /-- RB_READ, R301. -/
  | rbRead (count : Nat)
  /-- RB_COUNT, R302. -/
  | rbCount
  /-- MBC_RD_ROM0, R171: 0x0000-0x3FFF. -/
  | mbcRdRom0 (lo : BitVec 14)
  /-- MBC_RD_ROMX, R172: 0x4000-0x7FFF. -/
  | mbcRdRomx (lo : BitVec 14)
  /-- MBC_RD_RAM, R173: 0xA000-0xBFFF with selectedRamBank < 4. -/
  | mbcRdRam (lo : BitVec 13)
  /-- MBC_RD_RTC, R174: 0xA000-0xBFFF with selectedRamBank >= 4. -/
  | mbcRdRtc (lo : BitVec 13)
  /-- MBC_WR_RAMEN, R176: 0x0000-0x1FFF. -/
  | mbcWrRamen (lo : BitVec 13) (d : Byte)
  /-- MBC_WR_ROMB, R177: 0x2000-0x3FFF. -/
  | mbcWrRomb (lo : BitVec 13) (d : Byte)
  /-- MBC_WR_RAMB, R178: 0x4000-0x5FFF. -/
  | mbcWrRamb (lo : BitVec 13) (d : Byte)
  /-- MBC_WR_LATCH, R179: 0x6000-0x7FFF. -/
  | mbcWrLatch (lo : BitVec 13) (d : Byte)
  /-- MBC_WR_RAM, R180: 0xA000-0xBFFF with selectedRamBank < 4. -/
  | mbcWrRam (lo : BitVec 13) (d : Byte)
  /-- MBC_WR_RTC, R181: 0xA000-0xBFFF with selectedRamBank >= 4. -/
  | mbcWrRtc (lo : BitVec 13) (d : Byte)
  /-- MBC_BAD_8000, R185: 0x8000-0x9FFF, read or write. -/
  | mbcBad8000 (acc : Access) (lo : BitVec 13)
  /-- MBC_BAD_C000, R185: 0xC000-0xFFFF, read or write. -/
  | mbcBadC000 (acc : Access) (lo : BitVec 14)
  /-- SND_RD_CH_A, R254: 0xFF10-0xFF1F. -/
  | sndRdChA (lo : BitVec 4)
  /-- SND_RD_CH_B, R254: 0xFF20-0xFF23. -/
  | sndRdChB (lo : BitVec 2)
  /-- SND_RD_CTL, R255: 0xFF24 (NR50) and 0xFF25 (NR51). -/
  | sndRdCtl (lo : BitVec 1)
  /-- SND_RD_NR52, R253: 0xFF26. -/
  | sndRdNr52
  /-- SND_RD_WAVE, R254: 0xFF30-0xFF3F. -/
  | sndRdWave (lo : BitVec 4)
  /-- SND_WR_CH_A, R259: 0xFF10-0xFF1F. -/
  | sndWrChA (lo : BitVec 4) (d : Byte)
  /-- SND_WR_CH_B, R259: 0xFF20-0xFF23. -/
  | sndWrChB (lo : BitVec 2) (d : Byte)
  /-- SND_WR_CTL, R261: 0xFF24 (NR50) and 0xFF25 (NR51). -/
  | sndWrCtl (lo : BitVec 1) (d : Byte)
  /-- SND_WR_NR52, R256: 0xFF26. -/
  | sndWrNr52 (d : Byte)
  /-- SND_WR_WAVE, R259: 0xFF30-0xFF3F. -/
  | sndWrWave (lo : BitVec 4) (d : Byte)
  /-- SND_BAD, R262: an address no other SND row matches, read or write. -/
  | sndBad (acc : Access) (a : Addr)
deriving DecidableEq, Repr

end Sys2Proof
end

