-- ==== Sys2Proof/WellFormed.lean ====
section
/-! DEFINITION. Which terms of `Instr` are operations of the CORE. A BUS row's operand holds exactly the row's free address bits,
so the one term that can be out of its row is SND_BAD with an address another SND row matches (R262). -/

namespace Sys2Proof

/-- Some SND row of the opcode table other than SND_BAD matches the address: the default map's 0xFF10-0xFF26 and 0xFF30-0xFF3F (R101,
R42). -/
def sndRowTakes (a : Addr) : Bool :=
  (decide (0xFF10 ≤ a.toNat) && decide (a.toNat ≤ 0xFF26)) || (decide (0xFF30 ≤ a.toNat) && decide (a.toNat ≤ 0xFF3F))

/-- The term is an operation its row of the opcode table stands for. -/
def Instr.wellFormed : Instr → Bool
  | .sndBad _ a => !sndRowTakes a
  | .scanStart | .scanTickY | .scanTickX | .scanTickOverrun | .scanGetSprites
  | .mbcAccepts _ | .mbcSave | .rtcAdvance | .sndAccepts _ | .sndTick | .sndToggle _
  | .rbWrite _ _ | .rbRead _ | .rbCount
  | .mbcRdRom0 _ | .mbcRdRomx _ | .mbcRdRam _ | .mbcRdRtc _
  | .mbcWrRamen _ _ | .mbcWrRomb _ _ | .mbcWrRamb _ _ | .mbcWrLatch _ _ | .mbcWrRam _ _ | .mbcWrRtc _ _
  | .mbcBad8000 _ _ | .mbcBadC000 _ _
  | .sndRdChA _ | .sndRdChB _ | .sndRdCtl _ | .sndRdNr52 | .sndRdWave _
  | .sndWrChA _ _ | .sndWrChB _ _ | .sndWrCtl _ _ | .sndWrNr52 _ | .sndWrWave _ _ => true

end Sys2Proof
end

