-- ==== Sys2Proof/Decode.lean ====
section
/-! DEFINITION. Transactions (30_encoding.md R100-R102), the rows' match and mask values, the decoder, total on every transaction
and rejecting by name, and after it the encoder. -/

namespace Sys2Proof

/-- The operands a CTRL transaction carries beside its code (R102). The spec gives them no bits. -/
inductive CtrlOperands where
  | nothing
  | address (a : Addr)
  | channel (i : Int)
  | bytes (data : List Byte) (count : Nat)
  | amount (count : Nat)
deriving DecidableEq, Repr

/-- A transaction as it stands on a port: format BUS with its target unit, selector and, on a write, data byte (R101, R71), or
format CTRL with its code and operands (R102). -/
inductive Wire where
  | bus (unit : BusUnit) (sel : Selector) (data : Option Byte)
  | ctrl (code : Code) (ops : CtrlOperands)
deriving DecidableEq, Repr

/-- Why a transaction names no operation. -/
inductive Reject where
  /-- The CTRL code is not one R102 lists (R116). -/
  | unknownCode (code : Code)
  /-- The CTRL code is listed, with other operands than these (R102). -/
  | wrongOperands (code : Code)
  /-- A BUS write without its data byte (R101). -/
  | dataMissing (sel : Selector)
  /-- A BUS read with a data byte (R101). -/
  | dataOnRead (sel : Selector)
deriving DecidableEq, Repr

/-- The match and mask columns of a BUS row (R101). -/
structure Row where
  pat : Selector
  mask : Selector
deriving DecidableEq, Repr

/-- `S & mask = match` (R101). -/
def Row.holds (r : Row) (s : Selector) : Bool := (s &&& r.mask) == r.pat

def rowMbcRdRom0 : Row := ⟨0x00000, 0x1C000⟩
def rowMbcRdRomx : Row := ⟨0x04000, 0x1C000⟩
/-- MBC_RD_RAM and MBC_RD_RTC. -/
def rowMbcRdWindow : Row := ⟨0x0A000, 0x1E000⟩
def rowMbcWrRamen : Row := ⟨0x10000, 0x1E000⟩
def rowMbcWrRomb : Row := ⟨0x12000, 0x1E000⟩
def rowMbcWrRamb : Row := ⟨0x14000, 0x1E000⟩
def rowMbcWrLatch : Row := ⟨0x16000, 0x1E000⟩
/-- MBC_WR_RAM and MBC_WR_RTC. -/
def rowMbcWrWindow : Row := ⟨0x1A000, 0x1E000⟩
def rowMbcBad8000 : Row := ⟨0x08000, 0x0E000⟩
def rowMbcBadC000 : Row := ⟨0x0C000, 0x0C000⟩
def rowSndRdChA : Row := ⟨0x0FF10, 0x1FFF0⟩
def rowSndRdChB : Row := ⟨0x0FF20, 0x1FFFC⟩
def rowSndRdCtl : Row := ⟨0x0FF24, 0x1FFFE⟩
def rowSndRdNr52 : Row := ⟨0x0FF26, 0x1FFFF⟩
def rowSndRdWave : Row := ⟨0x0FF30, 0x1FFF0⟩
def rowSndWrChA : Row := ⟨0x1FF10, 0x1FFF0⟩
def rowSndWrChB : Row := ⟨0x1FF20, 0x1FFFC⟩
def rowSndWrCtl : Row := ⟨0x1FF24, 0x1FFFE⟩
def rowSndWrNr52 : Row := ⟨0x1FF26, 0x1FFFF⟩
def rowSndWrWave : Row := ⟨0x1FF30, 0x1FFF0⟩

/-- MBC's rows, the RAM and RTC rows of one selector as one. -/
def mbcRows : List Row :=
  [ rowMbcRdRom0, rowMbcRdRomx, rowMbcRdWindow, rowMbcWrRamen, rowMbcWrRomb, rowMbcWrRamb, rowMbcWrLatch, rowMbcWrWindow,
    rowMbcBad8000, rowMbcBadC000 ]

/-- SND's rows but SND_BAD, which is selected when none of these holds. -/
def sndRows : List Row :=
  [ rowSndRdChA, rowSndRdChB, rowSndRdCtl, rowSndRdNr52, rowSndRdWave,
    rowSndWrChA, rowSndWrChB, rowSndWrCtl, rowSndWrNr52, rowSndWrWave ]

/-- `addr`, `S[15:0]` (R101). -/
def selAddr (s : Selector) : Addr := s.setWidth 16

/-- Whether `kind`, `S[16]`, says write (R101). -/
def selIsWrite (s : Selector) : Bool := s.getLsbD 16

/-- The access a selector and a data byte make. -/
def selAccess (s : Selector) (d : Byte) : Access := if selIsWrite s then .write d else .read

/-- The MBC row a selector matches (R103). A RAM or RTC window access is read as the RAM row; the state says which of the two
it is (`selectRow`). -/
def decodeMbc (s : Selector) (d : Byte) : Instr :=
  if rowMbcRdRom0.holds s then .mbcRdRom0 (s.setWidth 14)
  else if rowMbcRdRomx.holds s then .mbcRdRomx (s.setWidth 14)
  else if rowMbcRdWindow.holds s then .mbcRdRam (s.setWidth 13)
  else if rowMbcWrRamen.holds s then .mbcWrRamen (s.setWidth 13) d
  else if rowMbcWrRomb.holds s then .mbcWrRomb (s.setWidth 13) d
  else if rowMbcWrRamb.holds s then .mbcWrRamb (s.setWidth 13) d
  else if rowMbcWrLatch.holds s then .mbcWrLatch (s.setWidth 13) d
  else if rowMbcWrWindow.holds s then .mbcWrRam (s.setWidth 13) d
  else if rowMbcBad8000.holds s then .mbcBad8000 (selAccess s d) (s.setWidth 13)
  else .mbcBadC000 (selAccess s d) (s.setWidth 14)

/-- The SND row a selector matches (R103), SND_BAD where no other row does (R262). -/
def decodeSnd (s : Selector) (d : Byte) : Instr :=
  if rowSndRdChA.holds s then .sndRdChA (s.setWidth 4)
  else if rowSndRdChB.holds s then .sndRdChB (s.setWidth 2)
  else if rowSndRdCtl.holds s then .sndRdCtl (s.setWidth 1)
  else if rowSndRdNr52.holds s then .sndRdNr52
  else if rowSndRdWave.holds s then .sndRdWave (s.setWidth 4)
  else if rowSndWrChA.holds s then .sndWrChA (s.setWidth 4) d
  else if rowSndWrChB.holds s then .sndWrChB (s.setWidth 2) d
  else if rowSndWrCtl.holds s then .sndWrCtl (s.setWidth 1) d
  else if rowSndWrNr52.holds s then .sndWrNr52 d
  else if rowSndWrWave.holds s then .sndWrWave (s.setWidth 4) d
  else .sndBad (selAccess s d) (selAddr s)

/-- The row of a BUS transaction sent to a unit (R103). -/
def decodeBus (u : BusUnit) (s : Selector) (d : Byte) : Instr :=
  match u with
  | .mbc => decodeMbc s d
  | .snd => decodeSnd s d

/-- The operation of a CTRL code (R102), refused by name where the code is unlisted (R116) or the operands are another
operation's. SCAN_TICK is read as SCAN_TICK_Y; the state says which of its three rows it is (`selectRow`). -/
def decodeCtrl (u : Code) (ops : CtrlOperands) : Except Reject Instr :=
  if u = 0x10 then if ops = .nothing then .ok .scanStart else .error (.wrongOperands u)
  else if u = 0x11 then if ops = .nothing then .ok .scanTickY else .error (.wrongOperands u)
  else if u = 0x12 then if ops = .nothing then .ok .scanGetSprites else .error (.wrongOperands u)
  else if u = 0x20 then match ops with | .address a => .ok (.mbcAccepts a) | _ => .error (.wrongOperands u)
  else if u = 0x21 then if ops = .nothing then .ok .mbcSave else .error (.wrongOperands u)
  else if u = 0x22 then if ops = .nothing then .ok .rtcAdvance else .error (.wrongOperands u)
  else if u = 0x30 then match ops with | .address a => .ok (.sndAccepts a) | _ => .error (.wrongOperands u)
  else if u = 0x31 then if ops = .nothing then .ok .sndTick else .error (.wrongOperands u)
  else if u = 0x32 then match ops with | .channel i => .ok (.sndToggle i) | _ => .error (.wrongOperands u)
  else if u = 0x41 then match ops with | .bytes data n => .ok (.rbWrite data n) | _ => .error (.wrongOperands u)
  else if u = 0x42 then match ops with | .amount n => .ok (.rbRead n) | _ => .error (.wrongOperands u)
  else if u = 0x43 then if ops = .nothing then .ok .rbCount else .error (.wrongOperands u)
  else .error (.unknownCode u)

/-- The decoder: total on every transaction. -/
def decode : Wire → Except Reject Instr
  | .ctrl u ops => decodeCtrl u ops
  | .bus u s none => if selIsWrite s then .error (.dataMissing s) else .ok (decodeBus u s 0)
  | .bus u s (some d) => if selIsWrite s then .ok (decodeBus u s d) else .error (.dataOnRead s)

/-- The kind bit of an access. -/
def Access.bit : Access → BitVec 1
  | .read => 0
  | .write _ => 1

/-- The data byte of an access, where it has one. -/
def Access.data : Access → Option Byte
  | .read => none
  | .write d => some d

/-- The transaction that is the operation: the row's encoding column with the operand's bits in the place of its free ones. -/
def encode : Instr → Wire
  | .scanStart => .ctrl 0x10 .nothing
  | .scanTickY => .ctrl 0x11 .nothing
  | .scanTickX => .ctrl 0x11 .nothing
  | .scanTickOverrun => .ctrl 0x11 .nothing
  | .scanGetSprites => .ctrl 0x12 .nothing
  | .mbcAccepts a => .ctrl 0x20 (.address a)
  | .mbcSave => .ctrl 0x21 .nothing
  | .rtcAdvance => .ctrl 0x22 .nothing
  | .sndAccepts a => .ctrl 0x30 (.address a)
  | .sndTick => .ctrl 0x31 .nothing
  | .sndToggle i => .ctrl 0x32 (.channel i)
  | .rbWrite data n => .ctrl 0x41 (.bytes data n)
  | .rbRead n => .ctrl 0x42 (.amount n)
  | .rbCount => .ctrl 0x43 .nothing
  | .mbcRdRom0 lo => .bus .mbc (0b000#3 ++ lo) none
  | .mbcRdRomx lo => .bus .mbc (0b001#3 ++ lo) none
  | .mbcRdRam lo => .bus .mbc (0b0101#4 ++ lo) none
  | .mbcRdRtc lo => .bus .mbc (0b0101#4 ++ lo) none
  | .mbcWrRamen lo d => .bus .mbc (0b1000#4 ++ lo) (some d)
  | .mbcWrRomb lo d => .bus .mbc (0b1001#4 ++ lo) (some d)
  | .mbcWrRamb lo d => .bus .mbc (0b1010#4 ++ lo) (some d)
  | .mbcWrLatch lo d => .bus .mbc (0b1011#4 ++ lo) (some d)
  | .mbcWrRam lo d => .bus .mbc (0b1101#4 ++ lo) (some d)
  | .mbcWrRtc lo d => .bus .mbc (0b1101#4 ++ lo) (some d)
  | .mbcBad8000 acc lo => .bus .mbc (acc.bit ++ (0b100#3 ++ lo)) acc.data
  | .mbcBadC000 acc lo => .bus .mbc (acc.bit ++ (0b11#2 ++ lo)) acc.data
  | .sndRdChA lo => .bus .snd (0b0111111110001#13 ++ lo) none
  | .sndRdChB lo => .bus .snd (0b011111111001000#15 ++ lo) none
  | .sndRdCtl lo => .bus .snd (0b0111111110010010#16 ++ lo) none
  | .sndRdNr52 => .bus .snd 0b01111111100100110#17 none
  | .sndRdWave lo => .bus .snd (0b0111111110011#13 ++ lo) none
  | .sndWrChA lo d => .bus .snd (0b1111111110001#13 ++ lo) (some d)
  | .sndWrChB lo d => .bus .snd (0b111111111001000#15 ++ lo) (some d)
  | .sndWrCtl lo d => .bus .snd (0b1111111110010010#16 ++ lo) (some d)
  | .sndWrNr52 d => .bus .snd 0b11111111100100110#17 (some d)
  | .sndWrWave lo d => .bus .snd (0b1111111110011#13 ++ lo) (some d)
  | .sndBad acc a => .bus .snd (acc.bit ++ a) acc.data

/-- What the decoder, which sees no state, reads the operation's transaction as: of the rows that share one encoding, the
first. -/
def Instr.stateless : Instr → Instr
  | .scanTickX => .scanTickY
  | .scanTickOverrun => .scanTickY
  | .mbcRdRtc lo => .mbcRdRam lo
  | .mbcWrRtc lo d => .mbcWrRam lo d
  | i => i

/-- The operands of zeros of a CTRL code, in the shape its operation takes (R102). -/
def zeroOperands (u : Code) : CtrlOperands :=
  if u = 0x20 ∨ u = 0x30 then .address 0
  else if u = 0x32 then .channel 0
  else if u = 0x41 then .bytes [] 0
  else if u = 0x42 then .amount 0
  else .nothing

/-- The unit this model's host sends a bus access to where only the address is known: SND where one of its rows matches it, else MBC.
DESIGN CHOICE (log 14): which unit the host picks is its own (R71). -/
def hostRoute (a : Addr) : BusUnit := if sndRowTakes a then .snd else .mbc

/-- The transaction whose bits are `w`: up to 8 bits a CTRL code with operands of zeros, more a BUS selector in bits 16..0,
bits 23..17 zero, and the data byte in bits 31..24 (log 14). -/
def wireOfTableWord (nbits w : Nat) : Option Wire :=
  if nbits ≤ 8 then
    if w < 0x100 then some (.ctrl (BitVec.ofNat 8 w) (zeroOperands (BitVec.ofNat 8 w))) else none
  else if w / 0x1000000 < 0x100 ∧ w % 0x1000000 < 0x20000 then
    let s : Selector := BitVec.ofNat 17 (w % 0x1000000)
    if selIsWrite s then some (.bus (hostRoute (selAddr s)) s (some (BitVec.ofNat 8 (w / 0x1000000))))
    else if w / 0x1000000 = 0 then some (.bus (hostRoute (selAddr s)) s none)
    else none
  else none

/-- The operation the decoder reads from the bits of a row of spec/opcode_table.json. -/
def decodeTableWord (nbits w : Nat) : Option Instr :=
  match wireOfTableWord nbits w with
  | none => none
  | some wire => (decode wire).toOption

end Sys2Proof
end

