-- ==== Sys2Proof/Machine/State.lean ====
section
/-! DEFINITION. Everything the spec gives the machine, as plain data, the reasons a step can stop, and the state after reset
(10_state.md; construction: R26, R34, R41, R46, R371). -/

namespace Sys2Proof.Machine

/-- A store of bytes at addresses `0 .. size - 1`, in one canonical form: `cells` holds exactly the addresses whose byte is not
0x00, rising (Memory.wf). DESIGN CHOICE (log 12): an address that is not listed reads 0x00. -/
structure Memory where
  size : Nat
  cells : List Host.Cell
deriving DecidableEq, Repr

/-- Which byte of the current slot the next tick reads (R22). -/
inductive ScanPhase where
  | readingY
  | readingX
deriving DecidableEq, Repr

/-- A sprite descriptor (R23). -/
structure SpriteDescriptor where
  x : Int
  y : Int
  oamAddress : Int
deriving DecidableEq, Repr

/-- SCAN (R22). -/
structure Scan where
  state : ScanPhase
  i : Fin 41
  curY : Byte
  sprites : Vector (Option SpriteDescriptor) 10
  n : Fin 11
deriving DecidableEq, Repr

/-- The six fields of the RTC's live state and of its snapshot (R30, R31). -/
structure Clock where
  sec : Byte
  min : Byte
  hrs : Byte
  day : Day
  halt : Bool
  ovf : Bool
deriving DecidableEq, Repr

/-- MBC and its RTC (R27, R30, R31, R32); `reserved` holds clock fields 5 to 11. -/
structure Mbc where
  selectedRomBank : BitVec 7
  selectedRamBank : Byte
  ramWriteEnabled : Bool
  latchRegister : Byte
  clockLatched : Bool
  ram : Memory
  rom : Memory
  live : Clock
  snap : Clock
  reserved : Vector ClockField 7
deriving DecidableEq, Repr

/-- `P_CHANNEL[k]`: the model behind a channel's port (R264, I13). -/
inductive ChannelModel where
  /-- The channel test model of 95_test_vectors.md: a fixed level and a fixed status. -/
  | steady (level : Int) (active : Bool)
  /-- Any other model: an uninterpreted one for each `id` (Config.channelTick and its siblings; log 7). -/
  | generator (id : Nat)
deriving DecidableEq, Repr

/-- A channel generator: its model, its file of raw register bytes keyed by bus address (R39), and the rest of its state, which
the spec leaves to the model (R39, R264). -/
structure Channel where
  model : ChannelModel
  regs : Memory
  inner : Nat
deriving DecidableEq, Repr

/-- SND (R35). `ch[k]` is `CH[k + 1]`. -/
structure Snd where
  enabled : Bool
  out : Vector Int 4
  mute : Vector Bool 4
  nr50 : Byte
  nr51 : Byte
  ch : Vector Channel 4
deriving DecidableEq, Repr

/-- RB (R44). The capacity C is `buf.size`. -/
structure Rb where
  buf : Memory
  wc : Nat
  rc : Nat
  cnt : Nat
deriving DecidableEq, Repr

/-- SCAN's inputs, which the host holds (R25): the host address space as SCAN's bus master port reads it (R7), LY and OBJ16. -/
structure Env where
  mem : Memory
  ly : Byte
  obj16 : Bool
deriving DecidableEq, Repr

/-- `P_MIX_SCALE` (R252): the default, or an uninterpreted function for each `id` (log 5). -/
inductive MixScale where
  | identity
  | custom (id : Nat)
deriving DecidableEq, Repr

/-- `P_RTC_ADVANCE` (R220): the default law of R221, or an uninterpreted one for each `id` (log 6). -/
inductive RtcLaw where
  | standard
  | custom (id : Nat)
deriving DecidableEq, Repr

/-- The parameters of 00_scope.md section 5 that the operations read and none writes (log 2). -/
structure Params where
  sndMap : SndMap
  readMask : Memory
  volumeLaw : Vector Int 8
  mixScale : MixScale
  rtcLaw : RtcLaw
deriving DecidableEq, Repr

/-- A change the host makes to SCAN's inputs (R25). -/
inductive HostInput where
  | setByte (a : Addr) (v : Byte)
  | setLy (v : Byte)
  | setObj16 (b : Bool)
deriving DecidableEq, Repr

/-- Who moves at a point of the interleaving (R339, R25). -/
inductive Turn where
  | agent (a : Agent)
  | host
deriving DecidableEq, Repr

/-- The requests the agents have pending, each in its issue order (R2, R77), the host's pending inputs, whose turns come next
(R78, R339), and the agent whose operation ran last. -/
structure Ports where
  emu : List Wire
  audio : List Wire
  clock : List Wire
  host : List HostInput
  turns : List Turn
  issuer : Option Agent
deriving DecidableEq, Repr

/-- What an operation returned to its agent (the result column of R102; a byte for a bus read). -/
inductive Result where
  | nothing
  | bool (b : Bool)
  | byte (v : Byte)
  | sprites (l : Vector (Option SpriteDescriptor) 10)
  | count (n : Nat)
  | bytes (data : List Byte) (n : Nat)
deriving DecidableEq, Repr

/-- A call to a collaborator or a state-changing call to a channel generator (R9). -/
inductive Call where
  | loadRamWithClock (ram : Memory) (fields : Vector ClockField 12)
  | saveRamWithClock (ram : Memory) (fields : Vector ClockField 12)
  | play (left right : Int)
  | sinkStart
  | sinkStop
  | channelTick (k : Fin 4)
  | channelStart (k : Fin 4)
  | channelStop (k : Fin 4)
  | channelWrite (k : Fin 4) (a : Addr) (v : Byte)
deriving DecidableEq, Repr

/-- The state of the CORE, its inputs, its parameters, its ports and what has been observed of the run. -/
structure State where
  scan : Scan
  mbc : Mbc
  snd : Snd
  rb : Rb
  env : Env
  params : Params
  ports : Ports
  /-- what the last operation returned (log 17) -/
  result : Result
  /-- the calls made, oldest first (R9, log 16) -/
  trace : List Call
  /-- how many free values the run has drawn (log 20) -/
  draws : Nat
deriving DecidableEq, Repr

/-- The operand an ArgumentFault records (R330). -/
inductive BadArgument where
  | sndToggle (i : Int)
  | rbWrite (count : Nat)
deriving DecidableEq, Repr

/-- The faults of R330. Each ends the run with its record and nothing else happens (R332). -/
inductive Fault where
  /-- AddressingFault (R331). Raised by MBC_BAD_8000, MBC_BAD_C000 (R185) and by an SND bus access at an address the map
  does not accept (R262). Safe: the spec gives this fault. -/
  | addressing (unit : BusUnit) (addr : Addr) (kind : AccessKind)
  /-- ScanOverrun (R334). Raised by SCAN_TICK_OVERRUN (R145). Safe: the spec gives this fault. -/
  | scanOverrun (i : Nat)
  /-- ArgumentFault. Raised by RB_WRITE (R300) and SND_TOGGLE (R260). Safe: the spec gives this fault. -/
  | argument (bad : BadArgument)
deriving DecidableEq, Repr

/-- Why the machine takes no step. -/
inductive Refusal where
  /-- An arm of `exec` whose instruction has no meaning yet; no arm answers it. Safe: the machine stops. -/
  | notModelled (mnemonic : String)
  /-- A pending transaction names no operation (R116). Raised by `resolve`. Safe: the machine stops. -/
  | rejected (why : Reject)
  /-- An agent has a request pending that R1 does not give it. Raised by `resolve`. Safe: the machine stops. -/
  | notThisAgents (a : Agent) (i : Instr)
  /-- `exec` was asked for a row of the opcode table whose condition is false in this state, so that no transaction can be it
  (R101). Raised by the meanings of the seven rows whose condition is on the state; `step` never answers it. Safe: the machine stops. -/
  | rowNotSelected (mnemonic : String)
deriving DecidableEq, Repr

/-- `0` in the six clock fields. -/
def Clock.zero : Clock := ⟨0, 0, 0, 0, false, false⟩

/-- A store whose bytes are all 0x00. -/
def Memory.blank (size : Nat) : Memory := ⟨size, []⟩

/-- Channel `k` after construction, with the uninterpreted model number `k` (R41; log 7, 11). -/
def Channel.fresh (k : Nat) : Channel := ⟨.generator k, Memory.blank 0x10000, 0⟩

/-- SCAN after construction (R26). -/
def Scan.reset : Scan := ⟨.readingY, 0, 0, Vector.replicate 10 none, 0⟩

/-- SND after construction (R41). -/
def Snd.reset : Snd :=
  ⟨false, #v[0, 0, 0, 0], #v[true, true, true, true], 0x00, 0x00,
    #v[Channel.fresh 0, Channel.fresh 1, Channel.fresh 2, Channel.fresh 3]⟩

/-- MBC after construction (R34), from an empty ROM image, 0x8000 RAM bytes of 0x00 and clock fields of 0 (log 8, 9). -/
def Mbc.reset : Mbc :=
  ⟨1, 0, false, 0x00, false, Memory.blank 0x8000, Memory.blank 0, Clock.zero, Clock.zero, Vector.replicate 7 0⟩

/-- The default parameters (00_scope.md section 5; log 3, 4, 5, 6). -/
def Params.standard : Params :=
  ⟨Config.defaultSndMap, ⟨0x10000, Config.defaultReadMask⟩, Config.defaultVolumeLaw, .identity, .standard⟩

/-- No request, no turn. -/
def Ports.idle : Ports := ⟨[], [], [], [], [], none⟩

/-- The machine right after construction: the spec's values where it gives them (R26, R34, R41, R46, R371), and for the launch
parameters and draws the values the log names (4 to 12, 16). `State.construct` is the same for every choice of those. -/
def State.reset : State where
  scan := Scan.reset
  mbc := Mbc.reset
  snd := Snd.reset
  rb := ⟨Memory.blank 4, 0, 0, 0⟩
  env := ⟨Memory.blank 0x10000, 0x00, false⟩
  params := Params.standard
  ports := Ports.idle
  result := .nothing
  trace := [.loadRamWithClock (Memory.blank 0x8000) (Vector.replicate 12 0)]
  draws := 0

/-! The one update of each field. `params` has none: no operation writes it (log 2). -/

def State.setScan (s : State) (v : Scan) : State := { s with scan := v }
def State.setMbc (s : State) (v : Mbc) : State := { s with mbc := v }
def State.setSnd (s : State) (v : Snd) : State := { s with snd := v }
def State.setRb (s : State) (v : Rb) : State := { s with rb := v }
def State.setEnv (s : State) (v : Env) : State := { s with env := v }
def State.setPorts (s : State) (v : Ports) : State := { s with ports := v }
/-- `return v` (R8). -/
def State.answer (s : State) (v : Result) : State := { s with result := v }
/-- Record a call (R9). -/
def State.record (s : State) (c : Call) : State := { s with trace := s.trace ++ [c] }
/-- Advance past `n` free values. -/
def State.draw (s : State) (n : Nat) : State := { s with draws := s.draws + n }

end Sys2Proof.Machine
end

