-- ==== Sys2Proof/Machine/Ops.lean ====
section
/-! DEFINITION. The named operations over stores, SCAN's bus master port, channel generators and collaborators, and raising a
fault. -/

namespace Sys2Proof.Machine

/-! Stores: one byte is the only access width (00_scope.md R7, 20_memory.md R73). -/

/-- The byte listed at an address; 0x00 where none is (log 12). -/
def lookupCell : List Host.Cell → Nat → Byte
  | [], _ => 0
  | (k, v) :: cs, a => if a = k then v else lookupCell cs a

/-- Put a byte at an address, keeping the cells rising and free of 0x00. -/
def insertCell : List Host.Cell → Nat → Byte → List Host.Cell
  | [], a, v => if v = 0 then [] else [(a, v)]
  | (k, w) :: cs, a, v =>
    if a < k then (if v = 0 then (k, w) :: cs else (a, v) :: (k, w) :: cs)
    else if a = k then (if v = 0 then cs else (a, v) :: cs)
    else (k, w) :: insertCell cs a v

/-- Every address of the list is above `b`, and they rise. -/
def risingAbove : Nat → List Host.Cell → Bool
  | _, [] => true
  | b, (k, _) :: cs => b < k && risingAbove k cs

/-- The addresses of the cells strictly rise. -/
def rising : List Host.Cell → Bool
  | [] => true
  | (k, _) :: cs => risingAbove k cs

/-- The canonical form of a store: rising addresses below its size, none listed with the byte an unlisted address reads as. -/
def Memory.wf (m : Memory) : Bool :=
  rising m.cells && m.cells.all fun c => decide (c.1 < m.size) && c.2 != 0

/-- The byte at an address of the store. -/
def Memory.get (m : Memory) (a : Nat) : Byte := lookupCell m.cells a

/-- The store with a byte written; an address outside the store is no place to write, and nothing changes. -/
def Memory.set (m : Memory) (a : Nat) (v : Byte) : Memory :=
  if a < m.size then ⟨m.size, insertCell m.cells a v⟩ else m

/-- `MemRead(addr, 1)` on SCAN's bus master port (R7). -/
def memRead (s : State) (a : Nat) : Byte := s.env.mem.get a

/-! Channel generators, by the contract of 43_sound_engine.md R264. A channel is reached only through these. -/

/-- `read(a)`: the raw byte last stored (R264 b; R39 with R264 c for the wave bytes, log 7). -/
def Channel.read (c : Channel) (a : Addr) : Byte := c.regs.get a.toNat

/-- `write(a, v)`: the raw byte is stored, and the model may change its internal state (R264 c). -/
def Channel.write (c : Channel) (a : Addr) (v : Byte) : Channel :=
  { c with
    regs := c.regs.set a.toNat v
    inner := match c.model with
      | .steady _ _ => c.inner
      | .generator id => Config.channelWrite id c.regs.cells c.inner a v }

/-- `tick()`: a level, and the model may change its internal state but no raw byte (R264 d). -/
def Channel.tick (c : Channel) : Int × Channel :=
  match c.model with
  | .steady level _ => (level, c)
  | .generator id =>
    let r := Config.channelTick id c.regs.cells c.inner
    (r.1, { c with inner := r.2 })

/-- `start()`: the model may change its internal state but no raw byte (R264 e). -/
def Channel.start (c : Channel) : Channel :=
  match c.model with
  | .steady _ _ => c
  | .generator id => { c with inner := Config.channelStart id c.regs.cells c.inner }

/-- `stop()`: the model may change its internal state but no raw byte (R264 e). -/
def Channel.stop (c : Channel) : Channel :=
  match c.model with
  | .steady _ _ => c
  | .generator id => { c with inner := Config.channelStop id c.regs.cells c.inner }

/-- `isEnabled()` (R264 f, R40). -/
def Channel.isEnabled (c : Channel) : Bool :=
  match c.model with
  | .steady _ active => active
  | .generator id => Config.channelIsEnabled id c.regs.cells c.inner

/-- `CH[k + 1]`. -/
def State.channel (s : State) (k : Fin 4) : Channel := s.snd.ch[k]

/-- Put channel `CH[k + 1]`. -/
def State.setChannel (s : State) (k : Fin 4) (c : Channel) : State :=
  s.setSnd { s.snd with ch := s.snd.ch.set k c }

/-- `call CH[k + 1].write(a, v)` (R9). -/
def State.writeChannel (s : State) (k : Fin 4) (a : Addr) (v : Byte) : State :=
  (s.setChannel k ((s.channel k).write a v)).record (.channelWrite k a v)

/-- `call CH[k + 1].start()` (R9). -/
def State.startChannel (s : State) (k : Fin 4) : State :=
  (s.setChannel k (s.channel k).start).record (.channelStart k)

/-- `call CH[k + 1].stop()` (R9). -/
def State.stopChannel (s : State) (k : Fin 4) : State :=
  (s.setChannel k (s.channel k).stop).record (.channelStop k)

/-- `SND.out[k] <- call CH[k + 1].tick()` (R251, R9). -/
def State.tickChannel (s : State) (k : Fin 4) : State :=
  let r := (s.channel k).tick
  (s.setSnd { s.snd with ch := s.snd.ch.set k r.2, out := s.snd.out.set k r.1 }).record (.channelTick k)

/-- The channel indices in the order CH[1] .. CH[4]. -/
def channelOrder : List (Fin 4) := [0, 1, 2, 3]

/-! Faults. -/

/-- `raise F(info)`: the operation ends with the fault, which writes no state, makes no call and returns nothing, and the run
stops (00_scope.md R8, 60_exceptions.md R332). There is no trap entry and no return from one (R336). -/
def raise (f : Fault) : Host.Outcome State Fault Refusal := .fault f

/-- An operation that ends with `return v` (R8). -/
def finish (s : State) (v : Result) : Host.Outcome State Fault Refusal := .next (s.answer v)

end Sys2Proof.Machine
end

