-- ==== Sys2Proof/Machine/Operands.lean ====
section
/-! DEFINITION. Operand forms: the bus address a row's free bits stand for, the offset an address has in the ROM image, the RAM
and OAM, and which row of the opcode table a transaction is in a state (R101, R103, R141). -/

namespace Sys2Proof.Machine

/-! Bus addresses (20_memory.md R71, 10_state.md R42). -/

/-- 0x0000-0x3FFF. -/
def rom0Addr (lo : BitVec 14) : Addr := 0b00#2 ++ lo
/-- 0x4000-0x7FFF. -/
def romxAddr (lo : BitVec 14) : Addr := 0b01#2 ++ lo
/-- 0xA000-0xBFFF. -/
def windowAddr (lo : BitVec 13) : Addr := 0b101#3 ++ lo
/-- 0x8000-0x9FFF. -/
def bad8000Addr (lo : BitVec 13) : Addr := 0b100#3 ++ lo
/-- 0xC000-0xFFFF. -/
def badC000Addr (lo : BitVec 14) : Addr := 0b11#2 ++ lo
/-- 0xFF10-0xFF1F. -/
def chAAddr (lo : BitVec 4) : Addr := 0xFF1#12 ++ lo
/-- 0xFF20-0xFF23. -/
def chBAddr (lo : BitVec 2) : Addr := 0b11111111001000#14 ++ lo
/-- 0xFF24-0xFF25. -/
def ctlAddr (lo : BitVec 1) : Addr := 0b111111110010010#15 ++ lo
/-- 0xFF26. -/
def nr52Addr : Addr := 0xFF26
/-- 0xFF30-0xFF3F. -/
def waveAddr (lo : BitVec 4) : Addr := 0xFF3#12 ++ lo

/-- The kind of an access, as a fault records it. -/
def accessKind : Access → AccessKind
  | .read => .read
  | .write _ => .write

/-! Offsets. -/

/-- `0xFE00 + 4 * i`: the base address of OAM slot `i` (R112). -/
def oamAddr (i : Nat) : Nat := 0xFE00 + 4 * i

/-- The ROM offset of an address of the switchable window (R72, R172). -/
def romxOffset (m : Mbc) (a : Addr) : Nat := m.selectedRomBank.toNat * 0x4000 + (a.toNat - 0x4000)

/-- `RamOff(a)`: the RAM offset of an address of the RAM window (R187, R72). -/
def ramOffset (m : Mbc) (a : Addr) : Nat := m.selectedRamBank.toNat * 0x2000 + (a.toNat - 0xA000)

/-- `RomByte(o)`: the image's byte, 0xFF past its end (R186). -/
def romByte (m : Mbc) (o : Nat) : Byte := if o < m.rom.size then m.rom.get o else 0xFF

/-- The RAM's byte, 0xFF past its capacity (R173). -/
def ramByte (m : Mbc) (o : Nat) : Byte := if o < m.ram.size then m.ram.get o else 0xFF

/-! The sound address map (R42). -/

/-- What an address is to SND. -/
inductive SndRole where
  /-- NR52. -/
  | master
  /-- A register or wave byte of `CH[k + 1]`. -/
  | channel (k : Fin 4)
  /-- NR50. -/
  | volume
  /-- NR51. -/
  | selection
deriving DecidableEq, Repr

/-- The sub-range holds the address. -/
def inRange (r : SubRange) (a : Addr) : Bool := decide (r.first.toNat ≤ a.toNat) && decide (a.toNat ≤ r.last.toNat)

/-- `owner(a)` of 43_sound_engine.md: the channel whose sub-range holds `a`, if one does. -/
def ownerOf (m : SndMap) (a : Addr) : Option (Fin 4) := (m.ranges.find? fun r => inRange r a).map SubRange.channel

/-- What an address is to SND, in the order R103 decodes it; none where SND does not accept it (R250). -/
def sndRole (m : SndMap) (a : Addr) : Option SndRole :=
  if a = m.nr52 then some .master
  else match ownerOf m a with
    | some k => some (.channel k)
    | none => if a = m.nr50 then some .volume else if a = m.nr51 then some .selection else none

/-- The addresses SND accepts (R250). -/
def sndAccepts (m : SndMap) (a : Addr) : Bool := (sndRole m a).isSome

/-- The length mask of a length register (R113); none for every other address. -/
def lengthMask (m : SndMap) (a : Addr) : Option Byte := (m.lengths.find? fun l => l.1 == a).map Prod.snd

/-- The addresses the power-on sequence goes through, NR10 .. NR51 ascending (R258). -/
def powerOnAddrs (m : SndMap) : List Addr :=
  (List.range' m.nr10.toNat (m.nr51.toNat + 1 - m.nr10.toNat)).map (BitVec.ofNat 16)

/-- The map gives no address two roles and no length register two masks, and NR50 lies in the power-on sequence before NR51, as in
R258 (log 3). -/
def sndMapFormed (m : SndMap) : Bool :=
  (m.ranges.all fun r => m.ranges.all fun q =>
    r.channel == q.channel || decide (r.last.toNat < q.first.toNat) || decide (q.last.toNat < r.first.toNat)) &&
  ([m.nr50, m.nr51, m.nr52].all fun a => ownerOf m a == none) &&
  decide (m.nr52 ≠ m.nr50) && decide (m.nr52 ≠ m.nr51) &&
  decide (m.nr10.toNat ≤ m.nr50.toNat) && decide (m.nr50.toNat < m.nr51.toNat) &&
  decide (m.lengths.map Prod.fst).Nodup

/-! Rows with a condition on the state. -/

/-- `MBC.selectedRamBank < 4`: the RAM window shows a RAM bank and not an RTC register (R27). -/
def ramBankSelected (s : State) : Bool := decide (s.mbc.selectedRamBank.toNat < 4)

/-- SCAN_TICK's row for the state: overrun when all 40 slots are examined, else by the byte to read (R141). -/
def tickRow (s : State) : Instr :=
  if s.scan.i = 40 then .scanTickOverrun
  else match s.scan.state with
    | .readingY => .scanTickY
    | .readingX => .scanTickX

/-- The condition column of a row of the opcode table (R101). -/
def rowCondition (i : Instr) (s : State) : Bool :=
  match i with
  | .scanTickY => decide (s.scan.i.val < 40) && (s.scan.state == .readingY)
  | .scanTickX => decide (s.scan.i.val < 40) && (s.scan.state == .readingX)
  | .scanTickOverrun => s.scan.i == 40
  | .mbcRdRam _ => ramBankSelected s
  | .mbcRdRtc _ => !ramBankSelected s
  | .mbcWrRam _ _ => ramBankSelected s
  | .mbcWrRtc _ _ => !ramBankSelected s
  | .sndBad _ a => !sndRowTakes a
  | .scanStart | .scanGetSprites | .mbcAccepts _ | .mbcSave | .rtcAdvance | .sndAccepts _ | .sndTick | .sndToggle _
  | .rbWrite _ _ | .rbRead _ | .rbCount | .mbcRdRom0 _ | .mbcRdRomx _
  | .mbcWrRamen _ _ | .mbcWrRomb _ _ | .mbcWrRamb _ _ | .mbcWrLatch _ _ | .mbcBad8000 _ _ | .mbcBadC000 _ _
  | .sndRdChA _ | .sndRdChB _ | .sndRdCtl _ | .sndRdNr52 | .sndRdWave _
  | .sndWrChA _ _ | .sndWrChB _ _ | .sndWrCtl _ _ | .sndWrNr52 _ | .sndWrWave _ _ => true

/-- The row a decoded transaction is in a state (R103): of the rows that share its encoding, the one whose condition holds. -/
def selectRow (s : State) (i : Instr) : Instr :=
  match i with
  | .scanTickY | .scanTickX | .scanTickOverrun => tickRow s
  | .mbcRdRam lo => if ramBankSelected s then .mbcRdRam lo else .mbcRdRtc lo
  | .mbcRdRtc lo => if ramBankSelected s then .mbcRdRam lo else .mbcRdRtc lo
  | .mbcWrRam lo d => if ramBankSelected s then .mbcWrRam lo d else .mbcWrRtc lo d
  | .mbcWrRtc lo d => if ramBankSelected s then .mbcWrRam lo d else .mbcWrRtc lo d
  | i => i

end Sys2Proof.Machine
end

