-- ==== Sys2Proof/Machine/Flags.lean ====
section
/-! DEFINITION. The flags and packed fields the rules compute: visibility, the enable and latch tests, RTC_DH, NR50 to NR52. -/

namespace Sys2Proof.Machine

/-- Sprite visibility over Int, no 8-bit wrap (40_sprite_scan.md R144). -/
def visible (y ly h : Int) : Bool := decide (y ≤ ly + 16) && decide (ly + 16 < y + h)

/-- The sprite height OBJ16 selects (R144). -/
def spriteHeight (obj16 : Bool) : Int := if obj16 then 16 else 8

/-- The RAMEN data test, `(D & 0x0A) != 0` (30_encoding.md R104, C4). -/
def ramEnable (d : Byte) : Bool := (d &&& 0x0A) != 0

/-- The bank a ROMB write stores: the low 7 bits, 0 remapped to 1 (R105, R177). -/
def romBank (d : Byte) : BitVec 7 := if d.setWidth 7 = 0 then 1 else d.setWidth 7

/-- Whether a LATCH write toggles the latch: 0x01 written over a shadow of 0x00 (R107, R179). -/
def latchToggles (shadow d : Byte) : Bool := d == 0x01 && shadow == 0x00

/-- RTC_DH: bit 0 the day counter's bit 8, bit 6 halt, bit 7 overflow, bits 5..1 zero (R108, R175). -/
def Clock.dayHigh (c : Clock) : Byte :=
  (boolByte c.ovf <<< 7) ||| (boolByte c.halt <<< 6) ||| boolByte (c.day.getLsbD 8)

/-- RTC_DL: the day counter's low byte (R108). -/
def Clock.dayLow (c : Clock) : Byte := c.day.setWidth 8

/-- `VR`, NR50[2:0] (R109). DESIGN CHOICE (log 30): the layout is fixed, and no part of `P_SND_MAP`. -/
def rightVolume (nr50 : Byte) : BitVec 3 := nr50.extractLsb' 0 3

/-- `VL`, NR50[6:4] (R109). DESIGN CHOICE (log 30): as for `VR`. -/
def leftVolume (nr50 : Byte) : BitVec 3 := nr50.extractLsb' 4 3

/-- `R_i`, NR51[i] (R110). -/
def routedRight (nr51 : Byte) (i : Fin 4) : Bool := nr51.getLsbD i.val

/-- `L_i`, NR51[i + 4] (R110). -/
def routedLeft (nr51 : Byte) (i : Fin 4) : Bool := nr51.getLsbD (i.val + 4)

/-- NR52 as a read composes it before the mask: bit 7 the master enable, bit k-1 what CH[k] reports (R38, R111, R253). -/
def nr52Byte (s : State) : Byte :=
  channelOrder.foldl (fun v k => if (s.channel k).isEnabled then v ||| ((1 : Byte) <<< k.val) else v)
    (if s.snd.enabled then 0x80 else 0x00)

/-- `P_SND_READ_MASK[a]` (R43). -/
def readMask (s : State) (a : Addr) : Byte := s.params.readMask.get a.toNat

end Sys2Proof.Machine
end

