-- ==== Sys2Proof/Machine/Clock.lean ====
section
/-! DEFINITION. The real-time clock inside MBC (42_real_time_clock.md): its register view (R175, R182), its advance (R220, R221)
and its serialization (R225, R226). -/

namespace Sys2Proof.Machine

/-- The RTC register a select names, in the live state or the snapshot; 0xFF where it names none (R175, R33). -/
def Clock.read (c : Clock) (sel : Byte) : Byte :=
  if sel = 0x08 then c.sec
  else if sel = 0x09 then c.min
  else if sel = 0x0A then c.hrs
  else if sel = 0x0B then c.dayLow
  else if sel = 0x0C then c.dayHigh
  else 0xFF

/-- `RtcRead(sel)`: the snapshot while latched, else the live state (R175). -/
def rtcRead (m : Mbc) (sel : Byte) : Byte := (if m.clockLatched then m.snap else m.live).read sel

/-- `RtcWrite(sel, D)` on the live state (R182). -/
def Clock.write (c : Clock) (sel d : Byte) : Clock :=
  if sel = 0x08 then { c with sec := d }
  else if sel = 0x09 then { c with min := d }
  else if sel = 0x0A then { c with hrs := d }
  else if sel = 0x0B then { c with day := (c.day &&& 0x100#9) ||| d.setWidth 9 }
  else if sel = 0x0C then
    { c with
      day := (c.day &&& 0x0FF#9) ||| ((d.setWidth 9 &&& 1#9) <<< 8)
      halt := d.getLsbD 6
      ovf := if d.getLsbD 7 then c.ovf else false }
  else c

/-- Whether a counting field is out of its usual range (R221, I2). -/
def Clock.outOfRange (c : Clock) : Bool :=
  decide (60 ≤ c.sec.toNat) || decide (60 ≤ c.min.toNat) || decide (24 ≤ c.hrs.toNat)

/-- A second's carry into the minutes (R221). -/
def Clock.carrySec (c : Clock) : Clock := if c.sec = 60 then { c with sec := 0, min := c.min + 1 } else c

/-- A minute's carry into the hours (R221). -/
def Clock.carryMin (c : Clock) : Clock := if c.min = 60 then { c with min := 0, hrs := c.hrs + 1 } else c

/-- An hour's carry into the day counter, whose wrap from 511 to 0 sets the overflow flag (R221, R223). -/
def Clock.carryHrs (c : Clock) : Clock :=
  if c.hrs = 24 then
    if c.day = 511 then { c with hrs := 0, day := 0, ovf := true } else { c with hrs := 0, day := c.day + 1 }
  else c

/-- One second of an in-range clock that runs (R221). -/
def Clock.second (c : Clock) : Clock := ({ c with sec := c.sec + 1 } : Clock).carrySec.carryMin.carryHrs

/-- The counting fields drawn, `ovf` kept or drawn, from the free values `n` to `n + 4` (R221, I2; log 20). -/
def Clock.drawn (c : Clock) (n : Nat) : Clock :=
  ⟨Config.freeByte n, Config.freeByte (n + 1), Config.freeByte (n + 2), Config.freeDay (n + 3), c.halt,
    c.ovf || Config.freeBool (n + 4)⟩

/-- The default law (R221), with the number of free values it draws. -/
def Clock.standardLaw (c : Clock) (n : Nat) : Clock × Nat :=
  if c.halt then (c, 0)
  else if c.outOfRange then (c.drawn n, 5)
  else (c.second, 0)

/-- An uninterpreted law, held to R222: it never clears `ovf` (log 6). DESIGN CHOICE (log 6): it may give any `halt`, though R47 and
R220 name no write of that flag by an advance. -/
def Clock.customLaw (c : Clock) (id : Nat) : Clock :=
  match Config.customRtcLaw id c.sec c.min c.hrs c.day c.halt c.ovf with
  | (sec, min, hrs, day, halt, ovf) => ⟨sec, min, hrs, day, halt, c.ovf || ovf⟩

/-- `P_RTC_ADVANCE` and the number of free values drawn (R220). -/
def Clock.advance (c : Clock) (law : RtcLaw) (n : Nat) : Clock × Nat :=
  match law with
  | .standard => c.standardLaw n
  | .custom id => (c.customLaw id, 0)

/-- A byte as a signed 64-bit clock field. -/
def byteField (v : Byte) : ClockField := v.setWidth 64

/-- `Serialize()`: the 12 clock fields, of the live state (R225). -/
def serialize (c : Clock) (reserved : Vector ClockField 7) : Vector ClockField 12 :=
  #v[byteField c.sec, byteField c.min, byteField c.hrs, byteField c.dayLow, byteField c.dayHigh,
    reserved[0], reserved[1], reserved[2], reserved[3], reserved[4], reserved[5], reserved[6]]

/-- Whether a clock field, read as signed, is in 0..255 (R226). -/
def fieldInRange (f : ClockField) : Bool := decide (0 ≤ f.toInt) && decide (f.toInt ≤ 255)

/-- `Deserialize(f)`: the live state and the reserved fields, or none where a field 0..4 is out of range (R226, R335). -/
def deserialize (f : Vector ClockField 12) : Option (Clock × Vector ClockField 7) :=
  if fieldInRange f[0] && fieldInRange f[1] && fieldInRange f[2] && fieldInRange f[3] && fieldInRange f[4] then
    some
      ({ sec := f[0].setWidth 8
         min := f[1].setWidth 8
         hrs := f[2].setWidth 8
         day := ((f[4].setWidth 9 &&& 1#9) <<< 8) ||| f[3].setWidth 9
         halt := f[4].getLsbD 6
         ovf := f[4].getLsbD 7 },
       #v[f[5], f[6], f[7], f[8], f[9], f[10], f[11]])
  else none

/-- RTC_ADVANCE (R220): the live state alone. -/
def execRtcAdvance (s : State) : Host.Outcome State Fault Refusal :=
  let r := s.mbc.live.advance s.params.rtcLaw s.draws
  finish ((s.setMbc { s.mbc with live := r.1 }).draw r.2) .nothing

end Sys2Proof.Machine
end

