-- ==== Sys2Proof/Machine/Bank.lean ====
section
/-! DEFINITION. MBC's operations (41_bank_controller.md). -/

namespace Sys2Proof.Machine

/-- `Flush()`: one call of the persistence store with the whole RAM and the clock fields of the live state (R184, R225). -/
def flush (s : State) : State :=
  s.record (.saveRamWithClock s.mbc.ram (serialize s.mbc.live s.mbc.reserved))

/-- MBC_ACCEPTS (R170). -/
def execMbcAccepts (a : Addr) (s : State) : Host.Outcome State Fault Refusal :=
  finish s (.bool (Config.mbcAccepts a))

/-- MBC_SAVE (R183). -/
def execMbcSave (s : State) : Host.Outcome State Fault Refusal := finish (flush s) .nothing

/-- MBC_RD_ROM0 (R171). -/
def execMbcRdRom0 (lo : BitVec 14) (s : State) : Host.Outcome State Fault Refusal :=
  finish s (.byte (romByte s.mbc (rom0Addr lo).toNat))

/-- MBC_RD_ROMX (R172). -/
def execMbcRdRomx (lo : BitVec 14) (s : State) : Host.Outcome State Fault Refusal :=
  finish s (.byte (romByte s.mbc (romxOffset s.mbc (romxAddr lo))))

/-- MBC_RD_RAM (R173): not gated by `ramWriteEnabled` (C2). -/
def execMbcRdRam (lo : BitVec 13) (s : State) : Host.Outcome State Fault Refusal :=
  if rowCondition (.mbcRdRam lo) s then finish s (.byte (ramByte s.mbc (ramOffset s.mbc (windowAddr lo))))
  else .refused (.rowNotSelected "MBC_RD_RAM")

/-- MBC_RD_RTC (R174): every address of the window gives the selected register. -/
def execMbcRdRtc (lo : BitVec 13) (s : State) : Host.Outcome State Fault Refusal :=
  if rowCondition (.mbcRdRtc lo) s then finish s (.byte (rtcRead s.mbc s.mbc.selectedRamBank))
  else .refused (.rowNotSelected "MBC_RD_RTC")

/-- MBC_WR_RAMEN (R176). -/
def execMbcWrRamen (_lo : BitVec 13) (d : Byte) (s : State) : Host.Outcome State Fault Refusal :=
  let s' := s.setMbc { s.mbc with ramWriteEnabled := ramEnable d }
  finish (if ramEnable d then s' else flush s') .nothing

/-- MBC_WR_ROMB (R177). -/
def execMbcWrRomb (_lo : BitVec 13) (d : Byte) (s : State) : Host.Outcome State Fault Refusal :=
  finish (s.setMbc { s.mbc with selectedRomBank := romBank d }) .nothing

/-- MBC_WR_RAMB (R178). -/
def execMbcWrRamb (_lo : BitVec 13) (d : Byte) (s : State) : Host.Outcome State Fault Refusal :=
  finish (s.setMbc { s.mbc with selectedRamBank := d }) .nothing

/-- What a LATCH write does to the latch and the snapshot, before the shadow is updated (R179). -/
def Mbc.toggleLatch (m : Mbc) : Mbc :=
  if m.clockLatched then { m with clockLatched := false } else { m with snap := m.live, clockLatched := true }

/-- MBC_WR_LATCH (R179). -/
def execMbcWrLatch (_lo : BitVec 13) (d : Byte) (s : State) : Host.Outcome State Fault Refusal :=
  let m := if latchToggles s.mbc.latchRegister d then s.mbc.toggleLatch else s.mbc
  finish (s.setMbc { m with latchRegister := d }) .nothing

/-- MBC_WR_RAM (R180): dropped while disabled or past capacity. -/
def execMbcWrRam (lo : BitVec 13) (d : Byte) (s : State) : Host.Outcome State Fault Refusal :=
  if rowCondition (.mbcWrRam lo d) s then
    if s.mbc.ramWriteEnabled then
      finish (s.setMbc { s.mbc with ram := s.mbc.ram.set (ramOffset s.mbc (windowAddr lo)) d }) .nothing
    else finish s .nothing
  else .refused (.rowNotSelected "MBC_WR_RAM")

/-- MBC_WR_RTC (R181): dropped while disabled. -/
def execMbcWrRtc (lo : BitVec 13) (d : Byte) (s : State) : Host.Outcome State Fault Refusal :=
  if rowCondition (.mbcWrRtc lo d) s then
    if s.mbc.ramWriteEnabled then
      finish (s.setMbc { s.mbc with live := s.mbc.live.write s.mbc.selectedRamBank d }) .nothing
    else finish s .nothing
  else .refused (.rowNotSelected "MBC_WR_RTC")

/-- MBC_BAD_8000 (R185). -/
def execMbcBad8000 (acc : Access) (lo : BitVec 13) (_s : State) : Host.Outcome State Fault Refusal :=
  raise (.addressing .mbc (bad8000Addr lo) (accessKind acc))

/-- MBC_BAD_C000 (R185). -/
def execMbcBadC000 (acc : Access) (lo : BitVec 14) (_s : State) : Host.Outcome State Fault Refusal :=
  raise (.addressing .mbc (badC000Addr lo) (accessKind acc))

end Sys2Proof.Machine
end

