-- ==== Sys2Proof/Machine/Ring.lean ====
section
/-! DEFINITION. RB's operations (44_ring_buffer.md). -/

namespace Sys2Proof.Machine

/-- The capacity C (R44). -/
def Rb.capacity (r : Rb) : Nat := r.buf.size

/-- `buf[(w + k) mod C] <- data[k]` for each byte of the data, in order (R300). -/
def ringStore (buf : Memory) (w : Nat) : List Byte → Memory
  | [] => buf
  | b :: bs => ringStore (buf.set (w % buf.size) b) (w + 1) bs

/-- `[buf[(r + k) mod C] for k in 0..n-1]` (R301). -/
def ringLoad (buf : Memory) (r : Nat) : Nat → List Byte
  | 0 => []
  | n + 1 => buf.get (r % buf.size) :: ringLoad buf (r + 1) n

/-- How many bytes a write of `count` stores: a short count where space is short (R300). -/
def Rb.accepts (r : Rb) (count : Nat) : Nat := min count (r.capacity - r.cnt)

/-- How many bytes a read of `count` returns (R301). -/
def Rb.yields (r : Rb) (count : Nat) : Nat := min count r.cnt

/-- The buffer after a write of the data's first `count` bytes (R300). -/
def Rb.put (r : Rb) (data : List Byte) (count : Nat) : Rb :=
  { r with
    buf := ringStore r.buf r.wc (data.take (r.accepts count))
    wc := (r.wc + r.accepts count) % r.capacity
    cnt := r.cnt + r.accepts count }

/-- The bytes a read of `count` returns, oldest first (R301). -/
def Rb.front (r : Rb) (count : Nat) : List Byte := ringLoad r.buf r.rc (r.yields count)

/-- The buffer after a read of `count` (R301). -/
def Rb.drop (r : Rb) (count : Nat) : Rb :=
  { r with
    rc := (r.rc + r.yields count) % r.capacity
    cnt := r.cnt - r.yields count }

/-- The bytes available to read, oldest first (R45). -/
def Rb.contents (r : Rb) : List Byte := ringLoad r.buf r.rc r.cnt

/-- RB_WRITE (R300). -/
def execRbWrite (data : List Byte) (count : Nat) (s : State) : Host.Outcome State Fault Refusal :=
  if data.length < count then raise (.argument (.rbWrite count))
  else finish (s.setRb (s.rb.put data count)) (.count (s.rb.accepts count))

/-- RB_READ (R301). -/
def execRbRead (count : Nat) (s : State) : Host.Outcome State Fault Refusal :=
  finish (s.setRb (s.rb.drop count)) (.bytes (s.rb.front count) (s.rb.yields count))

/-- RB_COUNT (R302). -/
def execRbCount (s : State) : Host.Outcome State Fault Refusal := finish s (.count s.rb.cnt)

end Sys2Proof.Machine
end

