-- ==== Sys2Proof/Machine/Scan.lean ====
section
/-! DEFINITION. SCAN's operations (40_sprite_scan.md). -/

namespace Sys2Proof.Machine

/-- The start of a scanline: everything but `curY` (R140). -/
def Scan.start (c : Scan) : Scan :=
  { c with state := .readingY, i := 0, n := 0, sprites := Vector.replicate 10 none }

/-- `SCAN.i + 1`, which stays in 0..40. -/
def nextSlot (i : Fin 41) : Fin 41 := if h : i.val < 40 then ⟨i.val + 1, by omega⟩ else i

/-- Append a descriptor where the list has room (R143). -/
def Scan.collect (c : Scan) (d : SpriteDescriptor) : Scan :=
  if h : c.n.val < 10 then { c with sprites := c.sprites.set c.n.val (some d), n := ⟨c.n.val + 1, by omega⟩ } else c

/-- What a ReadingX tick does with the slot's X byte, LY and OBJ16 (R143, R144). -/
def Scan.evaluate (c : Scan) (x ly : Byte) (obj16 : Bool) : Scan :=
  let c' := if visible c.curY.toNat ly.toNat (spriteHeight obj16)
    then c.collect ⟨x.toNat, c.curY.toNat, oamAddr c.i.val⟩ else c
  { c' with i := nextSlot c.i, state := .readingY }

/-- SCAN_START (R140). -/
def execScanStart (s : State) : Host.Outcome State Fault Refusal :=
  finish (s.setScan s.scan.start) .nothing

/-- SCAN_TICK_Y (R142). -/
def execScanTickY (s : State) : Host.Outcome State Fault Refusal :=
  if rowCondition .scanTickY s then
    finish (s.setScan { s.scan with curY := memRead s (oamAddr s.scan.i.val), state := .readingX }) (.bool true)
  else .refused (.rowNotSelected "SCAN_TICK_Y")

/-- SCAN_TICK_X (R143). -/
def execScanTickX (s : State) : Host.Outcome State Fault Refusal :=
  if rowCondition .scanTickX s then
    let c := s.scan.evaluate (memRead s (oamAddr s.scan.i.val + 1)) s.env.ly s.env.obj16
    finish (s.setScan c) (.bool (decide (c.i.val < 40)))
  else .refused (.rowNotSelected "SCAN_TICK_X")

/-- SCAN_TICK_OVERRUN (R145): no OAM read is made. -/
def execScanTickOverrun (s : State) : Host.Outcome State Fault Refusal :=
  if rowCondition .scanTickOverrun s then raise (.scanOverrun s.scan.i.val)
  else .refused (.rowNotSelected "SCAN_TICK_OVERRUN")

/-- SCAN_GET_SPRITES (R146). -/
def execScanGetSprites (s : State) : Host.Outcome State Fault Refusal :=
  finish s (.sprites s.scan.sprites)

end Sys2Proof.Machine
end

