-- ==== Sys2Proof/Machine/Sound.lean ====
section
/-! DEFINITION. SND's operations (43_sound_engine.md). -/

namespace Sys2Proof.Machine

/-- `P_MIX_SCALE` (R252). -/
def MixScale.apply (m : MixScale) (x : Int) : Int :=
  match m with
  | .identity => x
  | .custom id => Config.customMixScale id x

/-- What channel `i` contributes to a side it is routed to or not: nothing where its mute slot is false (R252). -/
def contribution (d : Snd) (routed : Bool) (i : Fin 4) : Int := if d.mute[i] && routed then d.out[i] else 0

/-- `sumL` (R252). -/
def sumLeft (d : Snd) : Int := (channelOrder.map fun i => contribution d (routedLeft d.nr51 i) i).sum

/-- `sumR` (R252). -/
def sumRight (d : Snd) : Int := (channelOrder.map fun i => contribution d (routedRight d.nr51 i) i).sum

/-- The left sample, over Int: no clamp, no wrap (R252). -/
def mixLeft (p : Params) (d : Snd) : Int := p.volumeLaw.get (leftVolume d.nr50).toFin * p.mixScale.apply (sumLeft d)

/-- The right sample (R252). -/
def mixRight (p : Params) (d : Snd) : Int := p.volumeLaw.get (rightVolume d.nr50).toFin * p.mixScale.apply (sumRight d)

/-- The raw byte at an address, through its owner (R258, D36). -/
def rawByte (s : State) (a : Addr) : Byte :=
  match ownerOf s.params.sndMap a with
  | some k => (s.channel k).read a
  | none => 0

/-- What PowerOn writes at an address: a length register's raw byte under its mask, else 0x00 (R258, R113). -/
def powerOnValue (s : State) (a : Addr) : Byte :=
  match lengthMask s.params.sndMap a with
  | some m => rawByte s a &&& m
  | none => 0x00

/-- One address of the PowerOn sequence (R258); an address no channel owns has nothing to write. -/
def powerOnWrite (s : State) (a : Addr) : State :=
  if a = s.params.sndMap.nr50 then s.setSnd { s.snd with nr50 := powerOnValue s a }
  else if a = s.params.sndMap.nr51 then s.setSnd { s.snd with nr51 := powerOnValue s a }
  else match ownerOf s.params.sndMap a with
    | some k => s.writeChannel k a (powerOnValue s a)
    | none => s

/-- `PowerOn()`: the registers in ascending order, then each channel's start, then the sink's (R258). -/
def powerOn (s : State) : State :=
  (channelOrder.foldl State.startChannel ((powerOnAddrs s.params.sndMap).foldl powerOnWrite s)).record .sinkStart

/-- `PowerOff()`: each channel's stop, then the sink's (R257). -/
def powerOff (s : State) : State := (channelOrder.foldl State.stopChannel s).record .sinkStop

/-- A write of NR52: only bit 7 counts, and only where it changes the enable (R256). -/
def writeMaster (d : Byte) (s : State) : State :=
  if !d.getLsbD 7 && s.snd.enabled then powerOff (s.setSnd { s.snd with enabled := false })
  else if d.getLsbD 7 && !s.snd.enabled then powerOn (s.setSnd { s.snd with enabled := true })
  else s

/-- A bus read of SND, by what the map makes of the address (R103): R253, R254 or R255, else R262. -/
def sndRead (a : Addr) (s : State) : Host.Outcome State Fault Refusal :=
  match sndRole s.params.sndMap a with
  | some .master => finish s (.byte (nr52Byte s ||| readMask s a))
  | some (.channel k) => finish s (.byte ((s.channel k).read a ||| readMask s a))
  | some .volume => finish s (.byte (s.snd.nr50 ||| readMask s a))
  | some .selection => finish s (.byte (s.snd.nr51 ||| readMask s a))
  | none => raise (.addressing .snd a .read)

/-- A bus write of SND, by what the map makes of the address (R103): R256, R259 or R261, else R262. -/
def sndWrite (a : Addr) (d : Byte) (s : State) : Host.Outcome State Fault Refusal :=
  match sndRole s.params.sndMap a with
  | some .master => finish (writeMaster d s) .nothing
  | some (.channel k) => finish (s.writeChannel k a d) .nothing
  | some .volume => finish (s.setSnd { s.snd with nr50 := d }) .nothing
  | some .selection => finish (s.setSnd { s.snd with nr51 := d }) .nothing
  | none => raise (.addressing .snd a .write)

/-- SND_ACCEPTS (R250). -/
def execSndAccepts (a : Addr) (s : State) : Host.Outcome State Fault Refusal :=
  finish s (.bool (sndAccepts s.params.sndMap a))

/-- SND_TICK (R251). -/
def execSndTick (s : State) : Host.Outcome State Fault Refusal :=
  if s.snd.enabled then
    let t := channelOrder.foldl State.tickChannel s
    finish (t.record (.play (mixLeft t.params t.snd) (mixRight t.params t.snd))) .nothing
  else finish s .nothing

/-- SND_TOGGLE (R260). -/
def execSndToggle (i : Int) (s : State) : Host.Outcome State Fault Refusal :=
  if h : i.toNat < 4 ∧ 0 ≤ i then
    finish (s.setSnd { s.snd with mute := s.snd.mute.set i.toNat (!s.snd.mute[i.toNat]'h.1) h.1 }) .nothing
  else raise (.argument (.sndToggle i))

/-! The bus rows. Each is the access at its address: under the default map, which the rows are written for, the operation the row
is named for, and under another what R103 makes of that address (log 3). -/

/-- SND_RD_NR52 (R253). -/
def execSndRdNr52 (s : State) : Host.Outcome State Fault Refusal := sndRead nr52Addr s

/-- SND_RD_CH_A (R254). -/
def execSndRdChA (lo : BitVec 4) (s : State) : Host.Outcome State Fault Refusal := sndRead (chAAddr lo) s

/-- SND_RD_CH_B (R254). -/
def execSndRdChB (lo : BitVec 2) (s : State) : Host.Outcome State Fault Refusal := sndRead (chBAddr lo) s

/-- SND_RD_WAVE (R254). -/
def execSndRdWave (lo : BitVec 4) (s : State) : Host.Outcome State Fault Refusal := sndRead (waveAddr lo) s

/-- SND_RD_CTL (R255). -/
def execSndRdCtl (lo : BitVec 1) (s : State) : Host.Outcome State Fault Refusal := sndRead (ctlAddr lo) s

/-- SND_WR_NR52 (R256). -/
def execSndWrNr52 (d : Byte) (s : State) : Host.Outcome State Fault Refusal := sndWrite nr52Addr d s

/-- SND_WR_CH_A (R259). -/
def execSndWrChA (lo : BitVec 4) (d : Byte) (s : State) : Host.Outcome State Fault Refusal := sndWrite (chAAddr lo) d s

/-- SND_WR_CH_B (R259). -/
def execSndWrChB (lo : BitVec 2) (d : Byte) (s : State) : Host.Outcome State Fault Refusal := sndWrite (chBAddr lo) d s

/-- SND_WR_WAVE (R259). -/
def execSndWrWave (lo : BitVec 4) (d : Byte) (s : State) : Host.Outcome State Fault Refusal := sndWrite (waveAddr lo) d s

/-- SND_WR_CTL (R261). -/
def execSndWrCtl (lo : BitVec 1) (d : Byte) (s : State) : Host.Outcome State Fault Refusal := sndWrite (ctlAddr lo) d s

/-- SND_BAD (R262): under the default map no role is left for its addresses, and the access faults. -/
def execSndBad (acc : Access) (a : Addr) (s : State) : Host.Outcome State Fault Refusal :=
  match acc with
  | .read => sndRead a s
  | .write d => sndWrite a d s

end Sys2Proof.Machine
end

