-- ==== Sys2Proof/Machine/Dispatch.lean ====
section
/-! DEFINITION. Which meaning each operation of the opcode table has. -/

namespace Sys2Proof.Machine

open Sys2Proof

/-- One operation: one atomic step of its agent (00_scope.md R10). -/
def exec (i : Instr) (s : State) : Host.Outcome State Fault Refusal :=
  match i with
  | .scanStart => Sys2Proof.Machine.execScanStart s
  | .scanTickY => Sys2Proof.Machine.execScanTickY s
  | .scanTickX => Sys2Proof.Machine.execScanTickX s
  | .scanTickOverrun => Sys2Proof.Machine.execScanTickOverrun s
  | .scanGetSprites => Sys2Proof.Machine.execScanGetSprites s
  | .mbcAccepts a => Sys2Proof.Machine.execMbcAccepts a s
  | .mbcSave => Sys2Proof.Machine.execMbcSave s
  | .rtcAdvance => Sys2Proof.Machine.execRtcAdvance s
  | .sndAccepts a => Sys2Proof.Machine.execSndAccepts a s
  | .sndTick => Sys2Proof.Machine.execSndTick s
  | .sndToggle idx => Sys2Proof.Machine.execSndToggle idx s
  | .rbWrite data count => Sys2Proof.Machine.execRbWrite data count s
  | .rbRead count => Sys2Proof.Machine.execRbRead count s
  | .rbCount => Sys2Proof.Machine.execRbCount s
  | .mbcRdRom0 lo => Sys2Proof.Machine.execMbcRdRom0 lo s
  | .mbcRdRomx lo => Sys2Proof.Machine.execMbcRdRomx lo s
  | .mbcRdRam lo => Sys2Proof.Machine.execMbcRdRam lo s
  | .mbcRdRtc lo => Sys2Proof.Machine.execMbcRdRtc lo s
  | .mbcWrRamen lo d => Sys2Proof.Machine.execMbcWrRamen lo d s
  | .mbcWrRomb lo d => Sys2Proof.Machine.execMbcWrRomb lo d s
  | .mbcWrRamb lo d => Sys2Proof.Machine.execMbcWrRamb lo d s
  | .mbcWrLatch lo d => Sys2Proof.Machine.execMbcWrLatch lo d s
  | .mbcWrRam lo d => Sys2Proof.Machine.execMbcWrRam lo d s
  | .mbcWrRtc lo d => Sys2Proof.Machine.execMbcWrRtc lo d s
  | .mbcBad8000 acc lo => Sys2Proof.Machine.execMbcBad8000 acc lo s
  | .mbcBadC000 acc lo => Sys2Proof.Machine.execMbcBadC000 acc lo s
  | .sndRdChA lo => Sys2Proof.Machine.execSndRdChA lo s
  | .sndRdChB lo => Sys2Proof.Machine.execSndRdChB lo s
  | .sndRdCtl lo => Sys2Proof.Machine.execSndRdCtl lo s
  | .sndRdNr52 => Sys2Proof.Machine.execSndRdNr52 s
  | .sndRdWave lo => Sys2Proof.Machine.execSndRdWave lo s
  | .sndWrChA lo d => Sys2Proof.Machine.execSndWrChA lo d s
  | .sndWrChB lo d => Sys2Proof.Machine.execSndWrChB lo d s
  | .sndWrCtl lo d => Sys2Proof.Machine.execSndWrCtl lo d s
  | .sndWrNr52 d => Sys2Proof.Machine.execSndWrNr52 d s
  | .sndWrWave lo d => Sys2Proof.Machine.execSndWrWave lo d s
  | .sndBad acc a => Sys2Proof.Machine.execSndBad acc a s

end Sys2Proof.Machine
end

