-- ==== Sys2Proof/Machine/Fetch.lean ====
section
/-! DEFINITION. Where the next operation comes from: whose turn it is, the request that agent has pending, and the row of the
opcode table it is (00_scope.md R1, R2, R10; 20_memory.md R77, R78; 60_exceptions.md R339; 30_encoding.md R103). -/

namespace Sys2Proof.Machine

/-- Whether R1 gives the agent the operation. -/
def mayIssue (a : Agent) (i : Instr) : Bool :=
  match i with
  | .rbRead _ => a == .audio
  | .rbCount => a == .emu || a == .audio
  | .rtcAdvance => a == .clock
  | .scanStart | .scanTickY | .scanTickX | .scanTickOverrun | .scanGetSprites
  | .mbcAccepts _ | .mbcSave | .sndAccepts _ | .sndTick | .sndToggle _ | .rbWrite _ _
  | .mbcRdRom0 _ | .mbcRdRomx _ | .mbcRdRam _ | .mbcRdRtc _
  | .mbcWrRamen _ _ | .mbcWrRomb _ _ | .mbcWrRamb _ _ | .mbcWrLatch _ _ | .mbcWrRam _ _ | .mbcWrRtc _ _
  | .mbcBad8000 _ _ | .mbcBadC000 _ _
  | .sndRdChA _ | .sndRdChB _ | .sndRdCtl _ | .sndRdNr52 | .sndRdWave _
  | .sndWrChA _ _ | .sndWrChB _ _ | .sndWrCtl _ _ | .sndWrNr52 _ | .sndWrWave _ _ | .sndBad _ _ => a == .emu

/-- An agent's pending requests. -/
def Ports.queue (p : Ports) : Agent → List Wire
  | .emu => p.emu
  | .audio => p.audio
  | .clock => p.clock

/-- The ports with an agent's pending requests replaced. -/
def Ports.setQueue (p : Ports) (a : Agent) (q : List Wire) : Ports :=
  match a with
  | .emu => { p with emu := q }
  | .audio => { p with audio := q }
  | .clock => { p with clock := q }

/-- A change of SCAN's inputs (R25). -/
def Env.apply (e : Env) : HostInput → Env
  | .setByte a v => { e with mem := e.mem.set a.toNat v }
  | .setLy v => { e with ly := v }
  | .setObj16 b => { e with obj16 := b }

/-- What the next turn brings. -/
inductive Fetched where
  /-- No turn is listed: nobody moves. -/
  | idle
  /-- The host changed an input, or the one whose turn it was had nothing pending. -/
  | moved (s : State)
  /-- An agent issues its oldest pending request. -/
  | issued (a : Agent) (w : Wire) (s : State)
deriving DecidableEq, Repr

/-- Take the next turn off the list, and what it brings (log 1). -/
def fetch (s : State) : Fetched :=
  match s.ports.turns with
  | [] => .idle
  | .host :: ts =>
    match s.ports.host with
    | [] => .moved (s.setPorts { s.ports with turns := ts })
    | h :: hs => .moved ((s.setEnv (s.env.apply h)).setPorts { s.ports with turns := ts, host := hs })
  | .agent a :: ts =>
    match s.ports.queue a with
    | [] => .moved (s.setPorts { s.ports with turns := ts })
    | w :: ws => .issued a w (s.setPorts { s.ports.setQueue a ws with turns := ts, issuer := some a })

/-- The operation a request is in a state (R103), or why the machine takes no step for it (R116, R1). -/
def resolve (a : Agent) (w : Wire) (s : State) : Except Refusal Instr :=
  match decode w with
  | .error why => .error (.rejected why)
  | .ok i => if mayIssue a (selectRow s i) then .ok (selectRow s i) else .error (.notThisAgents a (selectRow s i))

/-- The agent a request comes from where only the request is known: the first that R1 allows (log 14). -/
def issuerOf (w : Wire) : Agent :=
  match decode w with
  | .ok (.rbRead _) => .audio
  | .ok .rtcAdvance => .clock
  | _ => .emu

/-- Put a request where the next step takes it: its agent's turn is next, and it is that agent's oldest request. -/
def State.place (s : State) (w : Wire) : State :=
  s.setPorts
    { s.ports.setQueue (issuerOf w) (w :: s.ports.queue (issuerOf w)) with turns := .agent (issuerOf w) :: s.ports.turns }

/-- A transaction that names no operation (R116), which stands for table words that are no transaction. -/
def noWire : Wire := .ctrl 0x00 .nothing

end Sys2Proof.Machine
end

