-- ==== Sys2Proof/Machine/Step.lean ====
section
/-! DEFINITION. One step: the next turn of the interleaving, and the operation it brings (00_scope.md R10; 60_exceptions.md R339). -/

namespace Sys2Proof.Machine

/-- One step. With no turn listed the machine stays as it is (log 1); a request that names no operation gets no step (R116). -/
def step (s : State) : Host.Outcome State Fault Refusal :=
  match fetch s with
  | .idle => .next s
  | .moved s' => .next s'
  | .issued a w s' =>
    match resolve a w s' with
    | .error r => .refused r
    | .ok i => exec i s'

/-- `s` with a table word's transaction placed where the next step takes it (log 14). -/
def State.withFetchWord (s : State) (nbits w : Nat) : State :=
  match wireOfTableWord nbits w with
  | some wire => s.place wire
  | none => s.place noWire

end Sys2Proof.Machine
end

