-- ==== Sys2Proof/Machine/Construct.lean ====
section
/-! DEFINITION. Construction (70_reset_and_hazards.md R370, R371; 60_exceptions.md R335) as a function of the launch parameters and
of the values the spec leaves to a draw. `State.reset` is its value for one choice of them. -/

namespace Sys2Proof.Machine

/-- The launch parameters of 00_scope.md section 5 and the construction's draws.
`rom` is P_ROM; `ram` P_RAM_SIZE and P_RAM_INIT; `clock` P_CLOCK_INIT; `ring` P_RB_CAPACITY with the storage's draw (R46);
`wave` the wave bytes' draw (R41), at the bus addresses of whichever channel owns them; `models` P_CHANNEL with `inner` the models'
own start; `env` SCAN's inputs at that time; `params` the rest, P_SND_MAP among them. -/
structure Launch where
  rom : Memory
  ram : Memory
  clock : Vector ClockField 12
  ring : Memory
  wave : Memory
  models : Vector ChannelModel 4
  inner : Vector Nat 4
  env : Env
  params : Params
deriving DecidableEq, Repr

/-- The stores are given in canonical form, the three keyed by bus address have its size, the map is formed, and the draw leaves the
registers NR10 .. NR51 at 0x00 (R41). -/
def Launch.formed (p : Launch) : Bool :=
  p.rom.wf && p.ram.wf && p.ring.wf && p.env.mem.wf && p.params.readMask.wf && p.wave.wf &&
    p.env.mem.size == 0x10000 && p.params.readMask.size == 0x10000 && p.wave.size == 0x10000 &&
    sndMapFormed p.params.sndMap &&
    p.wave.cells.all fun c => decide (c.1 < p.params.sndMap.nr10.toNat) || decide (p.params.sndMap.nr51.toNat < c.1)

/-- Channel `k` as constructed (R41). -/
def Launch.channel (p : Launch) (k : Fin 4) : Channel := ⟨p.models[k], p.wave, p.inner[k]⟩

/-- Construction: none where it is refused (R335, R226), else the state of R26, R34, R41 and R46. -/
def State.construct (p : Launch) : Option State :=
  match deserialize p.clock with
  | none => none
  | some (live, reserved) =>
    if p.ring.size = 0 || !p.formed then none
    else some
      { scan := Scan.reset
        mbc := ⟨1, 0, false, 0x00, false, p.ram, p.rom, live, live, reserved⟩
        snd := { Snd.reset with ch := #v[p.channel 0, p.channel 1, p.channel 2, p.channel 3] }
        rb := ⟨p.ring, 0, 0, 0⟩
        env := p.env
        params := p.params
        ports := Ports.idle
        result := .nothing
        trace := [.loadRamWithClock p.ram p.clock]
        draws := 0 }

/-- The launch `State.reset` stands for (log 3 to 12). -/
def Launch.standard : Launch where
  rom := Memory.blank 0
  ram := Memory.blank 0x8000
  clock := Vector.replicate 12 0
  ring := Memory.blank 4
  wave := Memory.blank 0x10000
  models := #v[.generator 0, .generator 1, .generator 2, .generator 3]
  inner := #v[0, 0, 0, 0]
  env := ⟨Memory.blank 0x10000, 0x00, false⟩
  params := Params.standard

end Sys2Proof.Machine
end

