-- ==== Sys2Proof/Safety.lean ====
section
/-! DEFINITION. What a legal state and a safe step are, in the terms the statements use (10_state.md R24, R28, R45; R330). -/

namespace Sys2Proof.Machine

/-- Every entry below `n` is a descriptor of an OAM slot before slot `i`, with raw bytes as coordinates, in strictly ascending
address order; every other entry is none (R23, R24). -/
def Scan.listed (c : Scan) : Prop :=
  ∀ k : Fin 10,
    match c.sprites[k] with
    | none => c.n.val ≤ k.val
    | some d => k.val < c.n.val ∧
      (0 ≤ d.x ∧ d.x ≤ 255) ∧ (0 ≤ d.y ∧ d.y ≤ 255) ∧
      (∃ j : Fin 40, j.val < c.i.val ∧ d.oamAddress = oamAddr j.val) ∧
      (∀ l : Fin 10, k.val < l.val → ∀ e ∈ c.sprites[l], d.oamAddress < e.oamAddress)

/-- SCAN's invariants (R24). -/
def Scan.Inv (c : Scan) : Prop := c.listed ∧ (c.state = .readingX → c.i.val < 40)

/-- MBC's invariant (R28), and its stores in canonical form. -/
def Mbc.Inv (m : Mbc) : Prop := m.selectedRomBank ≠ 0 ∧ m.ram.wf = true ∧ m.rom.wf = true

/-- A channel's file of raw bytes is keyed by bus address and canonical. -/
def Channel.Inv (c : Channel) : Prop := c.regs.wf = true ∧ c.regs.size = 0x10000

/-- The channels' files are canonical. -/
def Snd.Inv (d : Snd) : Prop := ∀ k : Fin 4, d.ch[k].Inv

/-- RB's invariants (R44, R45). -/
def Rb.Inv (r : Rb) : Prop :=
  1 ≤ r.capacity ∧ r.cnt ≤ r.capacity ∧ r.wc < r.capacity ∧ r.rc < r.capacity ∧
    r.wc = (r.rc + r.cnt) % r.capacity ∧ r.buf.wf = true

/-- The host's bytes and the mask table are canonical and keyed by bus address, and the sound map is formed (log 3). -/
def State.envInv (s : State) : Prop :=
  s.env.mem.wf = true ∧ s.env.mem.size = 0x10000 ∧ s.params.readMask.wf = true ∧ sndMapFormed s.params.sndMap = true

/-- The invariant of the machine. -/
def State.Inv (s : State) : Prop := s.scan.Inv ∧ s.mbc.Inv ∧ s.snd.Inv ∧ s.rb.Inv ∧ s.envInv

/-- The step raises no fault. -/
def State.Safe (s : State) : Prop := ∀ f, step s ≠ .fault f

/-- What one step leaves the same, whoever moved: the parameters, the ROM image, the sizes of the stores (R189, log 2). -/
def State.sameMachine (s t : State) : Prop :=
  t.params = s.params ∧ t.mbc.rom = s.mbc.rom ∧ t.mbc.ram.size = s.mbc.ram.size ∧ t.rb.capacity = s.rb.capacity ∧
    t.mbc.reserved = s.mbc.reserved ∧ ∀ k : Fin 4, t.snd.ch[k].model = s.snd.ch[k].model

/-! Sequences of operations, for the statements about whole scans and whole runs. -/

/-- SCAN_TICK, `k` times: each tick is the row the state selects (R141). -/
def scanTicks : Nat → State → Host.Outcome State Fault Refusal
  | 0, s => .next s
  | k + 1, s =>
    match exec (tickRow s) s with
    | .next t => scanTicks k t
    | .fault f => .fault f
    | .refused r => .refused r

/-- The descriptor slot `j` has by the OAM bytes the host holds (R23, R112). -/
def slotDescriptor (s : State) (j : Nat) : SpriteDescriptor :=
  ⟨(s.env.mem.get (0xFE00 + 4 * j + 1)).toNat, (s.env.mem.get (0xFE00 + 4 * j)).toNat, 0xFE00 + 4 * j⟩

/-- The visible slots of the 40, in ascending order, for the inputs of a state (R144, R147). -/
def visibleSlots (s : State) : List Nat :=
  (List.range 40).filter fun j =>
    decide ((s.env.mem.get (0xFE00 + 4 * j)).toNat ≤ s.env.ly.toNat + 16) &&
      decide (s.env.ly.toNat + 16 < (s.env.mem.get (0xFE00 + 4 * j)).toNat + if s.env.obj16 then 16 else 8)

/-- The bytes an operation stores in RB: the first `n` of an RB_WRITE's data (R300, R305). -/
def storedBy (i : Instr) (s : State) : List Byte :=
  match i with
  | .rbWrite data count => data.take (min count (s.rb.capacity - s.rb.cnt))
  | _ => []

/-- The bytes an operation returned from RB, by the state it left (R301, R305). -/
def returnedBy (i : Instr) (t : State) : List Byte :=
  match i, t.result with
  | .rbRead _, .bytes out _ => out
  | _, _ => []

/-- Run operations in order: the state they leave, the bytes they stored in RB and the bytes they returned from it (R305); none
where one of them does not complete. -/
def ringRun : List Instr → State → Option (State × List Byte × List Byte)
  | [], s => some (s, [], [])
  | i :: is, s =>
    match exec i s with
    | .next t =>
      match ringRun is t with
      | some (u, stored, returned) => some (u, storedBy i s ++ stored, returnedBy i t ++ returned)
      | none => none
    | _ => none

/-- The four units of the CORE (00_scope.md section 1). -/
inductive CoreUnit where
  | scan
  | mbc
  | snd
  | rb
deriving DecidableEq, Repr

/-- The unit an operation is on: `U[7:4]` of a CTRL code, the target of a BUS transaction (R102, R103). -/
def unitOf : Instr → CoreUnit
  | .scanStart | .scanTickY | .scanTickX | .scanTickOverrun | .scanGetSprites => .scan
  | .rbWrite _ _ | .rbRead _ | .rbCount => .rb
  | .sndAccepts _ | .sndTick | .sndToggle _
  | .sndRdChA _ | .sndRdChB _ | .sndRdCtl _ | .sndRdNr52 | .sndRdWave _
  | .sndWrChA _ _ | .sndWrChB _ _ | .sndWrCtl _ _ | .sndWrNr52 _ | .sndWrWave _ _ | .sndBad _ _ => .snd
  | .mbcAccepts _ | .mbcSave | .rtcAdvance
  | .mbcRdRom0 _ | .mbcRdRomx _ | .mbcRdRam _ | .mbcRdRtc _
  | .mbcWrRamen _ _ | .mbcWrRomb _ _ | .mbcWrRamb _ _ | .mbcWrLatch _ _ | .mbcWrRam _ _ | .mbcWrRtc _ _
  | .mbcBad8000 _ _ | .mbcBadC000 _ _ => .mbc

/-! SND's bus operations and its address map (R42, R103), in the terms of the map alone. -/

/-- The access an SND bus operation makes, read off its transaction: the kind with a write's data, and the address (R101). -/
def sndAccess (i : Instr) : Option (Access × Addr) :=
  match encode i with
  | .bus .snd sel none => some (.read, selAddr sel)
  | .bus .snd sel (some d) => some (.write d, selAddr sel)
  | _ => none

/-- A sub-range of `CH[k + 1]` holds the address (R42). -/
def mapOwns (m : SndMap) (k : Fin 4) (a : Addr) : Prop :=
  ∃ r ∈ m.ranges, r.channel = k ∧ r.first.toNat ≤ a.toNat ∧ a.toNat ≤ r.last.toNat

/-- The address is NR52, NR50, NR51 or in the sub-range of some channel (R250). -/
def mapAccepts (m : SndMap) (a : Addr) : Prop := a = m.nr52 ∨ a = m.nr50 ∨ a = m.nr51 ∨ ∃ k, mapOwns m k a

/-- The operation writes `d` to NR52: SND_WR_NR52 under a map that has NR52 where the opcode table's row is, and under any map an
SND write of the address the map gives NR52 (R256). -/
def writesMaster (i : Instr) (d : Byte) (m : SndMap) : Prop :=
  (i = .sndWrNr52 d ∧ m.nr52 = 0xFF26) ∨ sndAccess i = some (.write d, m.nr52)

/-- What an operation of a unit can see: the unit's own fields, its inputs and its parameters, and for the clock the free values to
come (R49, R25; log 2, 20). -/
def sameView (u : CoreUnit) (s t : State) : Prop :=
  match u with
  | .scan => s.scan = t.scan ∧ s.env = t.env
  | .mbc => s.mbc = t.mbc ∧ s.params.rtcLaw = t.params.rtcLaw ∧ s.draws = t.draws
  | .snd => s.snd = t.snd ∧ s.params = t.params
  | .rb => s.rb = t.rb

/-- The operations that read and write nothing: bus reads, the two `accepts`, the sprite list and the size query (R76, R146,
R170, R250, R302). -/
def readsOnly : Instr → Bool
  | .scanGetSprites | .mbcAccepts _ | .sndAccepts _ | .rbCount
  | .mbcRdRom0 _ | .mbcRdRomx _ | .mbcRdRam _ | .mbcRdRtc _
  | .sndRdChA _ | .sndRdChB _ | .sndRdCtl _ | .sndRdNr52 | .sndRdWave _
  | .sndBad .read _ => true
  | .scanStart | .scanTickY | .scanTickX | .scanTickOverrun | .mbcSave | .rtcAdvance | .sndTick | .sndToggle _
  | .rbWrite _ _ | .rbRead _
  | .mbcWrRamen _ _ | .mbcWrRomb _ _ | .mbcWrRamb _ _ | .mbcWrLatch _ _ | .mbcWrRam _ _ | .mbcWrRtc _ _
  | .mbcBad8000 _ _ | .mbcBadC000 _ _
  | .sndWrChA _ _ | .sndWrChB _ _ | .sndWrCtl _ _ | .sndWrNr52 _ | .sndWrWave _ _
  | .sndBad (.write _) _ => false

end Sys2Proof.Machine
end

