-- ==== Sys2Proof/Certificates/Slice0/Obligations.lean ====
section
/-! DEFINITION. The statements about the model, each from the spec's numbered rules. -/

open Sys2Proof Sys2Proof.Machine

/-! ## SCAN -/

/-- R140: SCAN_START from any state leaves ReadingY, slot 0, no descriptor, `curY` as it was, and nothing else changed. -/
def Obligations.ScanStartEmptiesTheScan : Prop :=
  ∀ s : State, ∃ t, exec .scanStart s = .next t ∧
    t.scan.state = .readingY ∧ t.scan.i = 0 ∧ t.scan.n = 0 ∧ (∀ k : Fin 10, t.scan.sprites[k] = none) ∧
    t.scan.curY = s.scan.curY ∧ t = { s with scan := t.scan, result := .nothing }

/-- R142: the Y tick of slot `i` reads the byte at 0xFE00 + 4i, goes to ReadingX, returns true, and changes nothing else. -/
def Obligations.ScanTickYReadsTheYByte : Prop :=
  ∀ s : State, s.scan.i.val < 40 → s.scan.state = .readingY →
    exec .scanTickY s =
      .next { s with
        scan := { s.scan with curY := s.env.mem.get (0xFE00 + 4 * s.scan.i.val), state := .readingX }
        result := .bool true }

/-- R143 with R144: the X tick of slot `i` collects the slot exactly when it is visible over Int and the list has room, moves to
the next slot, returns whether a slot is left, and changes nothing else. -/
def Obligations.ScanTickXCollectsVisibleSlots : Prop :=
  ∀ s : State, s.scan.i.val < 40 → s.scan.state = .readingX →
    ∃ t, exec .scanTickX s = .next t ∧
      t.scan.i.val = s.scan.i.val + 1 ∧ t.scan.state = .readingY ∧ t.scan.curY = s.scan.curY ∧
      t.result = .bool (decide (s.scan.i.val + 1 < 40)) ∧
      (if (s.scan.curY.toNat : Int) ≤ (s.env.ly.toNat : Int) + 16 ∧
          (s.env.ly.toNat : Int) + 16 < (s.scan.curY.toNat : Int) + (if s.env.obj16 then 16 else 8) ∧ s.scan.n.val < 10 then
        t.scan.n.val = s.scan.n.val + 1 ∧
        ∀ k : Fin 10, t.scan.sprites[k] =
          if k.val = s.scan.n.val then
            some ⟨(s.env.mem.get (0xFE00 + 4 * s.scan.i.val + 1)).toNat, s.scan.curY.toNat, 0xFE00 + 4 * s.scan.i.val⟩
          else s.scan.sprites[k]
      else t.scan.n = s.scan.n ∧ t.scan.sprites = s.scan.sprites) ∧
      t = { s with scan := t.scan, result := t.result }

/-- R145: a tick after the 80th of a scan faults with the slot index 40, whichever way it is issued. -/
def Obligations.ScanTickAfterTheEightiethFaults : Prop :=
  ∀ s : State, s.scan.i.val = 40 →
    exec .scanTickOverrun s = .fault (.scanOverrun 40) ∧ scanTicks 1 s = .fault (.scanOverrun 40)

/-- R146: SCAN_GET_SPRITES returns the ten entries and changes no state. -/
def Obligations.GetSpritesReturnsTheList : Prop :=
  ∀ s : State, ∃ l : Vector (Option SpriteDescriptor) 10,
    exec .scanGetSprites s = .next { s with result := .sprites l } ∧ ∀ k : Fin 10, l[k] = s.scan.sprites[k]

/-- From R147, which the spec marks as derived (the order of the OAM reads, which leaves no trace in the state, is not stated):
SCAN_START and 80 ticks under constant inputs list the first ten visible slots in slot order, return false at the end and true
before it, and change nothing but SCAN. -/
def Obligations.CompleteScanListsFirstTenVisible : Prop :=
  ∀ s : State, ∃ t, exec .scanStart s = .next t ∧
    (∀ m, 0 < m → m < 80 → ∃ v, scanTicks m t = .next v ∧ v.result = .bool true) ∧
    ∃ u, scanTicks 80 t = .next u ∧
      (∀ k : Fin 10, u.scan.sprites[k] = ((visibleSlots s).map (slotDescriptor s))[k.val]?) ∧
      u.scan.n.val = min 10 (visibleSlots s).length ∧ u.scan.i.val = 40 ∧ u.scan.state = .readingY ∧
      u.result = .bool false ∧ u = { s with scan := u.scan, result := u.result }

/-! ## MBC -/

/-- R170, R250: what the two units accept: SND what its map says, 0xFF10-0xFF26 and 0xFF30-0xFF3F under the default map. -/
def Obligations.AcceptedAddressRanges : Prop :=
  ∀ (s : State) (a : Addr),
    exec (.mbcAccepts a) s =
      .next { s with result := .bool (decide (a.toNat < 0x8000 ∨ (0xA000 ≤ a.toNat ∧ a.toNat < 0xC000))) } ∧
    ∃ b : Bool, exec (.sndAccepts a) s = .next { s with result := .bool b } ∧
      (b = true ↔ mapAccepts s.params.sndMap a) ∧
      (s.params.sndMap = Config.defaultSndMap →
        (b = true ↔ (0xFF10 ≤ a.toNat ∧ a.toNat ≤ 0xFF26) ∨ (0xFF30 ≤ a.toNat ∧ a.toNat ≤ 0xFF3F)))

/-- R171, R172, R186: the fixed and the switchable ROM window, 0xFF past the image. `lo` is the address less its window's base. -/
def Obligations.RomWindowReads : Prop :=
  ∀ (s : State) (lo : BitVec 14),
    exec (.mbcRdRom0 lo) s =
      .next { s with result := .byte (if lo.toNat < s.mbc.rom.size then s.mbc.rom.get lo.toNat else 0xFF) } ∧
    exec (.mbcRdRomx lo) s =
      .next { s with
        result := .byte (if s.mbc.selectedRomBank.toNat * 0x4000 + lo.toNat < s.mbc.rom.size
          then s.mbc.rom.get (s.mbc.selectedRomBank.toNat * 0x4000 + lo.toNat) else 0xFF) }

/-- R173, R187: a RAM bank's byte, 0xFF past capacity, whatever `ramWriteEnabled` is. -/
def Obligations.RamWindowReads : Prop :=
  ∀ (s : State) (lo : BitVec 13), s.mbc.selectedRamBank.toNat < 4 →
    exec (.mbcRdRam lo) s =
      .next { s with
        result := .byte (if s.mbc.selectedRamBank.toNat * 0x2000 + lo.toNat < s.mbc.ram.size
          then s.mbc.ram.get (s.mbc.selectedRamBank.toNat * 0x2000 + lo.toNat) else 0xFF) }

/-- R174, R175: the selected RTC register of the snapshot while latched, else of the live state; 0xFF where the select names
none. -/
def Obligations.RtcWindowReads : Prop :=
  ∀ (s : State) (lo : BitVec 13), 4 ≤ s.mbc.selectedRamBank.toNat →
    ∃ b : Byte, exec (.mbcRdRtc lo) s = .next { s with result := .byte b } ∧
      ∀ v : Clock, v = (if s.mbc.clockLatched then s.mbc.snap else s.mbc.live) →
        (if s.mbc.selectedRamBank = 0x08 then b = v.sec
        else if s.mbc.selectedRamBank = 0x09 then b = v.min
        else if s.mbc.selectedRamBank = 0x0A then b = v.hrs
        else if s.mbc.selectedRamBank = 0x0B then b.toNat = v.day.toNat % 256
        else if s.mbc.selectedRamBank = 0x0C then
          b.toNat = (if v.ovf then 128 else 0) + (if v.halt then 64 else 0) + v.day.toNat / 256
        else b = 0xFF)

/-- R176, R104, R184, R225: a RAMEN write sets the enable from bits 1 and 3 of the data; one that leaves it off makes exactly
one `saveRamWithClock` call with the whole RAM and the 12 fields of the live clock. -/
def Obligations.RamEnableWrites : Prop :=
  ∀ (s : State) (lo : BitVec 13) (d : Byte),
    (if d.getLsbD 1 = true ∨ d.getLsbD 3 = true then
      exec (.mbcWrRamen lo d) s = .next { s with mbc := { s.mbc with ramWriteEnabled := true }, result := .nothing }
    else
      ∃ f : Vector ClockField 12,
        exec (.mbcWrRamen lo d) s =
          .next { s with
            mbc := { s.mbc with ramWriteEnabled := false }
            trace := s.trace ++ [.saveRamWithClock s.mbc.ram f]
            result := .nothing } ∧
        f[0].toInt = s.mbc.live.sec.toNat ∧ f[1].toInt = s.mbc.live.min.toNat ∧ f[2].toInt = s.mbc.live.hrs.toNat ∧
        f[3].toInt = (s.mbc.live.day.toNat % 256 : Nat) ∧
        f[4].toInt = ((if s.mbc.live.ovf then 128 else 0) + (if s.mbc.live.halt then 64 else 0) + s.mbc.live.day.toNat / 256 : Nat) ∧
        ∀ k : Fin 7, f[5 + k.val] = s.mbc.reserved[k])

/-- R177, R178, R105: the ROM bank is the data's low 7 bits with 0 remapped to 1, the RAM bank select is the data. -/
def Obligations.BankSelectWrites : Prop :=
  ∀ (s : State) (lo : BitVec 13) (d : Byte),
    (∃ b : BitVec 7, exec (.mbcWrRomb lo d) s = .next { s with mbc := { s.mbc with selectedRomBank := b }, result := .nothing } ∧
      b.toNat = if d.toNat % 128 = 0 then 1 else d.toNat % 128) ∧
    exec (.mbcWrRamb lo d) s = .next { s with mbc := { s.mbc with selectedRamBank := d }, result := .nothing }

/-- R179, R107: 0x01 over a shadow of 0x00 toggles the latch, freezing the live clock when it closes; the shadow takes the data
on every write. -/
def Obligations.LatchWrites : Prop :=
  ∀ (s : State) (lo : BitVec 13) (d : Byte),
    exec (.mbcWrLatch lo d) s =
      .next { s with
        mbc := { s.mbc with
          latchRegister := d
          clockLatched := if d.toNat = 1 ∧ s.mbc.latchRegister.toNat = 0 then !s.mbc.clockLatched else s.mbc.clockLatched
          snap := if d.toNat = 1 ∧ s.mbc.latchRegister.toNat = 0 ∧ s.mbc.clockLatched = false then s.mbc.live else s.mbc.snap }
        result := .nothing }

/-- R180, R187: a RAM write stores its byte while enabled and within capacity, is dropped otherwise, and changes no other byte
and nothing else. -/
def Obligations.RamWindowWrites : Prop :=
  ∀ (s : State) (lo : BitVec 13) (d : Byte), s.mbc.ram.wf = true → s.mbc.selectedRamBank.toNat < 4 →
    ∃ t, exec (.mbcWrRam lo d) s = .next t ∧
      t = { s with mbc := { s.mbc with ram := t.mbc.ram }, result := .nothing } ∧
      t.mbc.ram.size = s.mbc.ram.size ∧
      ∀ o : Nat, t.mbc.ram.get o =
        if s.mbc.ramWriteEnabled = true ∧ o = s.mbc.selectedRamBank.toNat * 0x2000 + lo.toNat ∧ o < s.mbc.ram.size then d
        else s.mbc.ram.get o

/-- R181, R182: an RTC register write goes to the live clock while enabled; RTC_DH writes the day counter's bit 8 and halt, and
can only clear the overflow flag; a select that names no register writes nothing. -/
def Obligations.RtcWindowWrites : Prop :=
  ∀ (s : State) (lo : BitVec 13) (d : Byte), 4 ≤ s.mbc.selectedRamBank.toNat →
    ∃ c : Clock, exec (.mbcWrRtc lo d) s = .next { s with mbc := { s.mbc with live := c }, result := .nothing } ∧
      (if s.mbc.ramWriteEnabled = false then c = s.mbc.live
      else if s.mbc.selectedRamBank = 0x08 then c = { s.mbc.live with sec := d }
      else if s.mbc.selectedRamBank = 0x09 then c = { s.mbc.live with min := d }
      else if s.mbc.selectedRamBank = 0x0A then c = { s.mbc.live with hrs := d }
      else if s.mbc.selectedRamBank = 0x0B then
        c = { s.mbc.live with day := c.day } ∧ c.day.toNat = s.mbc.live.day.toNat / 256 * 256 + d.toNat
      else if s.mbc.selectedRamBank = 0x0C then
        c = { s.mbc.live with day := c.day, halt := d.getLsbD 6, ovf := s.mbc.live.ovf && d.getLsbD 7 } ∧
          c.day.toNat = d.toNat % 2 * 256 + s.mbc.live.day.toNat % 256
      else c = s.mbc.live)

/-- R183, R184, R225: MBC_SAVE makes one `saveRamWithClock` call with the whole RAM and the 12 fields of the live clock, whatever the
enable is, and changes no state of MBC. -/
def Obligations.SaveFlushesOnce : Prop :=
  ∀ s : State, ∃ f : Vector ClockField 12,
    exec .mbcSave s = .next { s with trace := s.trace ++ [.saveRamWithClock s.mbc.ram f], result := .nothing } ∧
      f[0].toInt = s.mbc.live.sec.toNat ∧ f[1].toInt = s.mbc.live.min.toNat ∧ f[2].toInt = s.mbc.live.hrs.toNat ∧
      f[3].toInt = (s.mbc.live.day.toNat % 256 : Nat) ∧
      f[4].toInt =
        ((if s.mbc.live.ovf then 128 else 0) + (if s.mbc.live.halt then 64 else 0) + s.mbc.live.day.toNat / 256 : Nat) ∧
      (∀ k : Fin 7, f[5 + k.val] = s.mbc.reserved[k]) ∧
      deserialize f = some (s.mbc.live, s.mbc.reserved)

/-- R185, R262: an access at an address the unit does not accept faults with the unit, the address and the kind; for SND what its map
does not accept, and SND_BAD's addresses under the default map. -/
def Obligations.UnacceptedAddressesFault : Prop :=
  ∀ s : State,
    (∀ (acc : Access) (lo : BitVec 13), ∃ a : Addr, a.toNat = 0x8000 + lo.toNat ∧
      exec (.mbcBad8000 acc lo) s = .fault (.addressing .mbc a (accessKind acc))) ∧
    (∀ (acc : Access) (lo : BitVec 14), ∃ a : Addr, a.toNat = 0xC000 + lo.toNat ∧
      exec (.mbcBadC000 acc lo) s = .fault (.addressing .mbc a (accessKind acc))) ∧
    (∀ (i : Instr) (acc : Access) (a : Addr), sndAccess i = some (acc, a) → ¬ mapAccepts s.params.sndMap a →
      exec i s = .fault (.addressing .snd a (accessKind acc))) ∧
    (∀ (acc : Access) (a : Addr), s.params.sndMap = Config.defaultSndMap →
      ¬ ((0xFF10 ≤ a.toNat ∧ a.toNat ≤ 0xFF26) ∨ (0xFF30 ≤ a.toNat ∧ a.toNat ≤ 0xFF3F)) →
      exec (.sndBad acc a) s = .fault (.addressing .snd a (accessKind acc)))

/-- From R77, R180 and R173: a RAM write that is honoured is seen by the next read of the same address. -/
def Obligations.RamWriteThenReadReturnsTheByte : Prop :=
  ∀ (s : State) (lo : BitVec 13) (d : Byte), s.mbc.ram.wf = true → s.mbc.selectedRamBank.toNat < 4 →
    s.mbc.ramWriteEnabled = true → s.mbc.selectedRamBank.toNat * 0x2000 + lo.toNat < s.mbc.ram.size →
    ∃ t, exec (.mbcWrRam lo d) s = .next t ∧ exec (.mbcRdRam lo) t = .next { t with result := .byte d }

/-- From R379, which the spec marks as derived, and R72: whatever byte is written to ROMB, the switchable window reads the image
at an offset of bank 1 or above, never bank 0. -/
def Obligations.SwitchableWindowNeverShowsBankZero : Prop :=
  ∀ (s : State) (lo : BitVec 13) (d : Byte) (r : BitVec 14), ∃ t b,
    exec (.mbcWrRomb lo d) s = .next t ∧ exec (.mbcRdRomx r) t = .next { t with result := .byte b } ∧
      ∃ o, 0x4000 ≤ o ∧ o < 0x200000 ∧ b = if o < s.mbc.rom.size then s.mbc.rom.get o else 0xFF

/-- From R377, which the spec marks as derived: 0x00 then 0x01 toggles the latch from every state; 0x01 after it does nothing
more. -/
def Obligations.LatchProtocolToggles : Prop :=
  ∀ (s : State) (lo : BitVec 13), ∃ t u v,
    exec (.mbcWrLatch lo 0x00) s = .next t ∧ exec (.mbcWrLatch lo 0x01) t = .next u ∧ exec (.mbcWrLatch lo 0x01) u = .next v ∧
      u.mbc.clockLatched = !s.mbc.clockLatched ∧ v.mbc = u.mbc ∧
      (s.mbc.clockLatched = false → u.mbc.snap = s.mbc.live)

/-! ## RTC -/

/-- R221: by the default law a halted clock does not count; an in-range clock that runs is one second later in a count of 512
days, which sets the overflow flag when it wraps and never clears it; of an out-of-range clock that runs, the counts are free
values (log 20), halt stays, and the overflow flag stays set if it was. -/
def Obligations.StandardAdvanceIsOneSecond : Prop :=
  ∀ s : State, s.params.rtcLaw = .standard →
    ∃ (c : Clock) (n : Nat),
      exec .rtcAdvance s =
        .next { s with mbc := { s.mbc with live := c }, draws := s.draws + n, result := .nothing } ∧
      (s.mbc.live.halt = true → c = s.mbc.live ∧ n = 0) ∧
      (s.mbc.live.halt = false → s.mbc.live.sec.toNat < 60 → s.mbc.live.min.toNat < 60 → s.mbc.live.hrs.toNat < 24 →
        n = 0 ∧ c.sec.toNat < 60 ∧ c.min.toNat < 60 ∧ c.hrs.toNat < 24 ∧ c.halt = false ∧
        ((c.day.toNat * 24 + c.hrs.toNat) * 60 + c.min.toNat) * 60 + c.sec.toNat =
          (((s.mbc.live.day.toNat * 24 + s.mbc.live.hrs.toNat) * 60 + s.mbc.live.min.toNat) * 60 + s.mbc.live.sec.toNat + 1) %
            (512 * 86400) ∧
        c.ovf = (s.mbc.live.ovf || decide (s.mbc.live.day.toNat = 511 ∧ s.mbc.live.hrs.toNat = 23 ∧
          s.mbc.live.min.toNat = 59 ∧ s.mbc.live.sec.toNat = 59))) ∧
      (s.mbc.live.halt = false → 60 ≤ s.mbc.live.sec.toNat ∨ 60 ≤ s.mbc.live.min.toNat ∨ 24 ≤ s.mbc.live.hrs.toNat →
        c.halt = false ∧ (s.mbc.live.ovf = true → c.ovf = true))

/-- From R220, R221, R222 and R224: RTC_ADVANCE completes from every state and under every law, touches only the live clock and
the count of free values (log 20), leaves a clock halted under the default law as it is, and never clears the overflow flag. -/
def Obligations.AdvanceTouchesOnlyTheLiveClock : Prop :=
  ∀ s : State, ∃ t, exec .rtcAdvance s = .next t ∧
    t = { s with mbc := { s.mbc with live := t.mbc.live }, draws := t.draws, result := .nothing } ∧
    (s.mbc.live.ovf = true → t.mbc.live.ovf = true) ∧
    (s.params.rtcLaw = .standard → t.mbc.live.halt = s.mbc.live.halt) ∧
    (s.params.rtcLaw = .standard → s.mbc.live.halt = true → t.mbc.live = s.mbc.live ∧ t.draws = s.draws)

/-- From R227, which the spec marks as derived: every RTC state comes back from its 12 fields. -/
def Obligations.ClockFieldsRoundTrip : Prop :=
  ∀ (c : Clock) (reserved : Vector ClockField 7), deserialize (serialize c reserved) = some (c, reserved)

/-- R226: the fields are read as written, and there is no initial state exactly when one of fields 0 to 4 is outside 0..255. -/
def Obligations.ClockFieldsOutOfRangeAreRefused : Prop :=
  ∀ f : Vector ClockField 12,
    (deserialize f = none ↔ ∃ k : Fin 5, f[k.val].toInt < 0 ∨ 255 < f[k.val].toInt) ∧
    (∀ p : Launch, p.clock = f → deserialize f = none → State.construct p = none) ∧
    ∀ c r, deserialize f = some (c, r) →
      (c.sec.toNat : Int) = f[0].toInt ∧ (c.min.toNat : Int) = f[1].toInt ∧ (c.hrs.toNat : Int) = f[2].toInt ∧
      (c.day.toNat : Int) = f[4].toInt % 2 * 256 + f[3].toInt ∧
      c.halt = f[4].getLsbD 6 ∧ c.ovf = f[4].getLsbD 7 ∧ ∀ k : Fin 7, r[k] = f[5 + k.val]

/-- R222: over all operations, only a write of RTC_DH with bit 7 clear, while writes are enabled, clears the overflow flag. -/
def Obligations.OverflowClearedOnlyByDayHighWrite : Prop :=
  ∀ (i : Instr) (s t : State), exec i s = .next t → s.mbc.live.ovf = true → t.mbc.live.ovf = false →
    ∃ lo d, i = .mbcWrRtc lo d ∧ s.mbc.selectedRamBank = 0x0C ∧ d.getLsbD 7 = false ∧ s.mbc.ramWriteEnabled = true

/-- From R31 and R47: over all operations, only a latch write changes the latch state, and the snapshot changes only when the
latch closes. -/
def Obligations.SnapshotWrittenOnlyWhenLatching : Prop :=
  ∀ (i : Instr) (s t : State), exec i s = .next t →
    (t.mbc.clockLatched ≠ s.mbc.clockLatched →
      ∃ lo d, i = .mbcWrLatch lo d ∧ d = 0x01 ∧ s.mbc.latchRegister = 0x00) ∧
    (t.mbc.snap ≠ s.mbc.snap → s.mbc.clockLatched = false ∧ t.mbc.clockLatched = true ∧ t.mbc.snap = s.mbc.live)

/-! ## SND -/

/-- R251, R252: a disabled tick makes no call and changes nothing; an enabled one ticks the four channels in order, stores their
levels, and plays the routed, unmuted sums times the volumes. -/
def Obligations.SoundTickMixes : Prop :=
  ∀ s : State,
    (s.snd.enabled = false → exec .sndTick s = .next { s with result := .nothing }) ∧
    (s.snd.enabled = true → ∃ t, exec .sndTick s = .next t ∧
      (∀ k : Fin 4, t.snd.out[k] = s.snd.ch[k].tick.1 ∧ t.snd.ch[k] = s.snd.ch[k].tick.2 ∧
        t.snd.ch[k].regs = s.snd.ch[k].regs) ∧
      t = { s with snd := { s.snd with out := t.snd.out, ch := t.snd.ch }, trace := t.trace, result := .nothing } ∧
      ∃ (sumL sumR : Int) (vl vr : Fin 8),
        sumL = (if s.snd.mute[0] && s.snd.nr51.getLsbD 4 then t.snd.out[0] else 0) +
          (if s.snd.mute[1] && s.snd.nr51.getLsbD 5 then t.snd.out[1] else 0) +
          (if s.snd.mute[2] && s.snd.nr51.getLsbD 6 then t.snd.out[2] else 0) +
          (if s.snd.mute[3] && s.snd.nr51.getLsbD 7 then t.snd.out[3] else 0) ∧
        sumR = (if s.snd.mute[0] && s.snd.nr51.getLsbD 0 then t.snd.out[0] else 0) +
          (if s.snd.mute[1] && s.snd.nr51.getLsbD 1 then t.snd.out[1] else 0) +
          (if s.snd.mute[2] && s.snd.nr51.getLsbD 2 then t.snd.out[2] else 0) +
          (if s.snd.mute[3] && s.snd.nr51.getLsbD 3 then t.snd.out[3] else 0) ∧
        vl.val = s.snd.nr50.toNat / 16 % 8 ∧ vr.val = s.snd.nr50.toNat % 8 ∧
        t.trace = s.trace ++ [.channelTick 0, .channelTick 1, .channelTick 2, .channelTick 3,
          .play (s.params.volumeLaw[vl] * s.params.mixScale.apply sumL) (s.params.volumeLaw[vr] * s.params.mixScale.apply sumR)])

/-- From R252: with the default laws the sample is VL * sumL and VR * sumR, and a channel whose mute slot is false contributes
nothing: two states that differ only in the levels of muted channels mix to the same pair. -/
def Obligations.MutedChannelsAreSilent : Prop :=
  ∀ (p : Params) (d e : Snd), d.nr50 = e.nr50 → d.nr51 = e.nr51 → d.mute = e.mute →
    (∀ k : Fin 4, d.mute[k] = true → d.out[k] = e.out[k]) →
    mixLeft p d = mixLeft p e ∧ mixRight p d = mixRight p e ∧
      (p.volumeLaw = Config.defaultVolumeLaw → p.mixScale = .identity →
        mixLeft p d = (d.nr50.toNat / 16 % 8 : Nat) * sumLeft d ∧ mixRight p d = (d.nr50.toNat % 8 : Nat) * sumRight d)

/-- R253: a read of NR52 gives the master enable in bit 7 and what CH[k] reports in bit k-1, each bit under the read mask: SND_RD_NR52
where the map has NR52 at the row's address, and under any map an SND read of the address it gives NR52. -/
def Obligations.MasterRegisterReads : Prop :=
  ∀ (s : State) (i : Instr), (i = .sndRdNr52 ∧ s.params.sndMap.nr52 = 0xFF26) ∨ sndAccess i = some (.read, s.params.sndMap.nr52) →
    ∃ b : Byte, exec i s = .next { s with result := .byte b } ∧
      ∀ j : Fin 8, b.getLsbD j.val =
        ((s.params.readMask.get s.params.sndMap.nr52.toNat).getLsbD j.val ||
          (decide (j.val = 7) && s.snd.enabled) ||
          (if h : j.val < 4 then s.snd.ch[j.val].isEnabled else false))

/-- R254, R39: a read of an address a channel owns returns the owner's raw byte under the read mask, whatever the enable is: the three
rows by their addresses under the default map, and under any formed map (log 3) every SND read of such an address. -/
def Obligations.ChannelRegisterReads : Prop :=
  ∀ s : State,
    (∀ (i : Instr) (a : Addr) (k : Fin 4), sndMapFormed s.params.sndMap = true → sndAccess i = some (.read, a) →
      mapOwns s.params.sndMap k a →
      exec i s = .next { s with result := .byte (s.snd.ch[k].regs.get a.toNat ||| s.params.readMask.get a.toNat) }) ∧
    (s.params.sndMap = Config.defaultSndMap →
      (∀ lo : BitVec 4, ∃ k : Fin 4, k.val = lo.toNat / 5 ∧
        exec (.sndRdChA lo) s = .next { s with
          result := .byte (s.snd.ch[k].regs.get (0xFF10 + lo.toNat) ||| s.params.readMask.get (0xFF10 + lo.toNat)) }) ∧
      (∀ lo : BitVec 2, exec (.sndRdChB lo) s = .next { s with
          result := .byte (s.snd.ch[3].regs.get (0xFF20 + lo.toNat) ||| s.params.readMask.get (0xFF20 + lo.toNat)) }) ∧
      (∀ lo : BitVec 4, exec (.sndRdWave lo) s = .next { s with
          result := .byte (s.snd.ch[2].regs.get (0xFF30 + lo.toNat) ||| s.params.readMask.get (0xFF30 + lo.toNat)) }))

/-- R255, R261: NR50 and NR51 are read under their masks and written whole: the two rows under the default map, and under any formed
map (log 3) every SND access of the addresses it gives them. -/
def Obligations.ControlRegisterAccesses : Prop :=
  ∀ (s : State) (d : Byte),
    (∀ i : Instr, sndMapFormed s.params.sndMap = true →
      (sndAccess i = some (.read, s.params.sndMap.nr50) →
        exec i s = .next { s with result := .byte (s.snd.nr50 ||| s.params.readMask.get s.params.sndMap.nr50.toNat) }) ∧
      (sndAccess i = some (.read, s.params.sndMap.nr51) →
        exec i s = .next { s with result := .byte (s.snd.nr51 ||| s.params.readMask.get s.params.sndMap.nr51.toNat) }) ∧
      (sndAccess i = some (.write d, s.params.sndMap.nr50) →
        exec i s = .next { s with snd := { s.snd with nr50 := d }, result := .nothing }) ∧
      (sndAccess i = some (.write d, s.params.sndMap.nr51) →
        exec i s = .next { s with snd := { s.snd with nr51 := d }, result := .nothing })) ∧
    (s.params.sndMap = Config.defaultSndMap →
      exec (.sndRdCtl 0) s = .next { s with result := .byte (s.snd.nr50 ||| s.params.readMask.get 0xFF24) } ∧
      exec (.sndRdCtl 1) s = .next { s with result := .byte (s.snd.nr51 ||| s.params.readMask.get 0xFF25) } ∧
      exec (.sndWrCtl 0 d) s = .next { s with snd := { s.snd with nr50 := d }, result := .nothing } ∧
      exec (.sndWrCtl 1 d) s = .next { s with snd := { s.snd with nr51 := d }, result := .nothing })

/-- From R259 and R264 (c), and for the other channels log 25 (DEDUCED: a write to one channel changes no other): a write of an address
a channel owns stores the byte at its address in the owner, changes no other raw byte and no other channel, and nothing else but
the record of the call: the three rows under the default map, and under any formed map (log 3) every SND write of such an address. -/
def Obligations.ChannelRegisterWrites : Prop :=
  ∀ (s : State) (d : Byte), s.snd.Inv →
    ∀ (i : Instr) (k : Fin 4) (a : Addr),
      ((sndMapFormed s.params.sndMap = true ∧ sndAccess i = some (.write d, a) ∧ mapOwns s.params.sndMap k a) ∨
        (s.params.sndMap = Config.defaultSndMap ∧
          ((∃ lo : BitVec 4, i = .sndWrChA lo d ∧ a.toNat = 0xFF10 + lo.toNat ∧ k.val = lo.toNat / 5) ∨
            (∃ lo : BitVec 2, i = .sndWrChB lo d ∧ a.toNat = 0xFF20 + lo.toNat ∧ k = 3) ∨
            (∃ lo : BitVec 4, i = .sndWrWave lo d ∧ a.toNat = 0xFF30 + lo.toNat ∧ k = 2)))) →
      ∃ t, exec i s = .next t ∧
        (∀ o, t.snd.ch[k].regs.get o = if o = a.toNat then d else s.snd.ch[k].regs.get o) ∧
        (∀ j : Fin 4, j ≠ k → t.snd.ch[j] = s.snd.ch[j]) ∧
        t = { s with snd := { s.snd with ch := t.snd.ch }, trace := s.trace ++ [.channelWrite k a d], result := .nothing }

/-- From R256: an NR52 write whose bit 7 is already the enable's value does nothing. -/
def Obligations.MasterWriteWithoutChangeDoesNothing : Prop :=
  ∀ (s : State) (d : Byte) (i : Instr), writesMaster i d s.params.sndMap → d.getLsbD 7 = s.snd.enabled →
    exec i s = .next { s with result := .nothing }

/-- R257: clearing bit 7 of NR52 while enabled disables, stops CH[1] .. CH[4] and then the sink, and clears no register. -/
def Obligations.PowerOffStopsAndKeepsRegisters : Prop :=
  ∀ (s : State) (d : Byte) (i : Instr), writesMaster i d s.params.sndMap → d.getLsbD 7 = false → s.snd.enabled = true →
    ∃ t, exec i s = .next t ∧
      (∀ k : Fin 4, t.snd.ch[k] = s.snd.ch[k].stop ∧ t.snd.ch[k].regs = s.snd.ch[k].regs) ∧
      t = { s with
        snd := { s.snd with enabled := false, ch := t.snd.ch }
        trace := s.trace ++ [.channelStop 0, .channelStop 1, .channelStop 2, .channelStop 3, .sinkStop]
        result := .nothing }

/-- From R258 and R113, under a formed map (log 3): setting bit 7 of NR52 while disabled enables; NR50, NR51 and every channel register
of NR10 .. NR51 become 0x00 but the length registers, which keep the bits of their masks; every other raw byte stays (the wave bytes,
under the default map); the writes come in ascending address order, each with its register's new byte, and after them the channels and
then the sink are started. That the maps are formed ones (NR10 <= NR50 < NR51, no address with two roles) and that an address between
NR10 and NR51 no channel owns is skipped is the model's choice (log 3); the default map has no such address. -/
def Obligations.PowerOnClearsAllButLengths : Prop :=
  ∀ (s : State) (d : Byte) (i : Instr) (m : SndMap), m = s.params.sndMap → sndMapFormed m = true → s.snd.Inv →
    writesMaster i d m → d.getLsbD 7 = true → s.snd.enabled = false →
    ∃ t, exec i s = .next t ∧
      t.snd.enabled = true ∧ t.snd.nr50 = 0x00 ∧ t.snd.nr51 = 0x00 ∧ t.snd.out = s.snd.out ∧ t.snd.mute = s.snd.mute ∧
      (∀ (a : Addr) (k : Fin 4), mapOwns m k a →
        (a.toNat < m.nr10.toNat ∨ m.nr51.toNat < a.toNat → t.snd.ch[k].regs.get a.toNat = s.snd.ch[k].regs.get a.toNat) ∧
        (m.nr10.toNat ≤ a.toNat → a.toNat ≤ m.nr51.toNat →
          (∀ mask, (a, mask) ∈ m.lengths → t.snd.ch[k].regs.get a.toNat = s.snd.ch[k].regs.get a.toNat &&& mask) ∧
          ((∀ mask, (a, mask) ∉ m.lengths) → t.snd.ch[k].regs.get a.toNat = 0x00)) ∧
        (m = Config.defaultSndMap → t.snd.ch[k].regs.get a.toNat =
          if a = 0xFF11 ∨ a = 0xFF16 ∨ a = 0xFF20 then s.snd.ch[k].regs.get a.toNat &&& 0x3F
          else if a = 0xFF1B ∨ 0xFF30 ≤ a.toNat then s.snd.ch[k].regs.get a.toNat
          else 0x00)) ∧
      (∃ writes : List (Fin 4 × Addr × Byte),
        (writes.map fun w => w.2.1.toNat).Pairwise (· < ·) ∧
        (∀ a : Addr, a ∈ writes.map (fun w => w.2.1) ↔ m.nr10.toNat ≤ a.toNat ∧ a.toNat ≤ m.nr51.toNat ∧ ∃ k, mapOwns m k a) ∧
        (m = Config.defaultSndMap → writes.map (fun w => w.2.1.toNat) = List.range' 0xFF10 20) ∧
        (∀ w ∈ writes, mapOwns m w.1 w.2.1 ∧ w.2.2 = t.snd.ch[w.1].regs.get w.2.1.toNat) ∧
        t.trace = s.trace ++ writes.map (fun w => .channelWrite w.1 w.2.1 w.2.2) ++
          [.channelStart 0, .channelStart 1, .channelStart 2, .channelStart 3, .sinkStart]) ∧
      t = { s with snd := t.snd, trace := t.trace, result := .nothing }

/-- From R263, which the spec marks as derived: under a formed map (the model's choice, log 3) a power cycle keeps the bits of the length
registers' masks (6 bits or all 8) and clears every other register of NR10 .. NR51. -/
def Obligations.LengthsSurviveAPowerCycle : Prop :=
  ∀ (s : State) (d e : Byte) (i j : Instr) (m : SndMap), m = s.params.sndMap → sndMapFormed m = true → s.snd.Inv →
    writesMaster i d m → writesMaster j e m → s.snd.enabled = true → d.getLsbD 7 = false → e.getLsbD 7 = true →
    ∃ t u, exec i s = .next t ∧ exec j t = .next u ∧
      u.snd.nr50 = 0x00 ∧ u.snd.nr51 = 0x00 ∧
      ∀ (a : Addr) (k : Fin 4), mapOwns m k a → m.nr10.toNat ≤ a.toNat → a.toNat ≤ m.nr51.toNat →
        (∀ mask, (a, mask) ∈ m.lengths → u.snd.ch[k].regs.get a.toNat = s.snd.ch[k].regs.get a.toNat &&& mask) ∧
        ((∀ mask, (a, mask) ∉ m.lengths) → u.snd.ch[k].regs.get a.toNat = 0x00) ∧
        (m = Config.defaultSndMap → u.snd.ch[k].regs.get a.toNat =
          if a = 0xFF11 ∨ a = 0xFF16 ∨ a = 0xFF20 then s.snd.ch[k].regs.get a.toNat &&& 0x3F
          else if a = 0xFF1B then s.snd.ch[k].regs.get a.toNat
          else 0x00)

/-- R260: SND_TOGGLE flips one mute slot and nothing else; an index outside 0..3 faults with the index. -/
def Obligations.ToggleFlipsOneMuteSlot : Prop :=
  ∀ (s : State) (i : Int),
    (∀ k : Fin 4, i = (k.val : Int) → ∃ t, exec (.sndToggle i) s = .next t ∧
      (∀ j : Fin 4, t.snd.mute[j] = if j = k then !s.snd.mute[j] else s.snd.mute[j]) ∧
      t = { s with snd := { s.snd with mute := t.snd.mute }, result := .nothing }) ∧
    (i < 0 ∨ 3 < i → exec (.sndToggle i) s = .fault (.argument (.sndToggle i)))

/-! ## RB -/

/-- R300: RB_WRITE stores the first `n = min(count, C - cnt)` bytes from the write cursor on, wrapping at C, changes no other
byte, and returns `n`; a count above the data's length faults. -/
def Obligations.RingWriteStoresWhatFits : Prop :=
  ∀ (s : State) (data : List Byte) (count : Nat), s.rb.Inv →
    (data.length < count → exec (.rbWrite data count) s = .fault (.argument (.rbWrite count))) ∧
    (count ≤ data.length → ∃ t n, n = min count (s.rb.capacity - s.rb.cnt) ∧ exec (.rbWrite data count) s = .next t ∧
      t.rb.capacity = s.rb.capacity ∧ t.rb.rc = s.rb.rc ∧ t.rb.cnt = s.rb.cnt + n ∧
      t.rb.wc = (s.rb.wc + n) % s.rb.capacity ∧
      (∀ k, k < n → some (t.rb.buf.get ((s.rb.wc + k) % s.rb.capacity)) = data[k]?) ∧
      (∀ o, (∀ k, k < n → o ≠ (s.rb.wc + k) % s.rb.capacity) → t.rb.buf.get o = s.rb.buf.get o) ∧
      t = { s with rb := t.rb, result := .count n })

/-- R301: RB_READ returns the oldest `n = min(count, cnt)` bytes in order and moves the read cursor past them; the storage
stays. -/
def Obligations.RingReadReturnsTheOldest : Prop :=
  ∀ (s : State) (count : Nat), ∃ out n, n = min count s.rb.cnt ∧
    exec (.rbRead count) s =
      .next { s with
        rb := { s.rb with rc := (s.rb.rc + n) % s.rb.capacity, cnt := s.rb.cnt - n }
        result := .bytes out n } ∧
    out.length = n ∧ ∀ k, k < n → out[k]? = some (s.rb.buf.get ((s.rb.rc + k) % s.rb.capacity))

/-- R302: RB_COUNT returns the stored count and changes nothing. -/
def Obligations.RingCountReturnsTheStoredCount : Prop :=
  ∀ s : State, exec .rbCount s = .next { s with result := .count s.rb.cnt }

/-- From R305, which the spec marks as derived: over any sequence of operations, what was in RB and what was stored in it is, in
order, what was returned from it and what is left in it; so from an empty buffer the bytes returned are the first of the bytes
stored. -/
def Obligations.RingConservesBytes : Prop :=
  ∀ (is : List Instr) (s u : State) (stored returned : List Byte), s.rb.Inv → ringRun is s = some (u, stored, returned) →
    s.rb.contents ++ stored = returned ++ u.rb.contents ∧ (s.rb.cnt = 0 → returned <+: stored)

/-! ## The whole machine -/

/-- R10, R103, over the model's own ports (log 1): when it is an agent's turn and its oldest request decodes to an operation R1
gives it, the step is that operation's `exec`, with the request and the turn gone from the ports and the agent named as the
issuer. -/
def Obligations.StepRunsTheDecodedOperation : Prop :=
  ∀ (s : State) (a : Agent) (ts : List Turn) (w : Wire) (ws : List Wire) (i : Instr),
    s.ports.turns = .agent a :: ts → s.ports.queue a = w :: ws → decode w = .ok i → mayIssue a (selectRow s i) = true →
    step s = exec (selectRow s i) (s.setPorts { s.ports.setQueue a ws with turns := ts, issuer := some a })

/-- R25, R339, over the model's own ports (log 1): with no turn nothing moves; a turn with nothing pending passes; a turn of the host
applies its oldest input, which sets one byte of the host address space and no other, or LY, or OBJ16. -/
def Obligations.TurnsWithoutAnOperation : Prop :=
  ∀ (s : State) (ts : List Turn),
    (s.ports.turns = [] → step s = .next s) ∧
    (∀ a, s.ports.turns = .agent a :: ts → s.ports.queue a = [] →
      step s = .next { s with ports := { s.ports with turns := ts } }) ∧
    (s.ports.turns = .host :: ts → s.ports.host = [] → step s = .next { s with ports := { s.ports with turns := ts } }) ∧
    (∀ h hs, s.ports.turns = .host :: ts → s.ports.host = h :: hs →
      ∃ e : Env, step s = .next { s with env := e, ports := { s.ports with turns := ts, host := hs } } ∧
        (∀ a v, h = .setByte a v → e = { s.env with mem := e.mem } ∧ e.mem.size = s.env.mem.size ∧
          (s.envInv → ∀ o, e.mem.get o = if o = a.toNat then v else s.env.mem.get o)) ∧
        (∀ v, h = .setLy v → e = { s.env with ly := v }) ∧
        (∀ b, h = .setObj16 b → e = { s.env with obj16 := b }))

/-- R116: a code R102 does not list is refused; and, by the model's choice (log 19), so is an operation R1 does not give the
agent whose turn it is. -/
def Obligations.UnlistedCodesAndForeignOperationsAreRefused : Prop :=
  ∀ (s : State) (a : Agent) (ts : List Turn) (w : Wire) (ws : List Wire),
    s.ports.turns = .agent a :: ts → s.ports.queue a = w :: ws →
    (∀ u ops, w = .ctrl u ops →
      u ∉ ([0x10, 0x11, 0x12, 0x20, 0x21, 0x22, 0x30, 0x31, 0x32, 0x41, 0x42, 0x43] : List Code) →
      step s = .refused (.rejected (.unknownCode u))) ∧
    (∀ i, decode w = .ok i → mayIssue a (selectRow s i) = false →
      step s = .refused (.notThisAgents a (selectRow s i)))

/-- R102, R101: each code of R102's table with its operands is its operation, and words written out from the encodings of
95_test_vectors.md decode to the operations they stand for. -/
def Obligations.SpecWordsDecode : Prop :=
  decode (.ctrl 0x10 .nothing) = .ok .scanStart ∧ decode (.ctrl 0x11 .nothing) = .ok .scanTickY ∧
  decode (.ctrl 0x12 .nothing) = .ok .scanGetSprites ∧ (∀ a, decode (.ctrl 0x20 (.address a)) = .ok (.mbcAccepts a)) ∧
  decode (.ctrl 0x21 .nothing) = .ok .mbcSave ∧ decode (.ctrl 0x22 .nothing) = .ok .rtcAdvance ∧
  (∀ a, decode (.ctrl 0x30 (.address a)) = .ok (.sndAccepts a)) ∧ decode (.ctrl 0x31 .nothing) = .ok .sndTick ∧
  (∀ i, decode (.ctrl 0x32 (.channel i)) = .ok (.sndToggle i)) ∧
  (∀ data count, decode (.ctrl 0x41 (.bytes data count)) = .ok (.rbWrite data count)) ∧
  (∀ count, decode (.ctrl 0x42 (.amount count)) = .ok (.rbRead count)) ∧ decode (.ctrl 0x43 .nothing) = .ok .rbCount ∧
  decode (.ctrl 0x13 .nothing) = .error (.unknownCode 0x13) ∧
  decode (.bus .mbc 0x00000 none) = .ok (.mbcRdRom0 0x0000) ∧ decode (.bus .mbc 0x07FFF none) = .ok (.mbcRdRomx 0x3FFF) ∧
  decode (.bus .mbc 0x11FFF (some 0x0A)) = .ok (.mbcWrRamen 0x1FFF 0x0A) ∧
  decode (.bus .mbc 0x19FFF (some 0x00)) = .ok (.mbcBad8000 (.write 0x00) 0x1FFF) ∧
  decode (.bus .snd 0x0FF1F none) = .ok (.sndRdChA 0xF) ∧ decode (.bus .snd 0x1FF25 (some 0x00)) = .ok (.sndWrCtl 1 0x00) ∧
  decode (.bus .snd 0x0FF27 none) = .ok (.sndBad .read 0xFF27)

/-- From R103 and R101: the row of every bus access, by the unit it is sent to, its kind, its address and, in the RAM window, the RAM
bank select; the row's operand is the address's low bits. SND's rows are those of the opcode table, which the spec writes for the
default map: that an access decodes to them whatever map the state holds is the model's choice (log 3). -/
def Obligations.BusAccessesSelectTheirRows : Prop :=
  ∀ (a : Addr) (d : Byte) (s : State) (rd wr : BusUnit → Except Reject Instr),
    rd = (fun u => (decode (.bus u (0#1 ++ a) none)).map (selectRow s)) →
    wr = (fun u => (decode (.bus u (1#1 ++ a) (some d))).map (selectRow s)) →
    (a.toNat < 0x4000 → rd .mbc = .ok (.mbcRdRom0 (a.setWidth 14))) ∧
    (0x4000 ≤ a.toNat → a.toNat < 0x8000 → rd .mbc = .ok (.mbcRdRomx (a.setWidth 14))) ∧
    (a.toNat < 0x2000 → wr .mbc = .ok (.mbcWrRamen (a.setWidth 13) d)) ∧
    (0x2000 ≤ a.toNat → a.toNat < 0x4000 → wr .mbc = .ok (.mbcWrRomb (a.setWidth 13) d)) ∧
    (0x4000 ≤ a.toNat → a.toNat < 0x6000 → wr .mbc = .ok (.mbcWrRamb (a.setWidth 13) d)) ∧
    (0x6000 ≤ a.toNat → a.toNat < 0x8000 → wr .mbc = .ok (.mbcWrLatch (a.setWidth 13) d)) ∧
    (0xA000 ≤ a.toNat → a.toNat < 0xC000 → s.mbc.selectedRamBank.toNat < 4 →
      rd .mbc = .ok (.mbcRdRam (a.setWidth 13)) ∧ wr .mbc = .ok (.mbcWrRam (a.setWidth 13) d)) ∧
    (0xA000 ≤ a.toNat → a.toNat < 0xC000 → 4 ≤ s.mbc.selectedRamBank.toNat →
      rd .mbc = .ok (.mbcRdRtc (a.setWidth 13)) ∧ wr .mbc = .ok (.mbcWrRtc (a.setWidth 13) d)) ∧
    (0x8000 ≤ a.toNat → a.toNat < 0xA000 →
      rd .mbc = .ok (.mbcBad8000 .read (a.setWidth 13)) ∧ wr .mbc = .ok (.mbcBad8000 (.write d) (a.setWidth 13))) ∧
    (0xC000 ≤ a.toNat →
      rd .mbc = .ok (.mbcBadC000 .read (a.setWidth 14)) ∧ wr .mbc = .ok (.mbcBadC000 (.write d) (a.setWidth 14))) ∧
    (a.toNat = 0xFF26 → rd .snd = .ok .sndRdNr52 ∧ wr .snd = .ok (.sndWrNr52 d)) ∧
    (0xFF10 ≤ a.toNat → a.toNat ≤ 0xFF1F →
      rd .snd = .ok (.sndRdChA (a.setWidth 4)) ∧ wr .snd = .ok (.sndWrChA (a.setWidth 4) d)) ∧
    (0xFF20 ≤ a.toNat → a.toNat ≤ 0xFF23 →
      rd .snd = .ok (.sndRdChB (a.setWidth 2)) ∧ wr .snd = .ok (.sndWrChB (a.setWidth 2) d)) ∧
    (0xFF30 ≤ a.toNat → a.toNat ≤ 0xFF3F →
      rd .snd = .ok (.sndRdWave (a.setWidth 4)) ∧ wr .snd = .ok (.sndWrWave (a.setWidth 4) d)) ∧
    (0xFF24 ≤ a.toNat → a.toNat ≤ 0xFF25 →
      rd .snd = .ok (.sndRdCtl (a.setWidth 1)) ∧ wr .snd = .ok (.sndWrCtl (a.setWidth 1) d)) ∧
    (a.toNat < 0xFF10 ∨ (0xFF26 < a.toNat ∧ a.toNat < 0xFF30) ∨ 0xFF3F < a.toNat →
      rd .snd = .ok (.sndBad .read a) ∧ wr .snd = .ok (.sndBad (.write d) a))

/-- From R101 to R103: for every well-formed operation, decoding its transaction gives it back: the decoder the first row of its
encoding, and the state, where the row's condition holds, the row itself. -/
def Obligations.DecodeOfEncodeIsTheOperation : Prop :=
  ∀ i : Instr, i.wellFormed = true → decode (encode i) = .ok i.stateless ∧
    ∀ s : State, rowCondition i s = true → selectRow s i.stateless = i

/-- From R100 to R103: a transaction that decodes is the encoding of what it decodes to, which is well-formed: no bit of it is
dropped. -/
def Obligations.EncodeOfDecodeIsTheTransaction : Prop :=
  ∀ (w : Wire) (i : Instr), decode w = .ok i → encode i = w ∧ i.wellFormed = true

/-- From R103: every selector matches exactly one row of MBC's, and of SND's exactly one or, where SND does not accept the
address, none. -/
def Obligations.ExactlyOneRowMatches : Prop :=
  ∀ s : Selector, (mbcRows.filter fun r => r.holds s).length = 1 ∧
    (sndRows.filter fun r => r.holds s).length =
      if (0xFF10 ≤ (selAddr s).toNat ∧ (selAddr s).toNat ≤ 0xFF26) ∨ (0xFF30 ≤ (selAddr s).toNat ∧ (selAddr s).toNat ≤ 0xFF3F)
      then 1 else 0

/-- From R103 and R141: the row a decoded transaction is in a state has a true condition there; an operation whose row's condition holds
is never refused, so no step is refused for its row (log 13). -/
def Obligations.SelectedRowsHaveTrueConditions : Prop :=
  (∀ (w : Wire) (i : Instr) (s : State), decode w = .ok i → rowCondition (selectRow s i) s = true) ∧
    (∀ (i : Instr) (s : State), rowCondition i s = true → ∀ r, exec i s ≠ .refused r) ∧
    ∀ (s : State) (m : String), step s ≠ .refused (.rowNotSelected m)

/-- R330: the complete list of faults: an operation raises one exactly in these cases, with this record. -/
def Obligations.FaultsAreExactlyTheListed : Prop :=
  ∀ (i : Instr) (s : State) (f : Fault), exec i s = .fault f ↔
    (i = .scanTickOverrun ∧ s.scan.i.val = 40 ∧ f = .scanOverrun 40) ∨
    (∃ acc lo, i = .mbcBad8000 acc lo ∧ f = .addressing .mbc (bad8000Addr lo) (accessKind acc)) ∨
    (∃ acc lo, i = .mbcBadC000 acc lo ∧ f = .addressing .mbc (badC000Addr lo) (accessKind acc)) ∨
    (∃ acc a, sndAccess i = some (acc, a) ∧ ¬ mapAccepts s.params.sndMap a ∧ f = .addressing .snd a (accessKind acc)) ∨
    (∃ data count, i = .rbWrite data count ∧ data.length < count ∧ f = .argument (.rbWrite count)) ∨
    (∃ k, i = .sndToggle k ∧ (k < 0 ∨ 3 < k) ∧ f = .argument (.sndToggle k))

/-- From R76, which the spec marks as derived, R146, R170, R250 and R302: the operations that only read change no state but the
result they return. -/
def Obligations.ReadsChangeNothing : Prop :=
  ∀ (i : Instr) (s t : State), readsOnly i = true → exec i s = .next t → t = { s with result := t.result }

/-- R49: an operation of one unit writes no field of another, and reads none: between two states that are the same to its unit it ends
alike, with the same result, the same calls and the unit's fields the same. -/
def Obligations.UnitsShareNoState : Prop :=
  (∀ (i : Instr) (s t : State), exec i s = .next t →
    (unitOf i ≠ .scan → t.scan = s.scan) ∧ (unitOf i ≠ .mbc → t.mbc = s.mbc) ∧
    (unitOf i ≠ .snd → t.snd = s.snd) ∧ (unitOf i ≠ .rb → t.rb = s.rb)) ∧
  ∀ (i : Instr) (s s' : State), sameView (unitOf i) s s' →
    (∀ t, exec i s = .next t → ∃ t', exec i s' = .next t' ∧ sameView (unitOf i) t t' ∧ t'.result = t.result ∧
      ∃ calls, t.trace = s.trace ++ calls ∧ t'.trace = s'.trace ++ calls) ∧
    (∀ f, exec i s = .fault f → exec i s' = .fault f) ∧
    (∀ r, exec i s = .refused r → exec i s' = .refused r)

/-- From R49 and R78: an RB operation and an operation of another unit can be taken in either order: both orders complete, leave
the same state but for which result came last, and return the same results. -/
def Obligations.RingOperationsCommuteWithOtherUnits : Prop :=
  ∀ (i j : Instr) (s t u : State), unitOf i ≠ .rb → unitOf j = .rb → exec i s = .next t → exec j s = .next u →
    ∃ v w, exec j t = .next v ∧ exec i u = .next w ∧ v.result = u.result ∧ w.result = t.result ∧ v = { w with result := v.result }

/-- R189 and R32, and the model's choice to hold the parameters in the state (log 2): no step of any agent changes the ROM
image, the reserved clock fields, a parameter, a capacity or a channel's model. -/
def Obligations.NoStepChangesTheCartridgeOrTheParameters : Prop :=
  ∀ s t : State, step s = .next t → s.sameMachine t

/-- From R34, R26, R41, R44, R46 and R371: what construction leaves, for every launch it accepts: the values the rules give, and the
launch's own ring storage, parameters, inputs of SCAN and channel models. The model's choices in it: the parameters and SCAN's inputs
stand in the state (log 2, 12), every channel starts from the launch's one file of wave bytes and its own internal state (log 11), and
the registers are 0x00 over NR10 .. NR51 of whatever map (log 26), where R41 says 0xFF10-0xFF23. -/
def Obligations.ConstructionValues : Prop :=
  ∀ (p : Launch) (s : State), State.construct p = some s →
    s.scan.state = .readingY ∧ s.scan.i = 0 ∧ s.scan.n = 0 ∧ (∀ k : Fin 10, s.scan.sprites[k] = none) ∧ s.scan.curY = 0 ∧
    s.mbc.selectedRomBank = 1 ∧ s.mbc.selectedRamBank = 0 ∧ s.mbc.ramWriteEnabled = false ∧ s.mbc.latchRegister = 0x00 ∧
    s.mbc.clockLatched = false ∧ s.mbc.ram = p.ram ∧ s.mbc.rom = p.rom ∧ s.mbc.snap = s.mbc.live ∧
    deserialize p.clock = some (s.mbc.live, s.mbc.reserved) ∧
    s.snd.enabled = false ∧ (∀ k : Fin 4, s.snd.out[k] = 0 ∧ s.snd.mute[k] = true) ∧ s.snd.nr50 = 0x00 ∧ s.snd.nr51 = 0x00 ∧
    (∀ (k : Fin 4) (o : Nat), p.params.sndMap.nr10.toNat ≤ o → o ≤ p.params.sndMap.nr51.toNat → s.snd.ch[k].regs.get o = 0x00) ∧
    (p.params.sndMap = Config.defaultSndMap →
      ∀ (k : Fin 4) (o : Nat), 0xFF10 ≤ o → o ≤ 0xFF23 → s.snd.ch[k].regs.get o = 0x00) ∧
    (∀ k : Fin 4, s.snd.ch[k].model = p.models[k] ∧ s.snd.ch[k].inner = p.inner[k] ∧ s.snd.ch[k].regs = p.wave) ∧
    s.rb.buf = p.ring ∧ s.rb.capacity = p.ring.size ∧ 1 ≤ s.rb.capacity ∧ s.rb.wc = 0 ∧ s.rb.rc = 0 ∧ s.rb.cnt = 0 ∧
    s.params = p.params ∧ s.env = p.env ∧ s.trace = [.loadRamWithClock p.ram p.clock]

/-- From R335 and R226: construction is refused for an empty ring and for clock fields out of range, and, of a launch that is formed
(canonical stores, R41's registers at 0x00, a sound map without contradiction: the model's own conditions, log 3, 26), for nothing
else; the state after reset is the construction of the launch the log names (3 to 12). -/
def Obligations.ConstructionRefusals : Prop :=
  State.construct Launch.standard = some State.reset ∧
  ∀ p : Launch, p.formed = true →
    (State.construct p = none ↔ p.ring.size = 0 ∨ ∃ k : Fin 5, p.clock[k.val].toInt < 0 ∨ 255 < p.clock[k.val].toInt)

/-- From R24, R28 and R45, which the spec marks as derived, and the stores' canonical form (log 12): the invariant holds after
construction, whatever the launch, and so after reset. -/
def Obligations.ConstructionMeetsTheInvariant : Prop :=
  State.reset.Inv ∧ ∀ (p : Launch) (s : State), State.construct p = some s → s.Inv

/-- From R24, R28 and R45, which the spec marks as derived, and the stores' canonical form (log 12): every step keeps SCAN's
list in order and in step with its count, the ROM bank above 0, RB's cursors and count consistent, and every store in canonical
form. -/
def Obligations.EveryStepKeepsTheInvariant : Prop :=
  ∀ s t : State, s.Inv → step s = .next t → t.Inv

/-- The model's own form of a store (log 12): two stores in canonical form of one size that read the same at every address are
the same data. -/
def Obligations.StoresAreCanonical : Prop :=
  ∀ m n : Memory, m.wf = true → n.wf = true → m.size = n.size → (∀ a, m.get a = n.get a) → m = n
end

