-- ==== Sys2Proof/Laws/Flags.lean ====
section
/-! SUPPORT. The flag computations and packed fields as numbers and bits. -/

namespace Sys2Proof.Machine

/-- The RAMEN test is bit 1 or bit 3 of the data (R104). -/
theorem ramEnable_eq (d : Byte) : ramEnable d = (d.getLsbD 1 || d.getLsbD 3) := by revert d; decide

/-- The bank of a ROMB write as a number (R105). -/
theorem romBank_toNat (d : Byte) : (romBank d).toNat = if d.toNat % 128 = 0 then 1 else d.toNat % 128 := by
  revert d; decide

/-- ROMB never stores bank 0 (R28). -/
theorem romBank_ne_zero (d : Byte) : romBank d ≠ 0 := by revert d; decide

/-- The latch test as numbers (R107). -/
theorem latchToggles_iff (shadow d : Byte) : latchToggles shadow d = true ↔ d = 0x01 ∧ shadow = 0x00 := by
  simp [latchToggles]

/-- Visibility as two comparisons (R144). -/
theorem visible_iff (y ly h : Int) : visible y ly h = true ↔ y ≤ ly + 16 ∧ ly + 16 < y + h := by
  rw [visible, Bool.and_eq_true, decide_eq_true_eq, decide_eq_true_eq]

/-- Bit 8 of the day counter as a number (R108). -/
theorem day_bit8 (d : Day) : boolByte (d.getLsbD 8) = BitVec.ofNat 8 (d.toNat / 256) := by
  revert d; decide

/-- RTC_DH as a number (R108). -/
theorem Clock.dayHigh_toNat (c : Clock) :
    c.dayHigh.toNat = (if c.ovf then 128 else 0) + (if c.halt then 64 else 0) + c.day.toNat / 256 := by
  have h : c.day.toNat / 256 = 0 ∨ c.day.toNat / 256 = 1 := by have := c.day.isLt; omega
  rw [Clock.dayHigh, day_bit8]
  cases c.ovf <;> cases c.halt <;> rcases h with h | h <;> simp [h, boolByte]

/-- RTC_DL as a number (R108). -/
theorem Clock.dayLow_toNat (c : Clock) : c.dayLow.toNat = c.day.toNat % 256 := by simp [Clock.dayLow]

/-- The volume fields of NR50 as numbers (R109). -/
theorem leftVolume_toNat (v : Byte) : (leftVolume v).toNat = v.toNat / 16 % 8 := by
  simp [leftVolume, Nat.shiftRight_eq_div_pow]

theorem rightVolume_toNat (v : Byte) : (rightVolume v).toNat = v.toNat % 8 := by simp [rightVolume]

/-- A byte in a clock field is a number 0..255 (R225). -/
theorem byteField_toInt (v : Byte) : (byteField v).toInt = v.toNat := by
  have := v.isLt
  rw [byteField, BitVec.toInt_eq_toNat_of_lt] <;> simp <;> omega

/-- The 12 clock fields one by one (R225). -/
theorem serialize_fields (c : Clock) (r : Vector ClockField 7) :
    (serialize c r)[0] = byteField c.sec ∧ (serialize c r)[1] = byteField c.min ∧ (serialize c r)[2] = byteField c.hrs ∧
      (serialize c r)[3] = byteField c.dayLow ∧ (serialize c r)[4] = byteField c.dayHigh ∧
      ∀ k : Fin 7, (serialize c r)[5 + k.val] = r[k] := by
  refine ⟨rfl, rfl, rfl, rfl, rfl, fun k => ?_⟩
  match k with
  | 0 | 1 | 2 | 3 | 4 | 5 | 6 => rfl

/-- RTC_DL's write replaces the day counter's low byte (R182). -/
theorem dayLow_write (day : Day) (d : Byte) :
    ((day &&& 0x100#9) ||| d.setWidth 9).toNat = day.toNat / 256 * 256 + d.toNat := by
  have h : day = (BitVec.ofNat 1 (day.toNat / 256) ++ BitVec.ofNat 8 day.toNat : BitVec (1 + 8)) := by revert day; decide
  have hb : day.toNat / 256 = 0 ∨ day.toNat / 256 = 1 := by have := day.isLt; omega
  have hl : (day &&& 0x100#9) = BitVec.ofNat 9 (day.toNat / 256 * 256) := by clear d h hb; revert day; decide
  rw [hl]
  rcases hb with hb | hb <;> rw [hb]
  · clear h hb hl; revert d; decide
  · clear h hb hl; revert d; decide

/-- RTC_DH's write replaces the day counter's bit 8 (R182). -/
theorem dayHigh_write (day : Day) (d : Byte) :
    ((day &&& 0x0FF#9) ||| ((d.setWidth 9 &&& 1#9) <<< 8)).toNat = d.toNat % 2 * 256 + day.toNat % 256 := by
  have hd : ((d.setWidth 9 &&& 1#9) <<< 8) = BitVec.ofNat 9 (d.toNat % 2 * 256) := by clear day; revert d; decide
  have hb : d.toNat % 2 = 0 ∨ d.toNat % 2 = 1 := by omega
  rw [hd]
  rcases hb with hb | hb <;> rw [hb] <;> clear hd hb <;> revert day <;> decide

end Sys2Proof.Machine
end

