-- ==== Sys2Proof/Laws/Operands.lean ====
section
/-! SUPPORT. The addresses the rows' free bits stand for, as numbers, and which row the state selects. -/

namespace Sys2Proof.Machine

/-- A constant ahead of free bits is an addition. -/
theorem toNat_append_eq_add {n m : Nat} (p : BitVec n) (lo : BitVec m) : (p ++ lo).toNat = p.toNat * 2 ^ m + lo.toNat := by
  rw [BitVec.toNat_append, ← Nat.shiftLeft_add_eq_or_of_lt lo.isLt, Nat.shiftLeft_eq]

theorem rom0Addr_toNat (lo : BitVec 14) : (rom0Addr lo).toNat = lo.toNat :=
  (toNat_append_eq_add 0b00#2 lo).trans (by simp)

theorem romxAddr_toNat (lo : BitVec 14) : (romxAddr lo).toNat = 0x4000 + lo.toNat :=
  (toNat_append_eq_add 0b01#2 lo).trans (by simp)

theorem windowAddr_toNat (lo : BitVec 13) : (windowAddr lo).toNat = 0xA000 + lo.toNat :=
  (toNat_append_eq_add 0b101#3 lo).trans (by simp)

theorem bad8000Addr_toNat (lo : BitVec 13) : (bad8000Addr lo).toNat = 0x8000 + lo.toNat :=
  (toNat_append_eq_add 0b100#3 lo).trans (by simp)

theorem badC000Addr_toNat (lo : BitVec 14) : (badC000Addr lo).toNat = 0xC000 + lo.toNat :=
  (toNat_append_eq_add 0b11#2 lo).trans (by simp)

theorem chAAddr_toNat (lo : BitVec 4) : (chAAddr lo).toNat = 0xFF10 + lo.toNat :=
  (toNat_append_eq_add 0xFF1#12 lo).trans (by simp)

theorem chBAddr_toNat (lo : BitVec 2) : (chBAddr lo).toNat = 0xFF20 + lo.toNat :=
  (toNat_append_eq_add 0b11111111001000#14 lo).trans (by simp)

theorem waveAddr_toNat (lo : BitVec 4) : (waveAddr lo).toNat = 0xFF30 + lo.toNat :=
  (toNat_append_eq_add 0xFF3#12 lo).trans (by simp)

theorem romxOffset_eq (m : Mbc) (lo : BitVec 14) :
    romxOffset m (romxAddr lo) = m.selectedRomBank.toNat * 0x4000 + lo.toNat := by
  unfold romxOffset
  rw [Nat.sub_eq_of_eq_add ((romxAddr_toNat lo).trans (Nat.add_comm _ _))]

theorem ramOffset_eq (m : Mbc) (lo : BitVec 13) :
    ramOffset m (windowAddr lo) = m.selectedRamBank.toNat * 0x2000 + lo.toNat := by
  unfold ramOffset
  rw [Nat.sub_eq_of_eq_add ((windowAddr_toNat lo).trans (Nat.add_comm _ _))]

/-! The sound address map (R42). -/

theorem inRange_iff (r : SubRange) (a : Addr) : inRange r a = true ↔ r.first.toNat ≤ a.toNat ∧ a.toNat ≤ r.last.toNat := by
  simp [inRange]

/-- An address no sub-range holds has no owner, and any other has. -/
theorem ownerOf_eq_none_iff (m : SndMap) (a : Addr) : ownerOf m a = none ↔ ∀ r ∈ m.ranges, inRange r a = false := by
  simp [ownerOf]

/-- In a formed map the owner is the channel of any sub-range that holds the address (R42). -/
theorem ownerOf_of_inRange {m : SndMap} (hm : sndMapFormed m = true) {r : SubRange} (hr : r ∈ m.ranges) {a : Addr}
    (ha : inRange r a = true) : ownerOf m a = some r.channel := by
  simp only [sndMapFormed, Bool.and_eq_true, List.all_eq_true] at hm
  cases hq : m.ranges.find? (fun r => inRange r a) with
  | none => exact absurd ha (by simpa using List.find?_eq_none.1 hq r hr)
  | some q =>
    have hqa : inRange q a = true := by simpa using List.find?_some hq
    have h := hm.1.1.1.1.1.1 q (List.mem_of_find?_eq_some hq) r hr
    rw [inRange_iff] at ha hqa
    simp only [Bool.or_eq_true, decide_eq_true_eq, beq_iff_eq] at h
    have e : q.channel = r.channel := by rcases h with (h | h) | h <;> first | exact h | omega
    simp [ownerOf, hq, e]

/-- What a formed map says of its three control addresses (R42). -/
theorem sndMapFormed_control {m : SndMap} (hm : sndMapFormed m = true) :
    ownerOf m m.nr50 = none ∧ ownerOf m m.nr51 = none ∧ ownerOf m m.nr52 = none ∧
      m.nr52 ≠ m.nr50 ∧ m.nr52 ≠ m.nr51 ∧ m.nr10.toNat ≤ m.nr50.toNat ∧ m.nr50.toNat < m.nr51.toNat := by
  simp only [sndMapFormed, Bool.and_eq_true, List.all_eq_true, decide_eq_true_eq] at hm
  obtain ⟨⟨⟨⟨⟨⟨-, h⟩, h1⟩, h2⟩, h3⟩, h4⟩, -⟩ := hm
  exact ⟨by simpa using h m.nr50 (by simp), by simpa using h m.nr51 (by simp), by simpa using h m.nr52 (by simp), h1, h2, h3, h4⟩

/-- The role of each address of a formed map (R103). -/
theorem sndRole_control {m : SndMap} (hm : sndMapFormed m = true) :
    sndRole m m.nr50 = some .volume ∧ sndRole m m.nr51 = some .selection := by
  obtain ⟨h0, h1, -, n0, n1, -, h⟩ := sndMapFormed_control hm
  have : m.nr51 ≠ m.nr50 := fun e => by rw [e] at h; exact absurd h (Nat.lt_irrefl _)
  exact ⟨by simp [sndRole, h0, n0.symm], by simp [sndRole, h1, n1.symm, this]⟩

theorem sndRole_master (m : SndMap) : sndRole m m.nr52 = some .master := by simp [sndRole]

theorem sndRole_of_inRange {m : SndMap} (hm : sndMapFormed m = true) {r : SubRange} (hr : r ∈ m.ranges) {a : Addr}
    (ha : inRange r a = true) : sndRole m a = some (.channel r.channel) := by
  have ho := ownerOf_of_inRange hm hr ha
  have : a ≠ m.nr52 := by
    rintro rfl
    rw [(sndMapFormed_control hm).2.2.1] at ho
    cases ho
  simp [sndRole, ho, this]

/-- The addresses SND accepts, by the map's own data (R250). -/
theorem sndRole_isSome_iff (m : SndMap) (a : Addr) : (sndRole m a).isSome = true ↔
    a = m.nr52 ∨ a = m.nr50 ∨ a = m.nr51 ∨ ∃ r ∈ m.ranges, inRange r a = true := by
  have ho := ownerOf_eq_none_iff m a
  have hs : (∃ r ∈ m.ranges, inRange r a = true) ↔ ownerOf m a ≠ none := by
    rw [Ne, ho]; push Not; simp
  rw [hs]
  unfold sndRole
  split
  · simp_all
  · split <;> rename_i h
    · simp [h]
    · split
      · simp_all
      · split <;> simp_all

/-- A length register's mask in a formed map is the one its entry gives (R113). -/
theorem lengthMask_of_mem {m : SndMap} (hm : sndMapFormed m = true) {a : Addr} {v : Byte} (h : (a, v) ∈ m.lengths) :
    lengthMask m a = some v := by
  simp only [sndMapFormed, Bool.and_eq_true, decide_eq_true_eq] at hm
  replace hm := hm.2
  unfold lengthMask
  generalize m.lengths = l at *
  induction l with
  | nil => cases h
  | cons x l ih =>
    rw [List.map_cons, List.nodup_cons] at hm
    rcases List.mem_cons.1 h with rfl | h
    · simp
    · have : x.1 ≠ a := by
        rintro rfl
        exact hm.1 (List.mem_map.2 ⟨_, h, rfl⟩)
      rw [List.find?_cons, beq_eq_false_iff_ne.2 this]
      exact ih h hm.2

theorem lengthMask_eq_none {m : SndMap} {a : Addr} (h : ∀ v, (a, v) ∉ m.lengths) : lengthMask m a = none := by
  simp only [lengthMask, Option.map_eq_none_iff, List.find?_eq_none, beq_iff_eq]
  rintro ⟨b, v⟩ hb rfl
  exact h v hb

/-- The addresses of the power-on sequence (R258). -/
theorem mem_powerOnAddrs (m : SndMap) (a : Addr) : a ∈ powerOnAddrs m ↔ m.nr10.toNat ≤ a.toNat ∧ a.toNat ≤ m.nr51.toNat := by
  have h51 := m.nr51.isLt
  simp only [powerOnAddrs, List.mem_map, List.mem_range'_1]
  constructor
  · rintro ⟨n, hn, rfl⟩
    rw [BitVec.toNat_ofNat, Nat.mod_eq_of_lt (by omega)]
    omega
  · intro h
    exact ⟨a.toNat, by omega, by simp⟩

/-- They come in ascending order (R258). -/
theorem powerOnAddrs_ascending (m : SndMap) : (powerOnAddrs m).Pairwise fun a b => a.toNat < b.toNat := by
  have h51 := m.nr51.isLt
  refine List.pairwise_map.2 (List.Pairwise.imp_of_mem (fun {x y} hx hy hlt => ?_) List.pairwise_lt_range')
  rw [List.mem_range'_1] at hx hy
  rw [BitVec.toNat_ofNat, BitVec.toNat_ofNat, Nat.mod_eq_of_lt (by omega), Nat.mod_eq_of_lt (by omega)]
  exact hlt

/-- The default map's owners (R42). -/
theorem ownerOf_default (a : Addr) : ownerOf Config.defaultSndMap a =
    if 0xFF10 ≤ a.toNat ∧ a.toNat ≤ 0xFF14 then some 0
    else if 0xFF15 ≤ a.toNat ∧ a.toNat ≤ 0xFF19 then some 1
    else if 0xFF1A ≤ a.toNat ∧ a.toNat ≤ 0xFF1E then some 2
    else if 0xFF1F ≤ a.toNat ∧ a.toNat ≤ 0xFF23 then some 3
    else if 0xFF30 ≤ a.toNat ∧ a.toNat ≤ 0xFF3F then some 2
    else none := by
  simp only [ownerOf, inRange, Config.defaultSndMap, List.find?_cons, List.find?_nil, ← Bool.decide_and]
  norm_num
  repeat' split
  all_goals simp_all

/-- The addresses SND accepts under the default map (R250). -/
theorem sndAccepts_default (a : Addr) : sndAccepts Config.defaultSndMap a = true ↔
    (0xFF10 ≤ a.toNat ∧ a.toNat ≤ 0xFF26) ∨ (0xFF30 ≤ a.toNat ∧ a.toNat ≤ 0xFF3F) := by
  have e (b c : Addr) : b = c ↔ b.toNat = c.toNat := (BitVec.toNat_inj).symm
  simp only [sndAccepts, sndRole_isSome_iff, Config.defaultSndMap, e, List.exists_mem_cons_iff, List.not_mem_nil, false_and,
    exists_false, inRange_iff, or_false]
  simp only [BitVec.reduceToNat]
  omega

theorem defaultSndMap_formed : sndMapFormed Config.defaultSndMap = true := by decide

/-- The three SCAN_TICK rows by state (R141). -/
theorem tickRow_eq (s : State) : tickRow s =
    if s.scan.i.val < 40 then (if s.scan.state = .readingY then .scanTickY else .scanTickX) else .scanTickOverrun := by
  have : s.scan.i = 40 ↔ ¬ s.scan.i.val < 40 := by
    constructor
    · intro h; simp [h]
    · intro h; exact Fin.ext (by have := s.scan.i.isLt; simp; omega)
  unfold tickRow
  by_cases h : s.scan.i.val < 40
  · rw [if_neg (fun e => this.1 e h), if_pos h]
    cases s.scan.state <;> simp
  · rw [if_pos (this.2 h), if_neg h]

end Sys2Proof.Machine
end

