-- ==== Sys2Proof/Laws/Memory.lean ====
section
/-! SUPPORT. What the cell lists and the operations over stores do. -/

namespace Sys2Proof.Machine

/-- A canonical cell list: rising addresses and no 0x00, without the bound of a store. -/
def cellsOk (cs : List Host.Cell) : Prop := rising cs = true ∧ ∀ c ∈ cs, c.2 ≠ 0

@[simp] theorem lookupCell_nil (a : Nat) : lookupCell [] a = 0 := rfl

theorem lookupCell_cons (k : Nat) (v : Byte) (cs : List Host.Cell) (a : Nat) :
    lookupCell ((k, v) :: cs) a = if a = k then v else lookupCell cs a := rfl

@[simp] theorem risingAbove_cons (b k : Nat) (v : Byte) (cs : List Host.Cell) :
    risingAbove b ((k, v) :: cs) = true ↔ b < k ∧ risingAbove k cs = true := by
  simp [risingAbove]

theorem risingAbove_mono {b c : Nat} {cs : List Host.Cell} (hbc : c ≤ b) (h : risingAbove b cs = true) :
    risingAbove c cs = true := by
  cases cs with
  | nil => rfl
  | cons x cs =>
    obtain ⟨k, v⟩ := x
    simp only [risingAbove_cons] at *
    exact ⟨by omega, h.2⟩

theorem lookupCell_of_risingAbove {b : Nat} {cs : List Host.Cell} (h : risingAbove b cs = true) {a : Nat} (ha : a ≤ b) :
    lookupCell cs a = 0 := by
  induction cs generalizing b with
  | nil => rfl
  | cons x cs ih =>
    obtain ⟨k, v⟩ := x
    simp only [risingAbove_cons] at h
    rw [lookupCell_cons, if_neg (by omega)]
    exact ih h.2 (by omega)

theorem insertCell_risingAbove {b : Nat} {cs : List Host.Cell} {a : Nat} {v : Byte} (h : risingAbove b cs = true) (hb : b < a) :
    risingAbove b (insertCell cs a v) = true := by
  induction cs generalizing b with
  | nil =>
    unfold insertCell
    split
    · rfl
    · exact (risingAbove_cons ..).2 ⟨hb, rfl⟩
  | cons x cs ih =>
    obtain ⟨k, w⟩ := x
    have h' := (risingAbove_cons ..).1 h
    unfold insertCell
    split
    · split
      · exact h
      · exact (risingAbove_cons ..).2 ⟨hb, (risingAbove_cons ..).2 ⟨by assumption, h'.2⟩⟩
    · split
      · split
        · exact risingAbove_mono (by omega) h'.2
        · subst a
          exact (risingAbove_cons ..).2 ⟨hb, h'.2⟩
      · exact (risingAbove_cons ..).2 ⟨h'.1, ih h'.2 (by omega)⟩

theorem rising_iff_risingAbove_tail {k : Nat} {v : Byte} {cs : List Host.Cell} :
    rising ((k, v) :: cs) = true ↔ risingAbove k cs = true := by simp [rising]

theorem insertCell_rising {cs : List Host.Cell} {a : Nat} {v : Byte} (h : rising cs = true) :
    rising (insertCell cs a v) = true := by
  cases cs with
  | nil =>
    unfold insertCell
    split <;> rfl
  | cons x cs =>
    obtain ⟨k, w⟩ := x
    have h' := rising_iff_risingAbove_tail.1 h
    unfold insertCell
    split
    · split
      · exact h
      · exact rising_iff_risingAbove_tail.2 ((risingAbove_cons ..).2 ⟨by assumption, h'⟩)
    · split
      · split
        · cases cs with
          | nil => rfl
          | cons y ys =>
            obtain ⟨l, u⟩ := y
            exact rising_iff_risingAbove_tail.2 ((risingAbove_cons ..).1 h').2
        · subst a
          exact rising_iff_risingAbove_tail.2 h'
      · exact rising_iff_risingAbove_tail.2 (insertCell_risingAbove h' (by omega))

theorem mem_insertCell {cs : List Host.Cell} {a : Nat} {v : Byte} {c : Host.Cell} (h : c ∈ insertCell cs a v) :
    c ∈ cs ∨ (c = (a, v) ∧ v ≠ 0) := by
  induction cs with
  | nil =>
    unfold insertCell at h
    split at h <;> simp_all
  | cons x cs ih =>
    obtain ⟨k, w⟩ := x
    unfold insertCell at h
    split at h
    · split at h
      · exact .inl h
      · rcases List.mem_cons.1 h with h | h
        · exact .inr ⟨h, by assumption⟩
        · exact .inl h
    · split at h
      · split at h
        · exact .inl (List.mem_cons_of_mem _ h)
        · rcases List.mem_cons.1 h with h | h
          · exact .inr ⟨h, by assumption⟩
          · exact .inl (List.mem_cons_of_mem _ h)
      · rcases List.mem_cons.1 h with h | h
        · exact .inl (h ▸ List.mem_cons_self)
        · exact (ih h).imp (List.mem_cons_of_mem _) id

theorem lookupCell_insertCell_above {b : Nat} {cs : List Host.Cell} (h : risingAbove b cs = true) (a : Nat) (v : Byte) (x : Nat) :
    lookupCell (insertCell cs a v) x = if x = a then v else lookupCell cs x := by
  induction cs generalizing b with
  | nil =>
    unfold insertCell
    split
    · rename_i hv
      subst hv
      by_cases hx : x = a <;> simp [hx]
    · rfl
  | cons y cs ih =>
    obtain ⟨k, w⟩ := y
    have h' := (risingAbove_cons ..).1 h
    unfold insertCell
    split
    · rename_i hak
      split
      · rename_i hv
        subst hv
        by_cases hx : x = a
        · subst hx
          rw [if_pos rfl]
          exact lookupCell_of_risingAbove ((risingAbove_cons x k w cs).2 ⟨hak, h'.2⟩) (Nat.le_refl _)
        · rw [if_neg hx]
      · simp only [lookupCell_cons]
    · split
      · rename_i hak
        subst hak
        split
        · rename_i hv
          subst hv
          by_cases hx : x = a
          · subst hx
            rw [if_pos rfl]
            exact lookupCell_of_risingAbove h'.2 (Nat.le_refl _)
          · simp [lookupCell_cons, hx]
        · by_cases hx : x = a <;> simp [lookupCell_cons, hx]
      · rw [lookupCell_cons, lookupCell_cons, ih h'.2]
        by_cases hx : x = k
        · subst hx
          rw [if_pos rfl, if_pos rfl, if_neg (by omega)]
        · simp [hx]

theorem lookupCell_insertCell {cs : List Host.Cell} (h : rising cs = true) (a : Nat) (v : Byte) (x : Nat) :
    lookupCell (insertCell cs a v) x = if x = a then v else lookupCell cs x := by
  cases cs with
  | nil => exact lookupCell_insertCell_above (b := 0) rfl a v x
  | cons y cs =>
    obtain ⟨k, w⟩ := y
    have h' := rising_iff_risingAbove_tail.1 h
    by_cases hk : k = 0
    · subst hk
      unfold insertCell
      rw [if_neg (by omega)]
      split
      · rename_i ha
        subst ha
        split
        · rename_i hv
          subst hv
          by_cases hx : x = 0
          · subst hx
            rw [if_pos rfl]
            exact lookupCell_of_risingAbove h' (Nat.le_refl _)
          · simp [lookupCell_cons, hx]
        · by_cases hx : x = 0 <;> simp [lookupCell_cons, hx]
      · rw [lookupCell_cons, lookupCell_cons, lookupCell_insertCell_above h']
        by_cases hx : x = 0
        · subst hx
          rw [if_pos rfl, if_pos rfl, if_neg (by omega)]
        · simp [hx]
    · exact lookupCell_insertCell_above (b := 0) ((risingAbove_cons ..).2 ⟨by omega, h'⟩) a v x

theorem Memory.wf_iff {m : Memory} :
    m.wf = true ↔ rising m.cells = true ∧ ∀ c ∈ m.cells, c.1 < m.size ∧ c.2 ≠ 0 := by
  simp [Memory.wf, List.all_eq_true]

@[simp] theorem Memory.blank_size (n : Nat) : (Memory.blank n).size = n := rfl
@[simp] theorem Memory.blank_get (n a : Nat) : (Memory.blank n).get a = 0 := rfl
@[simp] theorem Memory.blank_wf (n : Nat) : (Memory.blank n).wf = true := rfl

@[simp] theorem Memory.set_size (m : Memory) (a : Nat) (v : Byte) : (m.set a v).size = m.size := by
  unfold Memory.set
  split <;> rfl

/-- An address outside the store is no place to write. -/
theorem Memory.set_of_size_le {m : Memory} {a : Nat} (h : m.size ≤ a) (v : Byte) : m.set a v = m := by
  unfold Memory.set
  rw [if_neg (by omega)]

/-- No byte of a canonical store is listed past its end. -/
theorem Memory.get_of_size_le {m : Memory} (h : m.wf = true) {a : Nat} (ha : m.size ≤ a) : m.get a = 0 := by
  have h' := (Memory.wf_iff.1 h).2
  unfold Memory.get
  generalize m.cells = cs at h' ⊢
  induction cs with
  | nil => rfl
  | cons x cs ih =>
    obtain ⟨k, v⟩ := x
    have hk := (h' _ List.mem_cons_self).1
    rw [lookupCell_cons, if_neg (by simp only at hk; omega)]
    exact ih fun c hc => h' c (List.mem_cons_of_mem _ hc)

/-- Every write keeps the canonical form. -/
theorem Memory.set_wf {m : Memory} (h : m.wf = true) (a : Nat) (v : Byte) : (m.set a v).wf = true := by
  have h' := Memory.wf_iff.1 h
  unfold Memory.set
  split
  · refine Memory.wf_iff.2 ⟨insertCell_rising h'.1, fun c hc => ?_⟩
    rcases mem_insertCell hc with hc | ⟨rfl, hv⟩
    · exact h'.2 c hc
    · exact ⟨by assumption, hv⟩
  · exact h

/-- A read after a write: the byte written at that address, the old byte at every other. -/
theorem Memory.get_set {m : Memory} (h : m.wf = true) (a : Nat) (v : Byte) (b : Nat) :
    (m.set a v).get b = if b = a ∧ a < m.size then v else m.get b := by
  unfold Memory.set
  split
  · rename_i ha
    simp only [ha, and_true]
    exact lookupCell_insertCell (Memory.wf_iff.1 h).1 a v b
  · rename_i ha
    rw [if_neg (fun hb => ha hb.2)]

theorem Memory.get_set_same {m : Memory} (h : m.wf = true) {a : Nat} (ha : a < m.size) (v : Byte) : (m.set a v).get a = v := by
  rw [Memory.get_set h, if_pos ⟨rfl, ha⟩]

theorem Memory.get_set_other {m : Memory} (h : m.wf = true) {a b : Nat} (hb : b ≠ a) (v : Byte) :
    (m.set a v).get b = m.get b := by
  rw [Memory.get_set h, if_neg fun hc => hb hc.1]

end Sys2Proof.Machine
end

