-- ==== Sys2Proof/Laws/State.lean ====
section
/-! SUPPORT. What each update of the state leaves in each field: one lemma per field per update, so that no proof unfolds a
record update. -/

namespace Sys2Proof.Machine

/-! `State.setScan` -/

@[simp] theorem State.setScan_scan (s : State) (v : Scan) : (s.setScan v).scan = v := rfl
@[simp] theorem State.setScan_mbc (s : State) (v : Scan) : (s.setScan v).mbc = s.mbc := rfl
@[simp] theorem State.setScan_snd (s : State) (v : Scan) : (s.setScan v).snd = s.snd := rfl
@[simp] theorem State.setScan_rb (s : State) (v : Scan) : (s.setScan v).rb = s.rb := rfl
@[simp] theorem State.setScan_env (s : State) (v : Scan) : (s.setScan v).env = s.env := rfl
@[simp] theorem State.setScan_params (s : State) (v : Scan) : (s.setScan v).params = s.params := rfl
@[simp] theorem State.setScan_ports (s : State) (v : Scan) : (s.setScan v).ports = s.ports := rfl
@[simp] theorem State.setScan_result (s : State) (v : Scan) : (s.setScan v).result = s.result := rfl
@[simp] theorem State.setScan_trace (s : State) (v : Scan) : (s.setScan v).trace = s.trace := rfl
@[simp] theorem State.setScan_draws (s : State) (v : Scan) : (s.setScan v).draws = s.draws := rfl

/-! `State.setMbc` -/

@[simp] theorem State.setMbc_scan (s : State) (v : Mbc) : (s.setMbc v).scan = s.scan := rfl
@[simp] theorem State.setMbc_mbc (s : State) (v : Mbc) : (s.setMbc v).mbc = v := rfl
@[simp] theorem State.setMbc_snd (s : State) (v : Mbc) : (s.setMbc v).snd = s.snd := rfl
@[simp] theorem State.setMbc_rb (s : State) (v : Mbc) : (s.setMbc v).rb = s.rb := rfl
@[simp] theorem State.setMbc_env (s : State) (v : Mbc) : (s.setMbc v).env = s.env := rfl
@[simp] theorem State.setMbc_params (s : State) (v : Mbc) : (s.setMbc v).params = s.params := rfl
@[simp] theorem State.setMbc_ports (s : State) (v : Mbc) : (s.setMbc v).ports = s.ports := rfl
@[simp] theorem State.setMbc_result (s : State) (v : Mbc) : (s.setMbc v).result = s.result := rfl
@[simp] theorem State.setMbc_trace (s : State) (v : Mbc) : (s.setMbc v).trace = s.trace := rfl
@[simp] theorem State.setMbc_draws (s : State) (v : Mbc) : (s.setMbc v).draws = s.draws := rfl

/-! `State.setSnd` -/

@[simp] theorem State.setSnd_scan (s : State) (v : Snd) : (s.setSnd v).scan = s.scan := rfl
@[simp] theorem State.setSnd_mbc (s : State) (v : Snd) : (s.setSnd v).mbc = s.mbc := rfl
@[simp] theorem State.setSnd_snd (s : State) (v : Snd) : (s.setSnd v).snd = v := rfl
@[simp] theorem State.setSnd_rb (s : State) (v : Snd) : (s.setSnd v).rb = s.rb := rfl
@[simp] theorem State.setSnd_env (s : State) (v : Snd) : (s.setSnd v).env = s.env := rfl
@[simp] theorem State.setSnd_params (s : State) (v : Snd) : (s.setSnd v).params = s.params := rfl
@[simp] theorem State.setSnd_ports (s : State) (v : Snd) : (s.setSnd v).ports = s.ports := rfl
@[simp] theorem State.setSnd_result (s : State) (v : Snd) : (s.setSnd v).result = s.result := rfl
@[simp] theorem State.setSnd_trace (s : State) (v : Snd) : (s.setSnd v).trace = s.trace := rfl
@[simp] theorem State.setSnd_draws (s : State) (v : Snd) : (s.setSnd v).draws = s.draws := rfl

/-! `State.setRb` -/

@[simp] theorem State.setRb_scan (s : State) (v : Rb) : (s.setRb v).scan = s.scan := rfl
@[simp] theorem State.setRb_mbc (s : State) (v : Rb) : (s.setRb v).mbc = s.mbc := rfl
@[simp] theorem State.setRb_snd (s : State) (v : Rb) : (s.setRb v).snd = s.snd := rfl
@[simp] theorem State.setRb_rb (s : State) (v : Rb) : (s.setRb v).rb = v := rfl
@[simp] theorem State.setRb_env (s : State) (v : Rb) : (s.setRb v).env = s.env := rfl
@[simp] theorem State.setRb_params (s : State) (v : Rb) : (s.setRb v).params = s.params := rfl
@[simp] theorem State.setRb_ports (s : State) (v : Rb) : (s.setRb v).ports = s.ports := rfl
@[simp] theorem State.setRb_result (s : State) (v : Rb) : (s.setRb v).result = s.result := rfl
@[simp] theorem State.setRb_trace (s : State) (v : Rb) : (s.setRb v).trace = s.trace := rfl
@[simp] theorem State.setRb_draws (s : State) (v : Rb) : (s.setRb v).draws = s.draws := rfl

/-! `State.setEnv` -/

@[simp] theorem State.setEnv_scan (s : State) (v : Env) : (s.setEnv v).scan = s.scan := rfl
@[simp] theorem State.setEnv_mbc (s : State) (v : Env) : (s.setEnv v).mbc = s.mbc := rfl
@[simp] theorem State.setEnv_snd (s : State) (v : Env) : (s.setEnv v).snd = s.snd := rfl
@[simp] theorem State.setEnv_rb (s : State) (v : Env) : (s.setEnv v).rb = s.rb := rfl
@[simp] theorem State.setEnv_env (s : State) (v : Env) : (s.setEnv v).env = v := rfl
@[simp] theorem State.setEnv_params (s : State) (v : Env) : (s.setEnv v).params = s.params := rfl
@[simp] theorem State.setEnv_ports (s : State) (v : Env) : (s.setEnv v).ports = s.ports := rfl
@[simp] theorem State.setEnv_result (s : State) (v : Env) : (s.setEnv v).result = s.result := rfl
@[simp] theorem State.setEnv_trace (s : State) (v : Env) : (s.setEnv v).trace = s.trace := rfl
@[simp] theorem State.setEnv_draws (s : State) (v : Env) : (s.setEnv v).draws = s.draws := rfl

/-! `State.setPorts` -/

@[simp] theorem State.setPorts_scan (s : State) (v : Ports) : (s.setPorts v).scan = s.scan := rfl
@[simp] theorem State.setPorts_mbc (s : State) (v : Ports) : (s.setPorts v).mbc = s.mbc := rfl
@[simp] theorem State.setPorts_snd (s : State) (v : Ports) : (s.setPorts v).snd = s.snd := rfl
@[simp] theorem State.setPorts_rb (s : State) (v : Ports) : (s.setPorts v).rb = s.rb := rfl
@[simp] theorem State.setPorts_env (s : State) (v : Ports) : (s.setPorts v).env = s.env := rfl
@[simp] theorem State.setPorts_params (s : State) (v : Ports) : (s.setPorts v).params = s.params := rfl
@[simp] theorem State.setPorts_ports (s : State) (v : Ports) : (s.setPorts v).ports = v := rfl
@[simp] theorem State.setPorts_result (s : State) (v : Ports) : (s.setPorts v).result = s.result := rfl
@[simp] theorem State.setPorts_trace (s : State) (v : Ports) : (s.setPorts v).trace = s.trace := rfl
@[simp] theorem State.setPorts_draws (s : State) (v : Ports) : (s.setPorts v).draws = s.draws := rfl

/-! `State.answer` -/

@[simp] theorem State.answer_scan (s : State) (v : Result) : (s.answer v).scan = s.scan := rfl
@[simp] theorem State.answer_mbc (s : State) (v : Result) : (s.answer v).mbc = s.mbc := rfl
@[simp] theorem State.answer_snd (s : State) (v : Result) : (s.answer v).snd = s.snd := rfl
@[simp] theorem State.answer_rb (s : State) (v : Result) : (s.answer v).rb = s.rb := rfl
@[simp] theorem State.answer_env (s : State) (v : Result) : (s.answer v).env = s.env := rfl
@[simp] theorem State.answer_params (s : State) (v : Result) : (s.answer v).params = s.params := rfl
@[simp] theorem State.answer_ports (s : State) (v : Result) : (s.answer v).ports = s.ports := rfl
@[simp] theorem State.answer_result (s : State) (v : Result) : (s.answer v).result = v := rfl
@[simp] theorem State.answer_trace (s : State) (v : Result) : (s.answer v).trace = s.trace := rfl
@[simp] theorem State.answer_draws (s : State) (v : Result) : (s.answer v).draws = s.draws := rfl

/-! `State.record` -/

@[simp] theorem State.record_scan (s : State) (c : Call) : (s.record c).scan = s.scan := rfl
@[simp] theorem State.record_mbc (s : State) (c : Call) : (s.record c).mbc = s.mbc := rfl
@[simp] theorem State.record_snd (s : State) (c : Call) : (s.record c).snd = s.snd := rfl
@[simp] theorem State.record_rb (s : State) (c : Call) : (s.record c).rb = s.rb := rfl
@[simp] theorem State.record_env (s : State) (c : Call) : (s.record c).env = s.env := rfl
@[simp] theorem State.record_params (s : State) (c : Call) : (s.record c).params = s.params := rfl
@[simp] theorem State.record_ports (s : State) (c : Call) : (s.record c).ports = s.ports := rfl
@[simp] theorem State.record_result (s : State) (c : Call) : (s.record c).result = s.result := rfl
@[simp] theorem State.record_trace (s : State) (c : Call) : (s.record c).trace = s.trace ++ [c] := rfl
@[simp] theorem State.record_draws (s : State) (c : Call) : (s.record c).draws = s.draws := rfl

/-! `State.draw` -/

@[simp] theorem State.draw_scan (s : State) (n : Nat) : (s.draw n).scan = s.scan := rfl
@[simp] theorem State.draw_mbc (s : State) (n : Nat) : (s.draw n).mbc = s.mbc := rfl
@[simp] theorem State.draw_snd (s : State) (n : Nat) : (s.draw n).snd = s.snd := rfl
@[simp] theorem State.draw_rb (s : State) (n : Nat) : (s.draw n).rb = s.rb := rfl
@[simp] theorem State.draw_env (s : State) (n : Nat) : (s.draw n).env = s.env := rfl
@[simp] theorem State.draw_params (s : State) (n : Nat) : (s.draw n).params = s.params := rfl
@[simp] theorem State.draw_ports (s : State) (n : Nat) : (s.draw n).ports = s.ports := rfl
@[simp] theorem State.draw_result (s : State) (n : Nat) : (s.draw n).result = s.result := rfl
@[simp] theorem State.draw_trace (s : State) (n : Nat) : (s.draw n).trace = s.trace := rfl
@[simp] theorem State.draw_draws (s : State) (n : Nat) : (s.draw n).draws = s.draws + n := rfl

@[simp] theorem State.setScan_self (s : State) : s.setScan s.scan = s := rfl
@[simp] theorem State.setScan_setScan (s : State) (v w : Scan) : (s.setScan v).setScan w = s.setScan w := rfl
@[simp] theorem State.setMbc_self (s : State) : s.setMbc s.mbc = s := rfl
@[simp] theorem State.setMbc_setMbc (s : State) (v w : Mbc) : (s.setMbc v).setMbc w = s.setMbc w := rfl
@[simp] theorem State.setSnd_self (s : State) : s.setSnd s.snd = s := rfl
@[simp] theorem State.setSnd_setSnd (s : State) (v w : Snd) : (s.setSnd v).setSnd w = s.setSnd w := rfl
@[simp] theorem State.setRb_self (s : State) : s.setRb s.rb = s := rfl
@[simp] theorem State.setRb_setRb (s : State) (v w : Rb) : (s.setRb v).setRb w = s.setRb w := rfl
@[simp] theorem State.setEnv_self (s : State) : s.setEnv s.env = s := rfl
@[simp] theorem State.setEnv_setEnv (s : State) (v w : Env) : (s.setEnv v).setEnv w = s.setEnv w := rfl
@[simp] theorem State.setPorts_self (s : State) : s.setPorts s.ports = s := rfl
@[simp] theorem State.setPorts_setPorts (s : State) (v w : Ports) : (s.setPorts v).setPorts w = s.setPorts w := rfl
@[simp] theorem State.answer_self (s : State) : s.answer s.result = s := rfl
@[simp] theorem State.answer_answer (s : State) (v w : Result) : (s.answer v).answer w = s.answer w := rfl

end Sys2Proof.Machine
end

