-- ==== Sys2Proof/Laws/Ops.lean ====
section
/-! SUPPORT. What the shared operations do: completing, the channel calls, the power sequences. -/

namespace Sys2Proof.Machine

@[simp] theorem finish_eq_next (s t : State) (v : Result) : finish s v = .next t ↔ t = s.answer v := by
  simp [finish, eq_comm]

@[simp] theorem finish_ne_fault (s : State) (v : Result) (f : Fault) : finish s v ≠ .fault f := by simp [finish]

@[simp] theorem finish_ne_refused (s : State) (v : Result) (r : Refusal) : finish s v ≠ .refused r := by simp [finish]

@[simp] theorem raise_ne_next (f : Fault) (t : State) : raise f ≠ .next t := by simp [raise]

@[simp] theorem raise_ne_refused (f : Fault) (r : Refusal) : raise f ≠ .refused r := by simp [raise]

@[simp] theorem raise_eq_fault (f g : Fault) : raise f = .fault g ↔ g = f := by simp [raise, eq_comm]

/-! Channel calls touch no raw byte but a write its own (R264). -/

@[simp] theorem Channel.write_regs (c : Channel) (a : Addr) (v : Byte) : (c.write a v).regs = c.regs.set a.toNat v := rfl
@[simp] theorem Channel.write_model (c : Channel) (a : Addr) (v : Byte) : (c.write a v).model = c.model := rfl
@[simp] theorem Channel.tick_regs (c : Channel) : c.tick.2.regs = c.regs := by unfold Channel.tick; split <;> rfl
@[simp] theorem Channel.tick_model (c : Channel) : c.tick.2.model = c.model := by unfold Channel.tick; split <;> simp_all
@[simp] theorem Channel.start_regs (c : Channel) : c.start.regs = c.regs := by unfold Channel.start; split <;> rfl
@[simp] theorem Channel.start_model (c : Channel) : c.start.model = c.model := by unfold Channel.start; split <;> simp_all
@[simp] theorem Channel.stop_regs (c : Channel) : c.stop.regs = c.regs := by unfold Channel.stop; split <;> rfl
@[simp] theorem Channel.stop_model (c : Channel) : c.stop.model = c.model := by unfold Channel.stop; split <;> simp_all

/-- One channel replaced: the others are as they were. -/
theorem getElem_set_fin {α : Type} (v : Vector α 4) (k j : Fin 4) (x : α) : (v.set k.val x k.isLt)[j] = if j = k then x else v[j] := by
  simp only [Fin.getElem_fin, Vector.getElem_set]
  by_cases h : j = k
  · subst h; simp
  · have : k.val ≠ j.val := fun e => h (Fin.ext e.symm)
    simp [h, this]

@[simp] theorem State.setChannel_ch (s : State) (k : Fin 4) (c : Channel) (j : Fin 4) :
    (s.setChannel k c).snd.ch[j] = if j = k then c else s.snd.ch[j] := getElem_set_fin _ _ _ _

end Sys2Proof.Machine
end

