-- ==== Sys2Proof/Laws/Bank.lean ====
section
/-! SUPPORT. What MBC's and the clock's shared operations do. -/

namespace Sys2Proof.Machine

/-- A RAM write that completes changes at most one byte of the RAM (R180). -/
theorem execMbcWrRam_cases {lo : BitVec 13} {d : Byte} {s t : State} (h : execMbcWrRam lo d s = .next t) :
    ∃ ram, (ram = s.mbc.ram ∨ ∃ o, ram = s.mbc.ram.set o d) ∧
      t = { s with mbc := { s.mbc with ram := ram }, result := .nothing } := by
  have key : ∃ o, t = (s.setMbc { s.mbc with ram := s.mbc.ram.set o d }).answer .nothing ∨ t = s.answer .nothing := by
    unfold execMbcWrRam at h
    split at h
    · split at h
      · exact ⟨_, .inl ((finish_eq_next _ _ _).1 h)⟩
      · exact ⟨0, .inr ((finish_eq_next _ _ _).1 h)⟩
    · cases h
  obtain ⟨o, rfl | rfl⟩ := key
  · exact ⟨_, .inr ⟨o, rfl⟩, rfl⟩
  · exact ⟨_, .inl rfl, rfl⟩

/-- Under the default law a second leaves halt as it is, and the overflow flag never falls (R221, R222). -/
theorem Clock.second_flags (c : Clock) : c.second.halt = c.halt ∧ (c.ovf = true → c.second.ovf = true) := by
  simp only [Clock.second, Clock.carrySec, Clock.carryMin, Clock.carryHrs]
  repeat' split
  all_goals exact ⟨rfl, fun h => by first | exact h | rfl⟩

/-- No law clears the overflow flag (R222). -/
theorem Clock.advance_ovf (c : Clock) (law : RtcLaw) (n : Nat) (h : c.ovf = true) : (c.advance law n).1.ovf = true := by
  unfold Clock.advance
  split
  · unfold Clock.standardLaw
    split
    · exact h
    · split
      · simp [Clock.drawn, h]
      · exact c.second_flags.2 h
  · simp [Clock.customLaw, h]

/-- The default law keeps halt (R221). -/
theorem Clock.standardLaw_halt (c : Clock) (n : Nat) : (c.standardLaw n).1.halt = c.halt := by
  unfold Clock.standardLaw
  split
  · rfl
  · split
    · rfl
    · exact c.second_flags.1

/-- A register write clears the overflow flag only as RTC_DH with bit 7 clear (R182). -/
theorem Clock.write_ovf (c : Clock) (sel d : Byte) (h : c.ovf = true) :
    (c.write sel d).ovf = true ∨ (sel = 0x0C ∧ d.getLsbD 7 = false) := by
  unfold Clock.write
  by_cases h8 : sel = 0x08
  · rw [if_pos h8]
    exact .inl h
  rw [if_neg h8]
  by_cases h9 : sel = 0x09
  · rw [if_pos h9]
    exact .inl h
  rw [if_neg h9]
  by_cases hA : sel = 0x0A
  · rw [if_pos hA]
    exact .inl h
  rw [if_neg hA]
  by_cases hB : sel = 0x0B
  · rw [if_pos hB]
    exact .inl h
  rw [if_neg hB]
  by_cases hC : sel = 0x0C
  · rw [if_pos hC]
    cases hd : d.getLsbD 7
    · exact .inr ⟨hC, rfl⟩
    · exact .inl h
  · rw [if_neg hC]
    exact .inl h

/-- The latch toggle: the live clock frozen when it closes, the snapshot kept when it opens (R179). -/
theorem Mbc.toggleLatch_eq (m : Mbc) : m.toggleLatch =
    { m with clockLatched := !m.clockLatched, snap := if m.clockLatched then m.snap else m.live } := by
  unfold Mbc.toggleLatch
  cases h : m.clockLatched <;> simp

end Sys2Proof.Machine
end

