-- ==== Sys2Proof/Laws/Construct.lean ====
section
/-! SUPPORT. What construction leaves (70_reset_and_hazards.md R370, R371). -/

namespace Sys2Proof.Machine

/-- What a formed launch gives: canonical stores of their sizes, a formed map, and a draw that leaves the registers at 0x00 (R41). -/
theorem Launch.formed_iff (p : Launch) : p.formed = true ↔
    (p.rom.wf = true ∧ p.ram.wf = true ∧ p.ring.wf = true ∧ p.env.mem.wf = true ∧ p.params.readMask.wf = true ∧ p.wave.wf = true) ∧
      (p.env.mem.size = 0x10000 ∧ p.params.readMask.size = 0x10000 ∧ p.wave.size = 0x10000) ∧
      sndMapFormed p.params.sndMap = true ∧
      ∀ c ∈ p.wave.cells, c.1 < p.params.sndMap.nr10.toNat ∨ p.params.sndMap.nr51.toNat < c.1 := by
  simp only [Launch.formed, Bool.and_eq_true, beq_iff_eq, List.all_eq_true, Bool.or_eq_true, decide_eq_true_eq, and_assoc]

/-- An address that is not listed reads 0x00. -/
theorem lookupCell_eq_zero : ∀ {l : List Host.Cell} {a : Nat}, (∀ c ∈ l, c.1 ≠ a) → lookupCell l a = 0
  | [], _, _ => rfl
  | (k, v) :: l, a, h => by
    rw [lookupCell, if_neg (fun e => h (k, v) (by simp) e.symm)]
    exact lookupCell_eq_zero fun c hc => h c (List.mem_cons_of_mem _ hc)

/-- Every channel starts with a canonical file whose registers NR10 .. NR51 are 0x00 (R41). -/
theorem Launch.channel_regs {p : Launch} (h : p.formed = true) (k : Fin 4) :
    (p.channel k).regs.wf = true ∧ (p.channel k).regs.size = 0x10000 ∧
      ∀ o, p.params.sndMap.nr10.toNat ≤ o → o ≤ p.params.sndMap.nr51.toNat → (p.channel k).regs.get o = 0x00 := by
  obtain ⟨⟨-, -, -, -, -, hw⟩, ⟨-, -, hs⟩, -, hc⟩ := p.formed_iff.1 h
  refine ⟨hw, hs, fun o h1 h2 => lookupCell_eq_zero fun c hcm e => ?_⟩
  have := hc c hcm
  omega

/-- Construction that is not refused: the clock fields were read, the ring has room, the stores are canonical, and the state is the
one of R26, R34, R41 and R46. -/
theorem construct_cases {p : Launch} {s : State} (h : State.construct p = some s) :
    ∃ live reserved, deserialize p.clock = some (live, reserved) ∧ p.ring.size ≠ 0 ∧ p.formed = true ∧
      s.scan = Scan.reset ∧ s.mbc = ⟨1, 0, false, 0x00, false, p.ram, p.rom, live, live, reserved⟩ ∧
      s.snd = { Snd.reset with ch := #v[p.channel 0, p.channel 1, p.channel 2, p.channel 3] } ∧
      s.rb = ⟨p.ring, 0, 0, 0⟩ ∧ s.env = p.env ∧ s.params = p.params ∧ s.ports = Ports.idle ∧ s.result = .nothing ∧
      s.trace = [.loadRamWithClock p.ram p.clock] ∧ s.draws = 0 := by
  unfold State.construct at h
  split at h
  · cases h
  · rename_i live reserved hd
    split at h
    · cases h
    · rename_i hc
      simp only [Bool.or_eq_true, decide_eq_true_eq, Bool.not_eq_true', not_or, Bool.not_eq_false] at hc
      obtain rfl := Option.some.inj h
      exact ⟨live, reserved, hd, hc.1, hc.2, rfl, rfl, rfl, rfl, rfl, rfl, rfl, rfl, rfl, rfl⟩

end Sys2Proof.Machine
end

