-- ==== Sys2Proof/Laws/PerInstr.lean ====
section
/-! SUPPORT. The family `Shape`: a statement about every operation as syntax, one lemma a constructor. -/

namespace Sys2Proof.Laws.Shape

open Sys2Proof Sys2Proof.Machine

/-- `U[7:4]` of a unit's CTRL codes (R102). -/
def unitCode : CoreUnit → Nat
  | .scan => 1
  | .mbc => 2
  | .snd => 3
  | .rb => 4

/-- The operation's transaction is sent to its own unit: a CTRL code carries the unit's number (R102), and a BUS access the unit and,
on a write and only then, a data byte (R101, R103). -/
def Statement (i : Instr) : Prop :=
  match encode i with
  | .ctrl u _ => u.toNat / 16 = unitCode (unitOf i)
  | .bus .mbc s d => unitOf i = .mbc ∧ d.isSome = selIsWrite s
  | .bus .snd s d => unitOf i = .snd ∧ d.isSome = selIsWrite s

/-- The kind bit of a selector is its first fixed bit. -/
theorem kind_append {n m : Nat} (p : BitVec n) (lo : BitVec m) (hm : m ≤ 16) :
    (p ++ lo).getLsbD 16 = p.getLsbD (16 - m) := by
  rw [BitVec.getLsbD_append, if_neg (by omega)]

/-- An access has a data byte exactly where its kind bit is set (R101). -/
theorem access_shape (acc : Access) : acc.data.isSome = acc.bit.getLsbD 0 := by
  cases acc <;> simp [Access.bit, Access.data]

theorem scanStart : Statement .scanStart := rfl
theorem scanTickY : Statement .scanTickY := rfl
theorem scanTickX : Statement .scanTickX := rfl
theorem scanTickOverrun : Statement .scanTickOverrun := rfl
theorem scanGetSprites : Statement .scanGetSprites := rfl
theorem mbcAccepts (a : Addr) : Statement (.mbcAccepts a) := rfl
theorem mbcSave : Statement .mbcSave := rfl
theorem rtcAdvance : Statement .rtcAdvance := rfl
theorem sndAccepts (a : Addr) : Statement (.sndAccepts a) := rfl
theorem sndTick : Statement .sndTick := rfl
theorem sndToggle (idx : Int) : Statement (.sndToggle idx) := rfl
theorem rbWrite (data : List Byte) (count : Nat) : Statement (.rbWrite data count) := rfl
theorem rbRead (count : Nat) : Statement (.rbRead count) := rfl
theorem rbCount : Statement .rbCount := rfl
theorem mbcRdRom0 (lo : BitVec 14) : Statement (.mbcRdRom0 lo) := ⟨rfl, (kind_append 0b000#3 lo (by decide)).symm⟩
theorem mbcRdRomx (lo : BitVec 14) : Statement (.mbcRdRomx lo) := ⟨rfl, (kind_append 0b001#3 lo (by decide)).symm⟩
theorem mbcRdRam (lo : BitVec 13) : Statement (.mbcRdRam lo) := ⟨rfl, (kind_append 0b0101#4 lo (by decide)).symm⟩
theorem mbcRdRtc (lo : BitVec 13) : Statement (.mbcRdRtc lo) := ⟨rfl, (kind_append 0b0101#4 lo (by decide)).symm⟩
theorem mbcWrRamen (lo : BitVec 13) (d : Byte) : Statement (.mbcWrRamen lo d) := ⟨rfl, (kind_append 0b1000#4 lo (by decide)).symm⟩
theorem mbcWrRomb (lo : BitVec 13) (d : Byte) : Statement (.mbcWrRomb lo d) := ⟨rfl, (kind_append 0b1001#4 lo (by decide)).symm⟩
theorem mbcWrRamb (lo : BitVec 13) (d : Byte) : Statement (.mbcWrRamb lo d) := ⟨rfl, (kind_append 0b1010#4 lo (by decide)).symm⟩
theorem mbcWrLatch (lo : BitVec 13) (d : Byte) : Statement (.mbcWrLatch lo d) := ⟨rfl, (kind_append 0b1011#4 lo (by decide)).symm⟩
theorem mbcWrRam (lo : BitVec 13) (d : Byte) : Statement (.mbcWrRam lo d) := ⟨rfl, (kind_append 0b1101#4 lo (by decide)).symm⟩
theorem mbcWrRtc (lo : BitVec 13) (d : Byte) : Statement (.mbcWrRtc lo d) := ⟨rfl, (kind_append 0b1101#4 lo (by decide)).symm⟩
theorem mbcBad8000 (acc : Access) (lo : BitVec 13) : Statement (.mbcBad8000 acc lo) := ⟨rfl, (access_shape acc).trans (kind_append acc.bit (0b100#3 ++ lo) (by decide)).symm⟩
theorem mbcBadC000 (acc : Access) (lo : BitVec 14) : Statement (.mbcBadC000 acc lo) := ⟨rfl, (access_shape acc).trans (kind_append acc.bit (0b11#2 ++ lo) (by decide)).symm⟩
theorem sndRdChA (lo : BitVec 4) : Statement (.sndRdChA lo) := ⟨rfl, (kind_append 0b0111111110001#13 lo (by decide)).symm⟩
theorem sndRdChB (lo : BitVec 2) : Statement (.sndRdChB lo) := ⟨rfl, (kind_append 0b011111111001000#15 lo (by decide)).symm⟩
theorem sndRdCtl (lo : BitVec 1) : Statement (.sndRdCtl lo) := ⟨rfl, (kind_append 0b0111111110010010#16 lo (by decide)).symm⟩
theorem sndRdNr52 : Statement .sndRdNr52 := ⟨rfl, rfl⟩
theorem sndRdWave (lo : BitVec 4) : Statement (.sndRdWave lo) := ⟨rfl, (kind_append 0b0111111110011#13 lo (by decide)).symm⟩
theorem sndWrChA (lo : BitVec 4) (d : Byte) : Statement (.sndWrChA lo d) := ⟨rfl, (kind_append 0b1111111110001#13 lo (by decide)).symm⟩
theorem sndWrChB (lo : BitVec 2) (d : Byte) : Statement (.sndWrChB lo d) := ⟨rfl, (kind_append 0b111111111001000#15 lo (by decide)).symm⟩
theorem sndWrCtl (lo : BitVec 1) (d : Byte) : Statement (.sndWrCtl lo d) := ⟨rfl, (kind_append 0b1111111110010010#16 lo (by decide)).symm⟩
theorem sndWrNr52 (d : Byte) : Statement (.sndWrNr52 d) := ⟨rfl, rfl⟩
theorem sndWrWave (lo : BitVec 4) (d : Byte) : Statement (.sndWrWave lo d) := ⟨rfl, (kind_append 0b1111111110011#13 lo (by decide)).symm⟩
theorem sndBad (acc : Access) (a : Addr) : Statement (.sndBad acc a) := ⟨rfl, (access_shape acc).trans (kind_append acc.bit a (by decide)).symm⟩

end Sys2Proof.Laws.Shape
end

