-- ==== Sys2Proof/Laws/Ring.lean ====
section
/-! SUPPORT. What storing bytes in the ring and loading them does (44_ring_buffer.md R300, R301). -/

namespace Sys2Proof.Machine

/-- Two offsets less than a lap apart are at different places. -/
theorem add_mod_ne {c w j k : Nat} (hjk : j < k) (hk : k < j + c) : (w + j) % c ≠ (w + k) % c := by
  intro h
  have hd : k - j < c := by omega
  have : (k - j) % c = 0 := by
    have := Nat.sub_mod_eq_zero_of_mod_eq h.symm
    rwa [show w + k - (w + j) = k - j by omega] at this
  rw [Nat.mod_eq_of_lt hd] at this
  omega

@[simp] theorem ringStore_size (buf : Memory) (w : Nat) (l : List Byte) : (ringStore buf w l).size = buf.size := by
  induction l generalizing buf w with
  | nil => rfl
  | cons b l ih => exact (ih _ _).trans (Memory.set_size _ _ _)

theorem ringStore_wf {buf : Memory} (h : buf.wf = true) (w : Nat) (l : List Byte) : (ringStore buf w l).wf = true := by
  induction l generalizing buf w with
  | nil => exact h
  | cons b l ih => exact ih (Memory.set_wf h _ _) _

/-- A place the store does not reach keeps its byte. -/
theorem ringStore_get_other {buf : Memory} (h : buf.wf = true) {w : Nat} {l : List Byte} {o : Nat}
    (ho : ∀ k, k < l.length → o ≠ (w + k) % buf.size) : (ringStore buf w l).get o = buf.get o := by
  induction l generalizing buf w with
  | nil => rfl
  | cons b l ih =>
    refine (ih (Memory.set_wf h _ _) fun k hk => ?_).trans (Memory.get_set_other h (ho 0 (Nat.zero_lt_succ _)) b)
    rw [Memory.set_size, Nat.add_assoc, Nat.add_comm 1 k]
    exact ho (k + 1) (Nat.succ_lt_succ hk)

/-- The `k`-th byte stored is at `(w + k) mod C`, where no more than C are. -/
theorem ringStore_get {buf : Memory} (h : buf.wf = true) {w : Nat} {l : List Byte} (hl : l.length ≤ buf.size) {k : Nat}
    (hk : k < l.length) : (ringStore buf w l).get ((w + k) % buf.size) = l[k] := by
  induction l generalizing buf w k with
  | nil => cases hk
  | cons b l ih =>
    have hl' : l.length + 1 ≤ buf.size := hl
    cases k with
    | zero =>
      have hpos : w % buf.size < buf.size := Nat.mod_lt _ (by omega)
      refine (ringStore_get_other (Memory.set_wf h _ _) fun j hj => ?_).trans (Memory.get_set_same h hpos b)
      rw [Memory.set_size, Nat.add_assoc, Nat.add_comm 1 j]
      exact add_mod_ne (c := buf.size) (w := w) (j := 0) (k := j + 1) (by omega) (by omega)
    | succ k =>
      have hk' : k < l.length := Nat.lt_of_succ_lt_succ hk
      have e := ih (buf := buf.set (w % buf.size) b) (w := w + 1) (Memory.set_wf h _ _)
        (by rw [Memory.set_size]; omega) hk'
      rw [Memory.set_size, Nat.add_assoc, Nat.add_comm 1 k] at e
      exact e

@[simp] theorem ringLoad_length (buf : Memory) (r n : Nat) : (ringLoad buf r n).length = n := by
  induction n generalizing r with
  | zero => rfl
  | succ n ih => exact congrArg (· + 1) (ih _)

/-- The `k`-th byte loaded is the one at `(r + k) mod C`. -/
theorem ringLoad_getElem? (buf : Memory) (r : Nat) {n k : Nat} (hk : k < n) :
    (ringLoad buf r n)[k]? = some (buf.get ((r + k) % buf.size)) := by
  induction n generalizing r k with
  | zero => cases hk
  | succ n ih =>
    cases k with
    | zero => rfl
    | succ k =>
      refine (ih (r + 1) (Nat.lt_of_succ_lt_succ hk)).trans ?_
      rw [Nat.add_assoc, Nat.add_comm 1 k]

/-- Loading more is loading the first part and then the rest. -/
theorem ringLoad_add (buf : Memory) (r m n : Nat) : ringLoad buf r (m + n) = ringLoad buf r m ++ ringLoad buf (r + m) n := by
  induction m generalizing r with
  | zero => simp [ringLoad]
  | succ m ih =>
    rw [Nat.add_right_comm, ringLoad, ih, ringLoad, List.cons_append, Nat.add_assoc r 1 m, Nat.add_comm 1 m]

/-- Only the read cursor's place in the ring matters. -/
theorem ringLoad_mod (buf : Memory) (r n : Nat) : ringLoad buf (r % buf.size) n = ringLoad buf r n := by
  apply List.ext_getElem?
  intro k
  by_cases hk : k < n
  · rw [ringLoad_getElem? _ _ hk, ringLoad_getElem? _ _ hk, Nat.mod_add_mod]
  · rw [List.getElem?_eq_none (by simpa using hk), List.getElem?_eq_none (by simpa using hk)]

@[simp] theorem Rb.put_capacity (r : Rb) (data : List Byte) (count : Nat) : (r.put data count).capacity = r.capacity :=
  ringStore_size _ _ _

@[simp] theorem Rb.drop_capacity (r : Rb) (count : Nat) : (r.drop count).capacity = r.capacity := rfl

end Sys2Proof.Machine
end

