-- ==== Sys2Proof/Laws/Scan.lean ====
section
/-! SUPPORT. What collecting a descriptor and evaluating a slot do (40_sprite_scan.md R143), and the rows of SCAN_TICK. -/

namespace Sys2Proof.Machine

theorem nextSlot_val {i : Fin 41} (h : i.val < 40) : (nextSlot i).val = i.val + 1 := by simp [nextSlot, h]

@[simp] theorem Scan.collect_i (c : Scan) (d : SpriteDescriptor) : (c.collect d).i = c.i := by unfold Scan.collect; split <;> rfl
@[simp] theorem Scan.collect_state (c : Scan) (d : SpriteDescriptor) : (c.collect d).state = c.state := by
  unfold Scan.collect; split <;> rfl
@[simp] theorem Scan.collect_curY (c : Scan) (d : SpriteDescriptor) : (c.collect d).curY = c.curY := by
  unfold Scan.collect; split <;> rfl

/-- A full list takes no descriptor (R143). -/
theorem Scan.collect_full {c : Scan} (h : ¬ c.n.val < 10) (d : SpriteDescriptor) : c.collect d = c := by
  unfold Scan.collect
  rw [dif_neg h]

/-- A list with room takes the descriptor at its end (R143). -/
theorem Scan.collect_room {c : Scan} (h : c.n.val < 10) (d : SpriteDescriptor) :
    (c.collect d).n.val = c.n.val + 1 ∧
      ∀ k : Fin 10, (c.collect d).sprites[k] = if k.val = c.n.val then some d else c.sprites[k] := by
  unfold Scan.collect
  rw [dif_pos h]
  refine ⟨rfl, fun k => ?_⟩
  simp only [Fin.getElem_fin, Vector.getElem_set]
  by_cases hk : k.val = c.n.val
  · rw [if_pos hk, if_pos hk.symm]
  · rw [if_neg hk, if_neg (Ne.symm hk)]

/-- A visible slot is collected, and the scan moves on (R143). -/
theorem Scan.evaluate_visible {c : Scan} {x ly : Byte} {obj16 : Bool}
    (h : visible c.curY.toNat ly.toNat (spriteHeight obj16) = true) :
    c.evaluate x ly obj16 =
      { c.collect ⟨x.toNat, c.curY.toNat, oamAddr c.i.val⟩ with i := nextSlot c.i, state := .readingY } := by
  unfold Scan.evaluate
  rw [if_pos h]

/-- A hidden slot is passed over (R143). -/
theorem Scan.evaluate_hidden {c : Scan} {x ly : Byte} {obj16 : Bool}
    (h : ¬ visible c.curY.toNat ly.toNat (spriteHeight obj16) = true) :
    c.evaluate x ly obj16 = { c with i := nextSlot c.i, state := .readingY } := by
  unfold Scan.evaluate
  rw [if_neg h]

/-- The ReadingY tick's next state (R142). -/
theorem execScanTickY_eq {s : State} (hi : s.scan.i.val < 40) (hs : s.scan.state = .readingY) :
    execScanTickY s = .next
      ((s.setScan { s.scan with curY := memRead s (oamAddr s.scan.i.val), state := .readingX }).answer (.bool true)) := by
  have hc : rowCondition .scanTickY s = true := by simp [rowCondition, hi, hs]
  rw [execScanTickY, if_pos hc]
  rfl

/-- The ReadingX tick's next state (R143). -/
theorem execScanTickX_eq {s : State} (hi : s.scan.i.val < 40) (hs : s.scan.state = .readingX) :
    execScanTickX s = .next
      ((s.setScan (s.scan.evaluate (memRead s (oamAddr s.scan.i.val + 1)) s.env.ly s.env.obj16)).answer
        (.bool (decide (s.scan.i.val + 1 < 40)))) := by
  have hc : rowCondition .scanTickX s = true := by simp [rowCondition, hi, hs]
  have hn (x ly : Byte) (b : Bool) : (s.scan.evaluate x ly b).i.val = s.scan.i.val + 1 := by
    by_cases h : visible s.scan.curY.toNat ly.toNat (spriteHeight b) = true
    · rw [Scan.evaluate_visible h]
      exact nextSlot_val hi
    · rw [Scan.evaluate_hidden h]
      exact nextSlot_val hi
  rw [execScanTickX, if_pos hc]
  simp only [hn]
  rfl

end Sys2Proof.Machine
end

