-- ==== Sys2Proof/Laws/Sound.lean ====
section
/-! SUPPORT. SND's shared operations: what a register access, a tick of the four channels and a power sequence can do. -/

namespace Sys2Proof.Machine

/-! Addresses and their roles (R42, R103). -/

theorem sndRole_of_mapOwns {m : SndMap} (hm : sndMapFormed m = true) {k : Fin 4} {a : Addr} (h : mapOwns m k a) :
    sndRole m a = some (.channel k) := by
  obtain ⟨r, hr, rfl, h⟩ := h
  exact sndRole_of_inRange hm hr ((inRange_iff r a).2 h)

theorem ownerOf_eq_some_iff {m : SndMap} (hm : sndMapFormed m = true) {k : Fin 4} {a : Addr} :
    ownerOf m a = some k ↔ mapOwns m k a := by
  constructor
  · intro h
    obtain ⟨r, hr, rfl⟩ := Option.map_eq_some_iff.1 h
    exact ⟨r, List.mem_of_find?_eq_some hr, rfl, (inRange_iff r a).1 (by simpa using List.find?_some hr)⟩
  · rintro ⟨r, hr, rfl, h⟩
    exact ownerOf_of_inRange hm hr ((inRange_iff r a).2 h)

theorem sndRole_isSome_iff_mapAccepts (m : SndMap) (a : Addr) : (sndRole m a).isSome = true ↔ mapAccepts m a := by
  rw [sndRole_isSome_iff, mapAccepts]
  simp only [mapOwns, inRange_iff]
  refine or_congr_right (or_congr_right (or_congr_right ⟨?_, ?_⟩))
  · rintro ⟨r, hr, h⟩; exact ⟨r.channel, r, hr, rfl, h⟩
  · rintro ⟨-, r, hr, -, h⟩; exact ⟨r, hr, h⟩

theorem sndRole_eq_none_iff (m : SndMap) (a : Addr) : sndRole m a = none ↔ ¬ mapAccepts m a := by
  rw [← sndRole_isSome_iff_mapAccepts]
  cases sndRole m a <;> simp

/-! The bus rows: each is the access its transaction makes. -/

/-- An SND access at an address, of either kind. -/
def sndAccessAt (acc : Access) (a : Addr) (s : State) : Host.Outcome State Fault Refusal :=
  match acc with
  | .read => sndRead a s
  | .write d => sndWrite a d s

/-- The access each SND row's transaction makes (R101). -/
theorem sndAccess_rows :
    (∀ lo, sndAccess (.sndRdChA lo) = some (.read, chAAddr lo)) ∧ (∀ lo, sndAccess (.sndRdChB lo) = some (.read, chBAddr lo)) ∧
    (∀ lo, sndAccess (.sndRdCtl lo) = some (.read, ctlAddr lo)) ∧ sndAccess .sndRdNr52 = some (.read, nr52Addr) ∧
    (∀ lo, sndAccess (.sndRdWave lo) = some (.read, waveAddr lo)) ∧
    (∀ lo d, sndAccess (.sndWrChA lo d) = some (.write d, chAAddr lo)) ∧
    (∀ lo d, sndAccess (.sndWrChB lo d) = some (.write d, chBAddr lo)) ∧
    (∀ lo d, sndAccess (.sndWrCtl lo d) = some (.write d, ctlAddr lo)) ∧ (∀ d, sndAccess (.sndWrNr52 d) = some (.write d, nr52Addr)) ∧
    (∀ lo d, sndAccess (.sndWrWave lo d) = some (.write d, waveAddr lo)) ∧ ∀ acc a, sndAccess (.sndBad acc a) = some (acc, a) := by
  have any (b : BitVec 1) (a : Addr) : selAddr (b ++ a) = a :=
    BitVec.eq_of_toNat_eq (by rw [selAddr, BitVec.toNat_setWidth, toNat_append_eq_add]; have := a.isLt; omega)
  have a1 : ∀ lo : BitVec 4, selAddr (0b0111111110001#13 ++ lo) = chAAddr lo := by decide
  have a2 : ∀ lo : BitVec 2, selAddr (0b011111111001000#15 ++ lo) = chBAddr lo := by decide
  have a3 : ∀ lo : BitVec 1, selAddr (0b0111111110010010#16 ++ lo) = ctlAddr lo := by decide
  have a4 : ∀ lo : BitVec 4, selAddr (0b0111111110011#13 ++ lo) = waveAddr lo := by decide
  have b1 : ∀ lo : BitVec 4, selAddr (0b1111111110001#13 ++ lo) = chAAddr lo := by decide
  have b2 : ∀ lo : BitVec 2, selAddr (0b111111111001000#15 ++ lo) = chBAddr lo := by decide
  have b3 : ∀ lo : BitVec 1, selAddr (0b1111111110010010#16 ++ lo) = ctlAddr lo := by decide
  have b4 : ∀ lo : BitVec 4, selAddr (0b1111111110011#13 ++ lo) = waveAddr lo := by decide
  refine ⟨fun lo => by rw [← a1]; rfl, fun lo => by rw [← a2]; rfl, fun lo => by rw [← a3]; rfl, rfl, fun lo => by rw [← a4]; rfl,
    fun lo d => by rw [← b1]; rfl, fun lo d => by rw [← b2]; rfl, fun lo d => by rw [← b3]; rfl, fun _ => rfl,
    fun lo d => by rw [← b4]; rfl, fun acc a => ?_⟩
  cases acc <;> exact congrArg (fun x => some (_, x)) (any _ a)

/-- An SND bus operation runs as the access its transaction makes (R101, R103). -/
theorem exec_of_sndAccess {i : Instr} {acc : Access} {a : Addr} (h : sndAccess i = some (acc, a)) (s : State) :
    exec i s = sndAccessAt acc a s := by
  obtain ⟨h1, h2, h3, h4, h5, h6, h7, h8, h9, h10, h11⟩ := sndAccess_rows
  cases i
  case sndRdChA lo => cases (h1 lo).symm.trans h; rfl
  case sndRdChB lo => cases (h2 lo).symm.trans h; rfl
  case sndRdCtl lo => cases (h3 lo).symm.trans h; rfl
  case sndRdNr52 => cases h4.symm.trans h; rfl
  case sndRdWave lo => cases (h5 lo).symm.trans h; rfl
  case sndWrChA lo d => cases (h6 lo d).symm.trans h; rfl
  case sndWrChB lo d => cases (h7 lo d).symm.trans h; rfl
  case sndWrCtl lo d => cases (h8 lo d).symm.trans h; rfl
  case sndWrNr52 d => cases (h9 d).symm.trans h; rfl
  case sndWrWave lo d => cases (h10 lo d).symm.trans h; rfl
  case sndBad c b => cases (h11 c b).symm.trans h; cases acc <;> rfl
  all_goals cases h

/-- A read that completes returns a byte and changes nothing (R253, R254, R255). -/
theorem sndRead_cases {a : Addr} {s t : State} (h : sndRead a s = .next t) : ∃ v, t = s.answer (.byte v) := by
  unfold sndRead at h
  split at h
  all_goals first | exact ⟨_, (finish_eq_next _ _ _).1 h⟩ | exact absurd h (raise_ne_next _ _)

/-- A write that completes is what its address's role says (R256, R259, R261). -/
theorem sndWrite_cases {a : Addr} {d : Byte} {s t : State} (h : sndWrite a d s = .next t) :
    t = (writeMaster d s).answer .nothing ∨
      (∃ k, ownerOf s.params.sndMap a = some k ∧ t = (s.writeChannel k a d).answer .nothing) ∨
      t = (s.setSnd { s.snd with nr50 := d }).answer .nothing ∨ t = (s.setSnd { s.snd with nr51 := d }).answer .nothing := by
  unfold sndWrite at h
  split at h
  · exact .inl ((finish_eq_next _ _ _).1 h)
  · rename_i k hk
    refine .inr (.inl ⟨k, ?_, (finish_eq_next _ _ _).1 h⟩)
    unfold sndRole at hk
    split at hk
    · cases hk
    · split at hk
      · cases hk; assumption
      · split at hk
        · cases hk
        · split at hk <;> cases hk
  · exact .inr (.inr (.inl ((finish_eq_next _ _ _).1 h)))
  · exact .inr (.inr (.inr ((finish_eq_next _ _ _).1 h)))
  · exact absurd h (raise_ne_next _ _)

/-! One channel call (R264). -/

/-- The raw bytes after a write of a channel: the byte at its address, every other as it was. -/
theorem writeChannel_get {s : State} (hw : s.snd.Inv) (k : Fin 4) (a : Addr) (v : Byte) (j : Fin 4) (o : Nat) :
    (s.writeChannel k a v).snd.ch[j].regs.get o = if j = k ∧ o = a.toNat then v else s.snd.ch[j].regs.get o := by
  have e : (s.writeChannel k a v).snd.ch[j] = if j = k then (s.channel k).write a v else s.snd.ch[j] := getElem_set_fin _ _ _ _
  rw [e]
  by_cases h : j = k
  · subst h
    have hc : s.channel j = s.snd.ch[j] := rfl
    rw [if_pos rfl, Channel.write_regs, hc, Memory.get_set (hw j).1, (hw j).2]
    have : a.toNat < 0x10000 := a.isLt
    simp only [this, and_true, true_and]
  · simp [h]

/-- A write of a channel keeps the files canonical. -/
theorem writeChannel_inv {s : State} (hw : s.snd.Inv) (k : Fin 4) (a : Addr) (v : Byte) : (s.writeChannel k a v).snd.Inv := by
  intro j
  have e : (s.writeChannel k a v).snd.ch[j] = if j = k then (s.channel k).write a v else s.snd.ch[j] := getElem_set_fin _ _ _ _
  rw [e]
  split
  · exact ⟨Memory.set_wf (hw k).1 _ _, (Memory.set_size _ _ _).trans (hw k).2⟩
  · exact hw j

/-- `s` with other channels and more calls recorded. -/
def State.withChannels (s : State) (ch : Vector Channel 4) (calls : List Call) : State :=
  { s with snd := { s.snd with ch := ch }, trace := s.trace ++ calls }

/-- Four entries that agree one by one. -/
theorem vector4_ext {α : Type} {v w : Vector α 4} (h : ∀ k : Fin 4, v[k] = w[k]) : v = w :=
  Vector.ext fun i hi => h ⟨i, hi⟩

/-- Each channel's start in order (R258). -/
theorem startAll_eq (s : State) : channelOrder.foldl State.startChannel s =
    s.withChannels (s.snd.ch.map Channel.start) [.channelStart 0, .channelStart 1, .channelStart 2, .channelStart 3] := by
  have h : (channelOrder.foldl State.startChannel s).snd.ch = s.snd.ch.map Channel.start := by
    apply vector4_ext
    intro k
    match k with
    | 0 | 1 | 2 | 3 => simp [channelOrder, State.startChannel, State.setChannel, State.channel]
  rw [State.withChannels, ← h]
  simp [channelOrder, State.startChannel, State.setChannel, State.setSnd, State.record]

/-- Each channel's stop in order (R257). -/
theorem stopAll_eq (s : State) : channelOrder.foldl State.stopChannel s =
    s.withChannels (s.snd.ch.map Channel.stop) [.channelStop 0, .channelStop 1, .channelStop 2, .channelStop 3] := by
  have h : (channelOrder.foldl State.stopChannel s).snd.ch = s.snd.ch.map Channel.stop := by
    apply vector4_ext
    intro k
    match k with
    | 0 | 1 | 2 | 3 => simp [channelOrder, State.stopChannel, State.setChannel, State.channel]
  rw [State.withChannels, ← h]
  simp [channelOrder, State.stopChannel, State.setChannel, State.setSnd, State.record]

/-- Each channel's tick in order, the levels stored (R251). -/
theorem tickAll_eq (s : State) : channelOrder.foldl State.tickChannel s =
    (s.setSnd { s.snd with out := s.snd.ch.map fun c => c.tick.1 }).withChannels (s.snd.ch.map fun c => c.tick.2)
      [.channelTick 0, .channelTick 1, .channelTick 2, .channelTick 3] := by
  have h : (channelOrder.foldl State.tickChannel s).snd.ch = s.snd.ch.map fun c => c.tick.2 := by
    apply vector4_ext
    intro k
    match k with
    | 0 | 1 | 2 | 3 => simp [channelOrder, State.tickChannel, State.channel]
  have ho : (channelOrder.foldl State.tickChannel s).snd.out = s.snd.ch.map fun c => c.tick.1 := by
    apply vector4_ext
    intro k
    match k with
    | 0 | 1 | 2 | 3 => simp [channelOrder, State.tickChannel, State.channel]
  rw [State.withChannels, ← h, ← ho]
  simp [channelOrder, State.tickChannel, State.setSnd, State.record]

/-- PowerOff: every channel stopped, no raw byte changed (R257). -/
theorem powerOff_eq (s : State) : powerOff s = s.withChannels (s.snd.ch.map Channel.stop)
    [.channelStop 0, .channelStop 1, .channelStop 2, .channelStop 3, .sinkStop] := by
  rw [powerOff, stopAll_eq]
  simp [State.withChannels, State.record]

/-! The PowerOn register sequence (R258), under a map `m`. -/

/-- The byte PowerOn leaves at a channel's address. -/
def cleared (m : SndMap) (a : Addr) (raw : Byte) : Byte := ((lengthMask m a).map fun v => raw &&& v).getD 0x00

theorem cleared_cleared (m : SndMap) (a : Addr) (raw : Byte) : cleared m a (cleared m a raw) = cleared m a raw := by
  unfold cleared
  cases lengthMask m a with
  | none => rfl
  | some v => simp [BitVec.and_assoc]

theorem powerOnValue_of_owner {s : State} {a : Addr} {k : Fin 4} (h : ownerOf s.params.sndMap a = some k) :
    powerOnValue s a = cleared s.params.sndMap a (s.snd.ch[k].regs.get a.toNat) := by
  unfold powerOnValue cleared
  cases lengthMask s.params.sndMap a <;> simp [rawByte, h, State.channel, Channel.read]

/-- An address no channel owns is written 0x00, NR50 and NR51 among them (R258). -/
theorem powerOnValue_of_none {s : State} {a : Addr} (h : ownerOf s.params.sndMap a = none) : powerOnValue s a = 0x00 := by
  unfold powerOnValue
  cases lengthMask s.params.sndMap a <;> simp [rawByte, h]

/-- The write PowerOn makes at an address of a channel. -/
def powerOnCall (s : State) (a : Addr) : Option (Fin 4 × Addr × Byte) :=
  (ownerOf s.params.sndMap a).map fun k => (k, a, powerOnValue s a)

/-- The record of such a write. -/
def writeCall (w : Fin 4 × Addr × Byte) : Call := .channelWrite w.1 w.2.1 w.2.2

/-- `t` is `s` but for SND's control registers and channels, and the calls recorded. -/
def registersOnly (s t : State) : Prop :=
  ∃ x y ch tr, t = { s with snd := { s.snd with nr50 := x, nr51 := y, ch := ch }, trace := tr }

theorem registersOnly.refl (s : State) : registersOnly s s := ⟨_, _, _, _, rfl⟩

theorem registersOnly.trans {s t u : State} (h : registersOnly s t) (g : registersOnly t u) : registersOnly s u := by
  obtain ⟨x, y, ch, tr, rfl⟩ := h
  obtain ⟨x', y', ch', tr', rfl⟩ := g
  exact ⟨x', y', ch', tr', rfl⟩

theorem registersOnly.params {s t : State} (h : registersOnly s t) : t.params = s.params := by
  obtain ⟨x, y, ch, tr, rfl⟩ := h
  rfl

theorem powerOnWrite_registersOnly (s : State) (b : Addr) : registersOnly s (powerOnWrite s b) := by
  unfold powerOnWrite
  split
  · exact ⟨_, s.snd.nr51, s.snd.ch, s.trace, rfl⟩
  split
  · exact ⟨s.snd.nr50, _, s.snd.ch, s.trace, rfl⟩
  split
  · exact ⟨s.snd.nr50, s.snd.nr51, _, _, rfl⟩
  · exact registersOnly.refl s

theorem powerOnWrites_registersOnly (s : State) (l : List Addr) : registersOnly s (l.foldl powerOnWrite s) := by
  induction l generalizing s with
  | nil => exact registersOnly.refl s
  | cons b l ih => exact (powerOnWrite_registersOnly s b).trans (ih _)

/-- PowerOn as the register sequence and the start calls. -/
theorem powerOn_eq (s : State) : powerOn s = (((powerOnAddrs s.params.sndMap).foldl powerOnWrite s).withChannels
    (((powerOnAddrs s.params.sndMap).foldl powerOnWrite s).snd.ch.map Channel.start)
    [.channelStart 0, .channelStart 1, .channelStart 2, .channelStart 3]).record .sinkStart := by
  rw [powerOn, startAll_eq]

/-- PowerOn touches SND's control registers and channels and makes calls, in every state (R258). -/
theorem powerOn_registersOnly (s : State) : registersOnly s (powerOn s) := by
  have h := powerOnWrites_registersOnly s (powerOnAddrs s.params.sndMap)
  rw [powerOn_eq]
  generalize (powerOnAddrs s.params.sndMap).foldl powerOnWrite s = u at *
  exact h.trans ⟨_, _, _, _, rfl⟩

/-- What one address of the sequence does. -/
theorem powerOnWrite_spec {s : State} (hw : s.snd.Inv) {m : SndMap} (e : s.params.sndMap = m) (hm : sndMapFormed m = true) (b : Addr) :
    (powerOnWrite s b).snd.Inv ∧
    (∀ (a : Addr) (k : Fin 4), ownerOf m a = some k → (powerOnWrite s b).snd.ch[k].regs.get a.toNat =
      if a = b then cleared m a (s.snd.ch[k].regs.get a.toNat) else s.snd.ch[k].regs.get a.toNat) ∧
    (powerOnWrite s b).snd.nr50 = (if b = m.nr50 then 0x00 else s.snd.nr50) ∧
    (powerOnWrite s b).snd.nr51 = (if b = m.nr51 then 0x00 else s.snd.nr51) ∧
    (powerOnWrite s b).trace = s.trace ++ (powerOnCall s b).toList.map writeCall := by
  obtain ⟨o50, o51, -, -, -, -, h50lt⟩ := sndMapFormed_control hm
  have n01 : m.nr50 ≠ m.nr51 := fun x => by rw [x] at h50lt; exact absurd h50lt (Nat.lt_irrefl _)
  have ne {a c : Addr} {k : Fin 4} (ha : ownerOf m a = some k) (hc : ownerOf m c = none) : a ≠ c := by
    rintro rfl; rw [hc] at ha; cases ha
  subst e
  unfold powerOnWrite powerOnCall
  by_cases h50 : b = s.params.sndMap.nr50
  · subst h50
    rw [if_pos rfl, powerOnValue_of_none o50]
    exact ⟨hw, fun a k ha => by simp [ne ha o50], by simp, by simp [n01], by simp [o50]⟩
  by_cases h51 : b = s.params.sndMap.nr51
  · subst h51
    rw [if_neg h50, if_pos rfl, powerOnValue_of_none o51]
    exact ⟨hw, fun a k ha => by simp [ne ha o51], by simp [h50], by simp, by simp [o51]⟩
  rw [if_neg h50, if_neg h51]
  cases ho : ownerOf s.params.sndMap b with
  | none => exact ⟨hw, fun a k ha => by simp [ne ha ho], by simp [h50], by simp [h51], by simp⟩
  | some j =>
    refine ⟨writeChannel_inv hw _ _ _, fun a k ha => ?_, by simp [h50]; rfl, by simp [h51]; rfl, ?_⟩
    · simp only [writeChannel_get hw]
      by_cases hab : a = b
      · subst hab
        rw [ho] at ha
        cases ha
        simp [powerOnValue_of_owner ho]
      · have : a.toNat ≠ b.toNat := fun e => hab (BitVec.eq_of_toNat_eq e)
        simp [hab, this]
    · simp [State.writeChannel, State.setChannel, writeCall]

/-- A write leaves what the sequence writes elsewhere, and again there, the same. -/
theorem powerOnValue_powerOnWrite {s : State} (hw : s.snd.Inv) (hm : sndMapFormed s.params.sndMap = true) (a b : Addr) :
    powerOnValue (powerOnWrite s b) a = powerOnValue s a := by
  have e := (powerOnWrite_registersOnly s b).params
  cases ha : ownerOf s.params.sndMap a with
  | none => rw [powerOnValue_of_none ha, powerOnValue_of_none (by rw [e]; exact ha)]
  | some k =>
    rw [powerOnValue_of_owner ha, powerOnValue_of_owner (by rw [e]; exact ha), e, (powerOnWrite_spec hw rfl hm b).2.1 a k ha]
    split
    · exact cleared_cleared _ _ _
    · rfl

/-- What the sequence does over a list of addresses. -/
theorem powerOnWrites_spec {s : State} (hw : s.snd.Inv) {m : SndMap} (e : s.params.sndMap = m) (hm : sndMapFormed m = true)
    (l : List Addr) :
    (l.foldl powerOnWrite s).snd.Inv ∧
    (∀ (a : Addr) (k : Fin 4), ownerOf m a = some k → (l.foldl powerOnWrite s).snd.ch[k].regs.get a.toNat =
      if a ∈ l then cleared m a (s.snd.ch[k].regs.get a.toNat) else s.snd.ch[k].regs.get a.toNat) ∧
    (l.foldl powerOnWrite s).snd.nr50 = (if m.nr50 ∈ l then 0x00 else s.snd.nr50) ∧
    (l.foldl powerOnWrite s).snd.nr51 = (if m.nr51 ∈ l then 0x00 else s.snd.nr51) ∧
    (l.foldl powerOnWrite s).trace = s.trace ++ (l.filterMap (powerOnCall s)).map writeCall := by
  induction l generalizing s with
  | nil => exact ⟨hw, fun a k ha => by simp, by simp, by simp, by simp⟩
  | cons b l ih =>
    obtain ⟨h1, h2, h3, h4, h5⟩ := powerOnWrite_spec hw e hm b
    have e' := (powerOnWrite_registersOnly s b).params
    obtain ⟨g1, g2, g3, g4, g5⟩ := ih h1 (by rw [e', e])
    refine ⟨g1, fun a k ha => ?_, ?_, ?_, ?_⟩
    · rw [List.foldl_cons, g2 a k ha, h2 a k ha]
      by_cases hab : a = b
      · subst hab
        simp [cleared_cleared]
      · simp [hab]
    · rw [List.foldl_cons, g3, h3]
      by_cases hb : b = m.nr50
      · simp [hb]
      · simp [hb, Ne.symm hb]
    · rw [List.foldl_cons, g4, h4]
      by_cases hb : b = m.nr51
      · simp [hb]
      · simp [hb, Ne.symm hb]
    · have e'' : powerOnCall (powerOnWrite s b) = powerOnCall s := by
        funext a
        simp only [powerOnCall, powerOnValue_powerOnWrite hw (e ▸ hm), e']
      rw [List.foldl_cons, g5, h5, e'', List.append_assoc, List.filterMap_cons]
      cases powerOnCall s b <;> simp

/-- PowerOn: the register sequence, then the channels and the sink started (R258). -/
theorem powerOn_spec {s : State} (hw : s.snd.Inv) {m : SndMap} (hs : s.params.sndMap = m) (hm : sndMapFormed m = true) :
    (powerOn s).snd.Inv ∧
    (∀ (a : Addr) (k : Fin 4), ownerOf m a = some k → (powerOn s).snd.ch[k].regs.get a.toNat =
      if a ∈ powerOnAddrs m then cleared m a (s.snd.ch[k].regs.get a.toNat) else s.snd.ch[k].regs.get a.toNat) ∧
    (powerOn s).snd.nr50 = 0x00 ∧ (powerOn s).snd.nr51 = 0x00 ∧
    (powerOn s).trace = s.trace ++ ((powerOnAddrs m).filterMap (powerOnCall s)).map writeCall ++
      [.channelStart 0, .channelStart 1, .channelStart 2, .channelStart 3, .sinkStart] := by
  obtain ⟨-, -, -, -, -, h10, h50⟩ := sndMapFormed_control hm
  obtain ⟨h1, h2, h3, h4, h5⟩ := powerOnWrites_spec hw hs hm (powerOnAddrs m)
  have e := powerOn_eq s
  rw [hs] at e
  generalize (powerOnAddrs m).foldl powerOnWrite s = u at *
  have er (k : Fin 4) : (powerOn s).snd.ch[k].regs = u.snd.ch[k].regs := by
    rw [e]
    simp [State.withChannels]
  refine ⟨fun k => ?_, fun a k ha => ?_, ?_, ?_, ?_⟩
  · rw [Channel.Inv, er]
    exact h1 k
  · rw [er]
    exact h2 a k ha
  · rw [e]
    exact h3.trans (if_pos ((mem_powerOnAddrs _ _).2 ⟨h10, h50.le⟩))
  · rw [e]
    exact h4.trans (if_pos ((mem_powerOnAddrs _ _).2 ⟨by omega, le_rfl⟩))
  · rw [e]
    simp only [State.withChannels, State.record_trace, h5, List.append_assoc]
    rfl

end Sys2Proof.Machine
end

