-- ==== Sys2Proof/Laws/Step.lean ====
section
/-! SUPPORT. What one step can do (00_scope.md R10, 60_exceptions.md R339). -/

namespace Sys2Proof.Machine

/-- A step that completes leaves the state as it is (no turn), or changes the ports and perhaps the host's inputs (a turn without
an operation), or is one operation's `exec` from a state that differs in the ports alone. -/
theorem step_cases {s t : State} (h : step s = .next t) :
    t = s ∨ (∃ p, t = s.setPorts p) ∨ (∃ i p, t = (s.setEnv (s.env.apply i)).setPorts p) ∨
      ∃ i p, exec i (s.setPorts p) = .next t := by
  simp only [step, fetch] at h
  split at h
  · exact .inl (Host.Outcome.next.inj h).symm
  · rename_i hf
    cases Host.Outcome.next.inj h
    split at hf
    · cases hf
    · split at hf <;> cases hf
      · exact .inr (.inl ⟨_, rfl⟩)
      · exact .inr (.inr (.inl ⟨_, _, rfl⟩))
    · split at hf <;> cases hf
      exact .inr (.inl ⟨_, rfl⟩)
  · rename_i hf
    split at hf
    · cases hf
    · split at hf <;> cases hf
    · split at hf <;> cases hf
      split at h
      · cases h
      · exact .inr (.inr (.inr ⟨_, _, h⟩))

/-- A step's fault is an operation's. -/
theorem step_fault_cases {s : State} {f : Fault} (h : step s = .fault f) : ∃ i p, exec i (s.setPorts p) = .fault f := by
  simp only [step, fetch] at h
  split at h
  · cases h
  · cases h
  · rename_i hf
    split at hf
    · cases hf
    · split at hf <;> cases hf
    · split at hf <;> cases hf
      split at h
      · cases h
      · exact ⟨_, _, h⟩

/-- A request resolves to the row the state selects, where R1 gives it to the agent (R103, R1). -/
theorem resolve_ok_iff {a : Agent} {w : Wire} {s : State} {i : Instr} :
    resolve a w s = .ok i ↔ ∃ j, decode w = .ok j ∧ mayIssue a (selectRow s j) = true ∧ i = selectRow s j := by
  unfold resolve
  constructor
  · intro h
    split at h
    · cases h
    · split at h
      · exact ⟨_, by assumption, by assumption, (Except.ok.inj h).symm⟩
      · cases h
  · rintro ⟨j, hj, hm, rfl⟩
    rw [hj]
    exact if_pos hm

end Sys2Proof.Machine
end

