-- ==== Sys2Proof/Tests/Slice0.lean ====
section
/-! SUPPORT. Small tests: words written out bit by bit from 30_encoding.md, one step of each operation on the vectors of
95_test_vectors.md (each theorem names its vector), and a witness for every statement that has hypotheses. -/

namespace Sys2Proof.Tests

open Sys2Proof Sys2Proof.Machine

/-! ## Helpers -/

abbrev Out := Host.Outcome State Fault Refusal

/-- The result of an operation that completed. -/
def resultOf : Out → Option Result
  | .next t => some t.result
  | _ => none

/-- A part of the state an operation left. -/
def partOf {α : Type} (f : State → α) : Out → Option α
  | .next t => some (f t)
  | _ => none

def faultOf : Out → Option Fault
  | .fault f => some f
  | _ => none

def refusalOf : Out → Option Refusal
  | .refused r => some r
  | _ => none

/-- One operation after another, while they complete. -/
def thenExec (o : Out) (i : Instr) : Out :=
  match o with
  | .next t => exec i t
  | o => o

/-- The channel test model of 95_test_vectors.md. -/
def testChannel (level : Int) (active : Bool) (regs : List Host.Cell) : Channel := ⟨.steady level active, ⟨0x10000, regs⟩, 0⟩

/-- SND as in vectors A1 to A5 and A7: levels (15, 7, 0, 3), A = (true, false, true, false). -/
def testSnd (enabled : Bool) : Snd :=
  ⟨enabled, #v[0, 0, 0, 0], #v[true, true, true, true], 0x73, 0x96,
    #v[testChannel 15 true [(0xFF11, 0xE5), (0xFF12, 0xF3), (0xFF13, 0x12)], testChannel 7 false [(0xFF16, 0xC1)],
      testChannel 0 true [(0xFF1B, 0xAB), (0xFF30, 0x9C)], testChannel 3 false [(0xFF20, 0xFF)]]⟩

/-- MBC as in the M vectors: the 64 KiB image, 0x8000 bytes of RAM with one byte set, the RTC of M20 to M31. -/
def testMbc : Mbc :=
  { Mbc.reset with
    ramWriteEnabled := true
    ram := ⟨0x8000, [(0x0000, 0x5A)]⟩
    rom := ⟨0x10000, [(0x3FFF, 0xAA), (0x4000, 0x01), (0x8000, 0x02), (0xC000, 0x03), (0xFFFF, 0xBB)]⟩
    live := ⟨42, 7, 13, 0x1FF, true, true⟩ }

/-- SCAN in the middle of a line: slot 0 collected, the Y byte of slot 3 read. -/
def testScan : Scan :=
  ⟨.readingX, 3, 0x10, #v[some ⟨8, 16, 0xFE00⟩, none, none, none, none, none, none, none, none, none], 1⟩

/-- A state in which every unit is at work. -/
def busy : State :=
  { State.reset with
    scan := testScan
    mbc := testMbc
    snd := testSnd true
    rb := ⟨⟨4, [(0, 1), (1, 2), (2, 3)]⟩, 3, 0, 3⟩
    env := ⟨⟨0x10000, [(0xFE00, 0x10), (0xFE01, 0x08), (0xFE0C, 0x10), (0xFE0D, 0x50)]⟩, 0x00, false⟩ }

/-- A sound map other than the default: two sub-ranges, one length register, NR52 above the wave bytes (R42). -/
def movedMap : SndMap :=
  ⟨[⟨0xFF27, 0xFF2A, 0⟩, ⟨0xFF30, 0xFF3F, 2⟩], 0xFF27, 0xFF2B, 0xFF2D, 0xFF40, [(0xFF28, 0x0F)]⟩

/-- `busy` under `movedMap`, with registers of `CH[1]` set. -/
def moved (enabled : Bool) : State :=
  { busy with
    params := { busy.params with sndMap := movedMap }
    snd := { testSnd enabled with
      ch := (testSnd enabled).ch.set 0 (testChannel 15 true [(0xFF27, 0xE5), (0xFF28, 0xF3), (0xFF2A, 0x12)]) } }

/-- `busy` with the RAM or RTC window switched. -/
def selected (d : Byte) : State := busy.setMbc { busy.mbc with selectedRamBank := d }

/-- `busy` with another scan state. -/
def scanAt (p : ScanPhase) (i : Fin 41) (y : Byte) : State := busy.setScan { busy.scan with state := p, i := i, curY := y }

/-- `busy` with another live clock. -/
def clockAt (c : Clock) : State := busy.setMbc { busy.mbc with live := c }

/-- `busy` with requests pending and turns listed. -/
def ported (turns : List Turn) (emu audio : List Wire) (host : List HostInput) : State :=
  busy.setPorts { Ports.idle with turns := turns, emu := emu, audio := audio, host := host }

/-! ## WellFormed: the one check, and what it refuses -/

/-- SND accepts 0xFF26, so SND_BAD at it is no operation (R262). -/
theorem test_wellFormed_refuses_accepted_address : (Instr.sndBad .read 0xFF26).wellFormed = false := by decide

theorem test_wellFormed_takes_unaccepted_address : (Instr.sndBad (.write 0x00) 0xFF2F).wellFormed = true := by decide

/-! ## Decoding: each constructor from a word written out bit by bit -/

/-- Kind, then address bits 15..0: E2 to E5, E8, E9. -/
theorem test_decode_mbc_reads :
    decode (.bus .mbc 0b00000000000000000 none) = .ok (.mbcRdRom0 0x0000) ∧
    decode (.bus .mbc 0b00011111111111111 none) = .ok (.mbcRdRom0 0x3FFF) ∧
    decode (.bus .mbc 0b00100000000000000 none) = .ok (.mbcRdRomx 0x0000) ∧
    decode (.bus .mbc 0b00111111111111111 none) = .ok (.mbcRdRomx 0x3FFF) ∧
    decode (.bus .mbc 0b01010000000000000 none) = .ok (.mbcRdRam 0x0000) ∧
    decode (.bus .mbc 0b01011111111111111 none) = .ok (.mbcRdRam 0x1FFF) := by decide

/-- E12 to E16. -/
theorem test_decode_mbc_writes :
    decode (.bus .mbc 0b10001111111111111 (some 0x0A)) = .ok (.mbcWrRamen 0x1FFF 0x0A) ∧
    decode (.bus .mbc 0b10011111111111111 (some 0x01)) = .ok (.mbcWrRomb 0x1FFF 0x01) ∧
    decode (.bus .mbc 0b10101111111111111 (some 0x08)) = .ok (.mbcWrRamb 0x1FFF 0x08) ∧
    decode (.bus .mbc 0b10111111111111111 (some 0x01)) = .ok (.mbcWrLatch 0x1FFF 0x01) ∧
    decode (.bus .mbc 0b11011111111111111 (some 0x00)) = .ok (.mbcWrRam 0x1FFF 0x00) := by decide

/-- E6, E7, E10, E11. -/
theorem test_decode_mbc_bad :
    decode (.bus .mbc 0b01000000000000000 none) = .ok (.mbcBad8000 .read 0x0000) ∧
    decode (.bus .mbc 0b11001111111111111 (some 0x00)) = .ok (.mbcBad8000 (.write 0x00) 0x1FFF) ∧
    decode (.bus .mbc 0b01100000000000000 none) = .ok (.mbcBadC000 .read 0x0000) ∧
    decode (.bus .mbc 0b11111111111111111 (some 0x00)) = .ok (.mbcBadC000 (.write 0x00) 0x3FFF) := by decide

/-- E17, E19 to E21, E23. -/
theorem test_decode_snd_reads :
    decode (.bus .snd 0b01111111100100110 none) = .ok .sndRdNr52 ∧
    decode (.bus .snd 0b01111111100011111 none) = .ok (.sndRdChA 0xF) ∧
    decode (.bus .snd 0b01111111100100011 none) = .ok (.sndRdChB 0x3) ∧
    decode (.bus .snd 0b01111111100100100 none) = .ok (.sndRdCtl 0) ∧
    decode (.bus .snd 0b01111111100111111 none) = .ok (.sndRdWave 0xF) := by decide

/-- E18, E22, and R256, R259's rows. -/
theorem test_decode_snd_writes :
    decode (.bus .snd 0b11111111100100110 (some 0x80)) = .ok (.sndWrNr52 0x80) ∧
    decode (.bus .snd 0b11111111100010010 (some 0xF3)) = .ok (.sndWrChA 0x2 0xF3) ∧
    decode (.bus .snd 0b11111111100100000 (some 0x3F)) = .ok (.sndWrChB 0x0 0x3F) ∧
    decode (.bus .snd 0b11111111100100101 (some 0x00)) = .ok (.sndWrCtl 1 0x00) ∧
    decode (.bus .snd 0b11111111100110000 (some 0x9C)) = .ok (.sndWrWave 0x0 0x9C) := by decide

/-- E24 to E27. -/
theorem test_decode_snd_bad :
    decode (.bus .snd 0b01111111100100111 none) = .ok (.sndBad .read 0xFF27) ∧
    decode (.bus .snd 0b11111111100101111 (some 0x00)) = .ok (.sndBad (.write 0x00) 0xFF2F) ∧
    decode (.bus .snd 0b01111111100001111 none) = .ok (.sndBad .read 0xFF0F) ∧
    decode (.bus .snd 0b01111111101000000 none) = .ok (.sndBad .read 0xFF40) := by decide

/-- The codes of R102: the unit in the high nibble, the operation in the low one. -/
theorem test_decode_ctrl_scan_mbc :
    decode (.ctrl 0b00010000 .nothing) = .ok .scanStart ∧
    decode (.ctrl 0b00010001 .nothing) = .ok .scanTickY ∧
    decode (.ctrl 0b00010010 .nothing) = .ok .scanGetSprites ∧
    decode (.ctrl 0b00100000 (.address 0xA123)) = .ok (.mbcAccepts 0xA123) ∧
    decode (.ctrl 0b00100001 .nothing) = .ok .mbcSave ∧
    decode (.ctrl 0b00100010 .nothing) = .ok .rtcAdvance := by decide

theorem test_decode_ctrl_snd_rb :
    decode (.ctrl 0b00110000 (.address 0xFF25)) = .ok (.sndAccepts 0xFF25) ∧
    decode (.ctrl 0b00110001 .nothing) = .ok .sndTick ∧
    decode (.ctrl 0b00110010 (.channel 4)) = .ok (.sndToggle 4) ∧
    decode (.ctrl 0b01000001 (.bytes [1, 2, 3] 3)) = .ok (.rbWrite [1, 2, 3] 3) ∧
    decode (.ctrl 0b01000010 (.amount 10)) = .ok (.rbRead 10) ∧
    decode (.ctrl 0b01000011 .nothing) = .ok .rbCount := by decide

/-- The rows that share an encoding, told apart by the state (R101, R141): E8, E9, E16, S9, S11. -/
theorem test_select_rows :
    selectRow (selected 0x03) (.mbcRdRam 0x0000) = .mbcRdRam 0x0000 ∧
    selectRow (selected 0x04) (.mbcRdRam 0x1FFF) = .mbcRdRtc 0x1FFF ∧
    selectRow (selected 0x00) (.mbcWrRam 0x0000 0x11) = .mbcWrRam 0x0000 0x11 ∧
    selectRow (selected 0x0C) (.mbcWrRam 0x1FFF 0x00) = .mbcWrRtc 0x1FFF 0x00 ∧
    selectRow (scanAt .readingY 0 0) .scanTickY = .scanTickY ∧
    selectRow (scanAt .readingX 39 0) .scanTickY = .scanTickX ∧
    selectRow (scanAt .readingY 40 0) .scanTickY = .scanTickOverrun := by decide

/-- E28 and the other transactions that name no operation. -/
theorem test_decode_rejects :
    decode (.ctrl 0x13 .nothing) = .error (.unknownCode 0x13) ∧
    decode (.ctrl 0x00 .nothing) = .error (.unknownCode 0x00) ∧
    decode (.ctrl 0x41 .nothing) = .error (.wrongOperands 0x41) ∧
    decode (.bus .mbc 0x10000 none) = .error (.dataMissing 0x10000) ∧
    decode (.bus .mbc 0x00000 (some 0x0A)) = .error (.dataOnRead 0x00000) := by decide

/-- Table words, numbered from the least significant bit of the selector or the code. -/
theorem test_decodeTableWord :
    decodeTableWord 17 0x0FF26 = some .sndRdNr52 ∧ decodeTableWord 17 0x10000 = some (.mbcWrRamen 0 0) ∧
    decodeTableWord 24 0x08000 = some (.mbcBad8000 .read 0) ∧ decodeTableWord 8 0x43 = some .rbCount ∧
    decodeTableWord 8 0x13 = none := by decide

/-- The placed word is what the next step runs. -/
theorem test_withFetchWord :
    resultOf (step (State.reset.withFetchWord 8 0x43)) = some (.count 0) ∧
    partOf (fun t => t.scan.state) (step (State.reset.withFetchWord 8 0x11)) = some .readingX ∧
    partOf (fun t => t.ports.issuer) (step (State.reset.withFetchWord 8 0x42)) = some (some .audio) := by decide

/-! ## SCAN -/

/-- S12: a start empties the list, keeps `curY`. -/
theorem test_scanStart : partOf (fun t => (t.scan.i, t.scan.n, t.scan.sprites[0], t.scan.curY)) (exec .scanStart busy) =
    some (0, 0, none, 0x10) := by decide

/-- R142's example: slot 0, OAM[0xFE00] = 0x10. -/
theorem test_scanTickY : partOf (fun t => (t.scan.curY, t.scan.state, t.scan.i, t.result))
    (exec .scanTickY (scanAt .readingY 0 0x77)) = some (0x10, .readingX, 0, .bool true) := by decide

/-- S7's slot 3, with Y = 0x10 and LY = 0: collected second. -/
theorem test_scanTickX_collects : partOf (fun t => (t.scan.sprites[1], t.scan.n, t.scan.i, t.result)) (exec .scanTickX busy) =
    some (some ⟨0x50, 0x10, 0xFE0C⟩, 2, 4, .bool true) := by decide

/-- S1: y = 8 is hidden; S10: the 80th tick returns false. -/
theorem test_scanTickX_last : partOf (fun t => (t.scan.n, t.scan.i, t.result)) (exec .scanTickX (scanAt .readingX 39 8)) =
    some (1, 40, .bool false) := by decide

/-- S11. -/
theorem test_scanTickOverrun : faultOf (exec .scanTickOverrun (scanAt .readingY 40 0)) = some (.scanOverrun 40) := by decide

theorem test_scanGetSprites : resultOf (exec .scanGetSprites busy) = some (.sprites testScan.sprites) := by decide

/-- S1 to S4, S6, S15: the first and last visible Y of each row. -/
theorem test_visible :
    (visible 8 0 8, visible 9 0 8, visible 16 0 8, visible 17 0 8) = (false, true, true, false) ∧
    (visible 0 0 16, visible 1 0 16) = (false, true) ∧ (visible 250 250 16, visible 251 250 16) = (false, true) ∧
    visible 255 250 8 = false ∧ (visible 151 143 8, visible 152 143 8, visible 159 143 8) = (false, true, true) := by decide

/-! ## MBC and RTC -/

/-- M1. -/
theorem test_mbcAccepts :
    resultOf (exec (.mbcAccepts 0x7FFF) busy) = some (.bool true) ∧ resultOf (exec (.mbcAccepts 0x8000) busy) = some (.bool false) ∧
    resultOf (exec (.mbcAccepts 0xBFFF) busy) = some (.bool true) ∧ resultOf (exec (.mbcAccepts 0xC000) busy) = some (.bool false) := by
  decide

/-- M16, with the fields of T10's form: day 0x1FF, halt and ovf true. -/
theorem test_mbcSave : partOf (fun t => (t.trace.getLast?, t.mbc)) (exec .mbcSave busy) =
    some (some (.saveRamWithClock busy.mbc.ram #v[42, 7, 13, 0xFF, 0xC1, 0, 0, 0, 0, 0, 0, 0]), busy.mbc) := by decide

/-- M2, M7. -/
theorem test_mbcRdRom0 : resultOf (exec (.mbcRdRom0 0x3FFF) busy) = some (.byte 0xAA) ∧
    resultOf (exec (.mbcRdRom0 0x0100) (busy.setMbc { busy.mbc with rom := ⟨0x100, []⟩ })) = some (.byte 0xFF) := by decide

/-- M4. -/
theorem test_mbcRdRomx : resultOf (thenExec (exec (.mbcWrRomb 0 0x03) busy) (.mbcRdRomx 0x3FFF)) = some (.byte 0xBB) := by decide

/-- M5: no modulo. -/
theorem test_mbcRdRomx_past_image : resultOf (thenExec (exec (.mbcWrRomb 0 0x05) busy) (.mbcRdRomx 0x0000)) = some (.byte 0xFF) := by
  decide

/-- W3's last step, and M8: the read is not gated. -/
theorem test_mbcRdRam : resultOf (exec (.mbcRdRam 0x0000) (busy.setMbc { busy.mbc with ramWriteEnabled := false })) =
    some (.byte 0x5A) := by decide

/-- M13's read: bank 1 of an 8 KiB RAM. -/
theorem test_mbcRdRam_past_capacity :
    resultOf (exec (.mbcRdRam 0x0000) (busy.setMbc { busy.mbc with selectedRamBank := 1, ram := ⟨0x2000, []⟩ })) =
      some (.byte 0xFF) := by decide

/-- M20 to M22, M24. -/
theorem test_mbcRdRtc :
    resultOf (exec (.mbcRdRtc 0x0000) (selected 0x08)) = some (.byte 42) ∧
    resultOf (exec (.mbcRdRtc 0x0123) (selected 0x0B)) = some (.byte 0xFF) ∧
    resultOf (exec (.mbcRdRtc 0x0000) (selected 0x0C)) = some (.byte 0xC1) ∧
    resultOf (exec (.mbcRdRtc 0x0000) (selected 0x07)) = some (.byte 0xFF) := by decide

/-- M31: the snapshot, not the live clock. -/
theorem test_mbcRdRtc_latched :
    resultOf (exec (.mbcRdRtc 0x0000) (busy.setMbc { busy.mbc with
      selectedRamBank := 0x08, clockLatched := true, snap := ⟨58, 59, 23, 511, false, false⟩ })) = some (.byte 58) := by decide

/-- M10: 0x05 disables and flushes once. -/
theorem test_mbcWrRamen_disables : partOf (fun t => (t.mbc.ramWriteEnabled, t.trace.length)) (exec (.mbcWrRamen 0 0x05) busy) =
    some (false, 2) := by decide

/-- E1. -/
theorem test_ramEnable : ([0x0A, 0x02, 0x08, 0xFF, 0x00, 0x05, 0xF0, 0xF5] : List Byte).map ramEnable =
    [true, true, true, true, false, false, false, false] := by decide

/-- M6. -/
theorem test_romBank : ([0x00, 0x01, 0x04, 0x7F, 0x80, 0x85, 0xFF] : List Byte).map romBank = [1, 1, 4, 127, 1, 5, 127] := by decide

/-- W2, with the correction of C1: the second write gives bank 4. -/
theorem test_mbcWrRomb : partOf (fun t => t.mbc.selectedRomBank) (thenExec (exec (.mbcWrRomb 0 0x00) busy) (.mbcWrRomb 0 0x04)) =
    some 4 := by decide

theorem test_mbcWrRamb : partOf (fun t => t.mbc.selectedRamBank) (exec (.mbcWrRamb 0 0x0C) busy) = some 0x0C := by decide

/-- M32: the latch closes over the live clock. -/
theorem test_mbcWrLatch_closes : partOf (fun t => (t.mbc.clockLatched, t.mbc.snap, t.mbc.latchRegister)) (exec (.mbcWrLatch 0 0x01) busy) =
    some (true, busy.mbc.live, 0x01) := by decide

/-- M35: 0x02 then 0x01 does not toggle. -/
theorem test_mbcWrLatch_no_edge :
    partOf (fun t => (t.mbc.clockLatched, t.mbc.latchRegister)) (thenExec (exec (.mbcWrLatch 0 0x02) busy) (.mbcWrLatch 0 0x01)) =
      some (false, 0x01) := by decide

/-- M15: bank 3's last byte. -/
theorem test_mbcWrRam : partOf (fun t => (t.mbc.ram.get 0x7FFF, t.mbc.ram.get 0x0000)) (exec (.mbcWrRam 0x1FFF 0x7E) (selected 0x03)) =
    some (0x7E, 0x5A) := by decide

/-- M13's write: past capacity, dropped. -/
theorem test_mbcWrRam_past_capacity :
    partOf (fun t => t.mbc.ram) (exec (.mbcWrRam 0 0x22) (busy.setMbc { busy.mbc with selectedRamBank := 1, ram := ⟨0x2000, []⟩ })) =
      some ⟨0x2000, []⟩ := by decide

/-- M25: bit 7 clear clears the overflow flag. -/
theorem test_mbcWrRtc_clears : partOf (fun t => (t.mbc.live.day, t.mbc.live.halt, t.mbc.live.ovf)) (exec (.mbcWrRtc 0 0x00) (selected 0x0C)) =
    some (0x0FF, false, false) := by decide

/-- M27. -/
theorem test_mbcWrRtc_dayLow : partOf (fun t => t.mbc.live.day) (exec (.mbcWrRtc 0 0x34) (selected 0x0B)) = some 0x134 := by decide

/-- M17, M18. -/
theorem test_mbcBad :
    faultOf (exec (.mbcBad8000 .read 0x0000) busy) = some (.addressing .mbc 0x8000 .read) ∧
    faultOf (exec (.mbcBadC000 (.write 0x00) 0x0000) busy) = some (.addressing .mbc 0xC000 .write) := by decide

/-- T3, T5, T6. -/
theorem test_rtcAdvance :
    partOf (fun t => t.mbc.live) (exec .rtcAdvance (clockAt ⟨59, 59, 0, 0, false, false⟩)) = some ⟨0, 0, 1, 0, false, false⟩ ∧
    partOf (fun t => t.mbc.live) (exec .rtcAdvance (clockAt ⟨59, 59, 23, 511, false, false⟩)) = some ⟨0, 0, 0, 0, false, true⟩ ∧
    partOf (fun t => t.mbc.live) (exec .rtcAdvance (clockAt ⟨56, 34, 12, 7, true, false⟩)) = some ⟨56, 34, 12, 7, true, false⟩ := by
  decide

/-- T8: an out-of-range clock advances; its counting fields are free, its overflow flag stays set. -/
theorem test_rtcAdvance_out_of_range :
    partOf (fun t => (t.mbc.live.halt, t.mbc.live.ovf, t.draws)) (exec .rtcAdvance (clockAt ⟨60, 0, 0, 0, false, true⟩)) =
      some (false, true, 5) := by decide

/-- T11 to T14. -/
theorem test_deserialize :
    (deserialize #v[1, 2, 3, 0x10, 0x81, 0, 0, 0, 0, 0, 0, 0]).map (·.1) = some ⟨1, 2, 3, 0x110, false, true⟩ ∧
    deserialize #v[256, 0, 0, 0, 0, 0, 0, 0, 0, 0, 0, 0] = none ∧ deserialize #v[-1, 0, 0, 0, 0, 0, 0, 0, 0, 0, 0, 0] = none ∧
    (deserialize #v[0, 0, 0, 0, 0x3E, 0, 0, 0, 0, 0, 0, 0]).map (·.1) = some Clock.zero := by decide

/-- T10, W7. -/
theorem test_serialize :
    serialize ⟨59, 59, 23, 511, false, true⟩ #v[5, -7, 9, 0, 0, 0, 0] = #v[59, 59, 23, 0xFF, 0x81, 5, -7, 9, 0, 0, 0, 0] ∧
    (serialize ⟨5, 6, 7, 0x1A5, true, false⟩ #v[0, 0, 0, 0, 0, 0, 0])[4] = 0x41 := by decide

/-! ## SND -/

/-- A21. -/
theorem test_sndAccepts : ([0xFF0F, 0xFF10, 0xFF26, 0xFF27, 0xFF2F, 0xFF30, 0xFF3F, 0xFF40] : List Addr).map
    (fun a => resultOf (exec (.sndAccepts a) busy)) =
      [false, true, true, false, false, true, true, false].map fun b => some (.bool b) := by decide

/-- A1: play(126, 21). -/
theorem test_sndTick : partOf (fun t => (t.trace.getLast?, t.snd.out)) (exec .sndTick busy) =
    some (some (.play 126 21), #v[15, 7, 0, 3]) := by decide

/-- A2: play(21, 21). -/
theorem test_sndTick_muted : partOf (fun t => t.trace.getLast?) (thenExec (exec (.sndToggle 0) busy) .sndTick) = some (some (.play 21 21)) := by
  decide

/-- A19. -/
theorem test_sndToggle_faults : faultOf (exec (.sndToggle 4) busy) = some (.argument (.sndToggle 4)) ∧
    faultOf (exec (.sndToggle (-1)) busy) = some (.argument (.sndToggle (-1))) := by decide

/-- A7, and A9's status bit 1 while disabled. -/
theorem test_sndRdNr52 : resultOf (exec .sndRdNr52 busy) = some (.byte 0xF5) ∧
    resultOf (exec .sndRdNr52 (busy.setSnd { testSnd false with
      ch := #v[testChannel 0 false [], testChannel 0 true [], testChannel 0 false [], testChannel 0 false []] })) = some (.byte 0x72) := by
  decide

/-- A11, A12; A10 with raw 0xE5. -/
theorem test_sndRdChA : resultOf (exec (.sndRdChA 0x3) busy) = some (.byte 0xFF) ∧ resultOf (exec (.sndRdChA 0x2) busy) = some (.byte 0xF3) ∧
    resultOf (exec (.sndRdChA 0x1) busy) = some (.byte 0xFF) := by decide

/-- Raw NR43 = 0x00 under mask 0x00. -/
theorem test_sndRdChB : resultOf (exec (.sndRdChB 0x2) busy) = some (.byte 0x00) := by decide

/-- A22. -/
theorem test_sndRdWave : resultOf (exec (.sndRdWave 0x0) busy) = some (.byte 0x9C) := by decide

/-- A13. -/
theorem test_sndRdCtl : resultOf (exec (.sndRdCtl 1) busy) = some (.byte 0x96) ∧ resultOf (exec (.sndRdCtl 0) busy) = some (.byte 0x73) := by
  decide

/-- A18: the write reaches the channel while disabled. -/
theorem test_sndWrChA : resultOf (thenExec (exec (.sndWrChA 0x2 0xF3) (busy.setSnd (testSnd false))) (.sndRdChA 0x2)) = some (.byte 0xF3) := by
  decide

theorem test_sndWrChB : partOf (fun t => (t.snd.ch[3].regs.get 0xFF22, t.snd.ch[3].regs.get 0xFF20)) (exec (.sndWrChB 0x2 0x55) busy) =
    some (0x55, 0xFF) := by decide

theorem test_sndWrWave : partOf (fun t => t.snd.ch[2].regs.get 0xFF3F) (exec (.sndWrWave 0xF 0x77) busy) = some 0x77 := by decide

theorem test_sndWrCtl : partOf (fun t => (t.snd.nr50, t.snd.nr51)) (exec (.sndWrCtl 0 0x77) busy) = some (0x77, 0x96) := by decide

/-- A16: stops in order, no register cleared. -/
theorem test_sndWrNr52_off : partOf (fun t => (t.snd.enabled, t.trace.drop 1, t.snd.nr50)) (exec (.sndWrNr52 0x00) busy) =
    some (false, [.channelStop 0, .channelStop 1, .channelStop 2, .channelStop 3, .sinkStop], 0x73) := by decide

/-- A17. -/
theorem test_sndWrNr52_on :
    partOf (fun t => ([t.snd.ch[0].regs.get 0xFF11, t.snd.ch[1].regs.get 0xFF16, t.snd.ch[2].regs.get 0xFF1B,
        t.snd.ch[3].regs.get 0xFF20, t.snd.ch[0].regs.get 0xFF12, t.snd.ch[2].regs.get 0xFF30, t.snd.nr50, t.snd.nr51], t.trace.length))
      (exec (.sndWrNr52 0x80) (busy.setSnd (testSnd false))) =
      some ([0x25, 0x01, 0xAB, 0x3F, 0x00, 0x9C, 0x00, 0x00], 26) := by decide

/-- A20. -/
theorem test_sndBad : faultOf (exec (.sndBad .read 0xFF27) busy) = some (.addressing .snd 0xFF27 .read) := by decide

/-- R42, R103: under another map the access at an address is what that map makes of it; R258's sequence follows the map too. -/
theorem test_sndBad_moved_map :
    resultOf (exec (.sndBad .read 0xFF28) (moved true)) = some (.byte 0xF3) ∧
    faultOf (exec .sndRdNr52 (moved true)) = some (.addressing .snd 0xFF26 .read) ∧
    partOf (fun t => (t.snd.enabled, [0xFF27, 0xFF28, 0xFF2A].map t.snd.ch[0].regs.get, t.snd.nr50, t.trace.length))
      (exec (.sndBad (.write 0x80) 0xFF40) (moved false)) = some (true, [0x00, 0x03, 0x00], 0x00, 10) := by decide

/-! ## RB -/

/-- B4: a short write, the last byte dropped. -/
theorem test_rbWrite : partOf (fun t => (t.result, t.rb.buf.get 3, t.rb.rc, t.rb.wc, t.rb.cnt)) (exec (.rbWrite [4, 5] 2) busy) =
    some (.count 1, 4, 0, 0, 4) := by decide

/-- B10. -/
theorem test_rbWrite_faults : faultOf (exec (.rbWrite [1] 2) busy) = some (.argument (.rbWrite 2)) := by decide

/-- B6. -/
theorem test_rbRead : partOf (fun t => (t.result, t.rb.rc, t.rb.wc, t.rb.cnt)) (exec (.rbRead 2) busy) = some (.bytes [1, 2] 2, 2, 3, 1) := by
  decide

/-- B8: the order across the wrap. -/
theorem test_rbRead_wraps :
    partOf (fun t => (t.result, t.rb.rc, t.rb.cnt)) (exec (.rbRead 10) (busy.setRb ⟨⟨4, [(0, 7), (1, 8), (2, 3), (3, 4)]⟩, 2, 2, 4⟩)) =
      some (.bytes [3, 4, 7, 8] 4, 2, 0) := by decide

theorem test_rbCount : resultOf (exec .rbCount busy) = some (.count 3) := by decide

/-! ## The ports -/

/-- P6: line 2 faults at step level. -/
theorem test_step_fault : faultOf (step (ported [.agent .emu] [.bus .mbc 0x09000 none] [] [])) =
    some (.addressing .mbc 0x9000 .read) := by decide

/-- R1: AUDIO issues no bus access. -/
theorem test_step_foreign : refusalOf (step (ported [.agent .audio] [] [.bus .mbc 0x00000 none] [])) =
    some (.notThisAgents .audio (.mbcRdRom0 0)) := by decide

/-- R25: a turn of the host. -/
theorem test_step_host : partOf (fun t => t.env.ly) (step (ported [.host] [] [] [.setLy 20])) = some 20 := by decide

/-! ## Witnesses: each shows states and operands that meet a statement's hypotheses, at the edges of their ranges -/

theorem busy_scan_inv : busy.scan.Inv := by
  refine ⟨fun k => ?_, fun _ => by decide⟩
  match k with
  | 0 => exact ⟨by decide, by decide, by decide, ⟨0, by decide, by decide⟩, fun l hl e he => by
      match l, hl with
      | 1, _ | 2, _ | 3, _ | 4, _ | 5, _ | 6, _ | 7, _ | 8, _ | 9, _ => cases he⟩
  | 1 | 2 | 3 | 4 | 5 | 6 | 7 | 8 | 9 => exact Nat.succ_le_of_lt (by decide)

theorem busy_snd_inv : busy.snd.Inv := by
  intro k
  match k with
  | 0 | 1 | 2 | 3 => exact ⟨by decide, by decide⟩

theorem busy_rb_inv : busy.rb.Inv := by
  refine ⟨?_, ?_, ?_, ?_, ?_, ?_⟩ <;> decide

/-- A state of no run from reset that meets the machine's invariant. -/
theorem busy_inv : busy.Inv := by
  refine ⟨busy_scan_inv, ?_, busy_snd_inv, busy_rb_inv, ?_⟩
  · exact ⟨by decide, by decide, by decide⟩
  · exact ⟨by decide, by decide, by decide, by decide⟩

theorem moved_snd_inv (enabled : Bool) : (moved enabled).snd.Inv := by
  intro k
  match k with
  | 0 | 1 | 2 | 3 => exact ⟨by cases enabled <;> decide, by cases enabled <;> decide⟩

/-- A sub-range of the map holds the address, as the statements say it. -/
theorem mapOwns_of_mem {m : SndMap} {a : Addr} (r : SubRange) (h : r ∈ m.ranges)
    (ha : r.first.toNat ≤ a.toNat ∧ a.toNat ≤ r.last.toNat) : mapOwns m r.channel a := ⟨r, h, rfl, ha⟩

/-- The map accepts no other address than its roles', by its definition as data (R250). -/
theorem not_mapAccepts {m : SndMap} {a : Addr} (h : sndAccepts m a = false) : ¬ mapAccepts m a := by
  rw [← sndRole_isSome_iff_mapAccepts]
  simpa [sndAccepts] using h

theorem witness_ScanTickYReadsTheYByte :
    ((scanAt .readingY 0 0).scan.i.val < 40 ∧ (scanAt .readingY 0 0).scan.state = .readingY) ∧
    ((scanAt .readingY 39 0).scan.i.val < 40 ∧ (scanAt .readingY 39 0).scan.state = .readingY) := by decide

/-- Collected (Y = 9 and 16 at LY = 0), passed over (Y = 8 and 17), and a full list. -/
theorem witness_ScanTickXCollectsVisibleSlots :
    (scanAt .readingX 39 9).scan.i.val < 40 ∧ (scanAt .readingX 39 9).scan.state = .readingX ∧ (scanAt .readingX 39 9).scan.n.val < 10 ∧
    (∀ y ∈ ([9, 16] : List Byte), (y.toNat : Int) ≤ (busy.env.ly.toNat : Int) + 16 ∧ (busy.env.ly.toNat : Int) + 16 < (y.toNat : Int) + 8) ∧
    (∀ y ∈ ([8, 17] : List Byte), ¬ ((y.toNat : Int) ≤ (busy.env.ly.toNat : Int) + 16 ∧ (busy.env.ly.toNat : Int) + 16 < (y.toNat : Int) + 8)) ∧
    ¬ (({ busy.scan with n := 10 } : Scan).n.val < 10) := by decide

theorem witness_ScanTickAfterTheEightiethFaults :
    (scanAt .readingY 40 0).scan.i.val = 40 ∧ (scanAt .readingX 40 0).scan.i.val = 40 := by decide

/-- The first and the last tick of the 79 that return true. -/
theorem witness_CompleteScanListsFirstTenVisible : (0 < 1 ∧ 1 < 80) ∧ (0 < 79 ∧ 79 < 80) ∧ (visibleSlots busy).length = 2 := by decide

/-- Bank 0, and bank 3 within and past the capacity. -/
theorem witness_RamWindowReads :
    (selected 0x00).mbc.selectedRamBank.toNat < 4 ∧ (selected 0x03).mbc.selectedRamBank.toNat < 4 ∧
    3 * 0x2000 + (0x1FFF : BitVec 13).toNat < (selected 0x03).mbc.ram.size ∧
    ¬ 3 * 0x2000 + (0 : BitVec 13).toNat < ({ busy.mbc with ram := ⟨0x2000, []⟩ } : Mbc).ram.size := by decide

theorem witness_RtcWindowReads :
    ∀ sel ∈ ([0x04, 0x07, 0x08, 0x09, 0x0A, 0x0B, 0x0C, 0x0D, 0xFF] : List Byte), 4 ≤ (selected sel).mbc.selectedRamBank.toNat := by decide

/-- Enabling by bit 1 alone and by bit 3 alone, and disabling with every other bit set. -/
theorem witness_RamEnableWrites :
    ((0x02 : Byte).getLsbD 1 = true ∨ (0x02 : Byte).getLsbD 3 = true) ∧ ((0x08 : Byte).getLsbD 1 = true ∨ (0x08 : Byte).getLsbD 3 = true) ∧
    ¬ ((0xF5 : Byte).getLsbD 1 = true ∨ (0xF5 : Byte).getLsbD 3 = true) := by decide

theorem witness_BankSelectWrites : (0x80 : Byte).toNat % 128 = 0 ∧ (0xFF : Byte).toNat % 128 = 127 := by decide

theorem witness_LatchWrites : (0x01 : Byte).toNat = 1 ∧ busy.mbc.latchRegister.toNat = 0 ∧ busy.mbc.clockLatched = false ∧
    ({ busy.mbc with clockLatched := true } : Mbc).clockLatched = true ∧ (0x02 : Byte).toNat ≠ 1 := by decide

/-- Enabled and disabled. -/
theorem witness_RamWindowWrites :
    ((selected 0x03).mbc.ram.wf = true ∧ (selected 0x03).mbc.selectedRamBank.toNat < 4 ∧ (selected 0x03).mbc.ramWriteEnabled = true) ∧
    (State.reset.mbc.ram.wf = true ∧ State.reset.mbc.selectedRamBank.toNat < 4 ∧ State.reset.mbc.ramWriteEnabled = false) := by decide

theorem witness_RtcWindowWrites :
    (∀ sel ∈ ([0x04, 0x08, 0x09, 0x0A, 0x0B, 0x0C, 0x0D, 0xFF] : List Byte), 4 ≤ (selected sel).mbc.selectedRamBank.toNat) ∧
    (selected 0x0C).mbc.ramWriteEnabled = true ∧ State.reset.mbc.ramWriteEnabled = false := by decide

/-- Both directions of both equivalences: the default map, at the ends of its ranges, and another. -/
theorem witness_AcceptedAddressRanges :
    busy.params.sndMap = Config.defaultSndMap ∧
    mapOwns Config.defaultSndMap 0 0xFF10 ∧ mapOwns Config.defaultSndMap 2 0xFF3F ∧ ¬ mapAccepts Config.defaultSndMap 0xFF0F ∧
    ¬ mapAccepts Config.defaultSndMap 0xFF27 ∧ ¬ mapAccepts Config.defaultSndMap 0xFF2F ∧ ¬ mapAccepts Config.defaultSndMap 0xFF40 ∧
    mapOwns (moved true).params.sndMap 0 0xFF2A ∧ ¬ mapAccepts (moved true).params.sndMap 0xFF10 :=
  ⟨rfl, mapOwns_of_mem ⟨0xFF10, 0xFF14, 0⟩ (by decide) (by decide), mapOwns_of_mem ⟨0xFF30, 0xFF3F, 2⟩ (by decide) (by decide),
    not_mapAccepts (by decide), not_mapAccepts (by decide), not_mapAccepts (by decide), not_mapAccepts (by decide),
    mapOwns_of_mem ⟨0xFF27, 0xFF2A, 0⟩ (by decide) (by decide), not_mapAccepts (by decide)⟩

/-- The addresses next to the default map's two ranges and the two ends of the bus, and, under another map, an address that is a row
of the opcode table. -/
theorem witness_UnacceptedAddressesFault :
    (∀ a ∈ ([0x0000, 0xFF0F, 0xFF27, 0xFF2F, 0xFF40, 0xFFFF] : List Addr),
      sndAccess (.sndBad .read a) = some (.read, a) ∧ ¬ mapAccepts busy.params.sndMap a ∧
      ¬ ((0xFF10 ≤ a.toNat ∧ a.toNat ≤ 0xFF26) ∨ (0xFF30 ≤ a.toNat ∧ a.toNat ≤ 0xFF3F))) ∧
    busy.params.sndMap = Config.defaultSndMap ∧
    sndAccess (.sndWrNr52 0x80) = some (.write 0x80, 0xFF26) ∧ ¬ mapAccepts (moved true).params.sndMap 0xFF26 := by
  refine ⟨?_, rfl, by decide, not_mapAccepts (by decide)⟩
  simp only [List.forall_mem_cons, List.not_mem_nil, false_imp_iff, implies_true, and_true]
  refine ⟨?_, ?_, ?_, ?_, ?_, ?_⟩ <;> exact ⟨by decide, not_mapAccepts (by decide), by decide⟩

/-- Bank 3's last byte. -/
theorem witness_RamWriteThenReadReturnsTheByte :
    (selected 0x03).mbc.ram.wf = true ∧ (selected 0x03).mbc.selectedRamBank.toNat < 4 ∧ (selected 0x03).mbc.ramWriteEnabled = true ∧
    (selected 0x03).mbc.selectedRamBank.toNat * 0x2000 + (0x1FFF : BitVec 13).toNat < (selected 0x03).mbc.ram.size := by decide

theorem witness_LatchProtocolToggles : busy.mbc.clockLatched = false := by decide

/-- The first and the last second of the count. -/
theorem witness_StandardAdvanceIsOneSecond :
    (∀ c ∈ ([⟨0, 0, 0, 0, false, false⟩, ⟨59, 59, 23, 511, false, false⟩] : List Clock),
      (clockAt c).params.rtcLaw = .standard ∧ (clockAt c).mbc.live.halt = false ∧ (clockAt c).mbc.live.sec.toNat < 60 ∧
        (clockAt c).mbc.live.min.toNat < 60 ∧ (clockAt c).mbc.live.hrs.toNat < 24) ∧
    busy.params.rtcLaw = .standard ∧ busy.mbc.live.halt = true ∧
    ∀ c ∈ ([⟨60, 0, 0, 0, false, true⟩, ⟨0, 60, 0, 0, false, false⟩, ⟨0, 0, 24, 0, false, false⟩] : List Clock),
      (clockAt c).mbc.live.halt = false ∧ (60 ≤ (clockAt c).mbc.live.sec.toNat ∨ 60 ≤ (clockAt c).mbc.live.min.toNat ∨
        24 ≤ (clockAt c).mbc.live.hrs.toNat) := by decide

theorem witness_AdvanceTouchesOnlyTheLiveClock :
    busy.mbc.live.ovf = true ∧ busy.params.rtcLaw = .standard ∧ busy.mbc.live.halt = true := by decide

/-- Fields accepted at both ends of the range, and each way out of it. -/
theorem witness_ClockFieldsOutOfRangeAreRefused :
    deserialize #v[0, 255, 0, 255, 255, 5, -7, 9, 0, 0, 0, 0] =
      some (⟨0, 255, 0, 511, true, true⟩, #v[5, -7, 9, 0, 0, 0, 0]) ∧
    (∃ k : Fin 5, (#v[0, 0, 0, 0, 256, 0, 0, 0, 0, 0, 0, 0] : Vector ClockField 12)[k.val].toInt < 0 ∨
      255 < (#v[0, 0, 0, 0, 256, 0, 0, 0, 0, 0, 0, 0] : Vector ClockField 12)[k.val].toInt) ∧
    (∃ k : Fin 5, (#v[-1, 0, 0, 0, 0, 0, 0, 0, 0, 0, 0, 0] : Vector ClockField 12)[k.val].toInt < 0 ∨
      255 < (#v[-1, 0, 0, 0, 0, 0, 0, 0, 0, 0, 0, 0] : Vector ClockField 12)[k.val].toInt) ∧
    deserialize { Launch.standard with clock := #v[-1, 0, 0, 0, 0, 0, 0, 0, 0, 0, 0, 0] }.clock = none := by
  refine ⟨by decide, ⟨4, .inr (by decide)⟩, ⟨0, .inl (by decide)⟩, by decide⟩

theorem witness_OverflowClearedOnlyByDayHighWrite : ∃ t, exec (.mbcWrRtc 0 0x00) (selected 0x0C) = .next t ∧
    (selected 0x0C).mbc.live.ovf = true ∧ t.mbc.live.ovf = false := ⟨_, rfl, by decide, by decide⟩

theorem witness_SnapshotWrittenOnlyWhenLatching : ∃ t, exec (.mbcWrLatch 0 0x01) busy = .next t ∧
    t.mbc.clockLatched ≠ busy.mbc.clockLatched ∧ t.mbc.snap ≠ busy.mbc.snap := ⟨_, rfl, by decide, by decide⟩

theorem witness_SoundTickMixes : State.reset.snd.enabled = false ∧ busy.snd.enabled = true := by decide

/-- The level of a muted channel differs. -/
theorem witness_MutedChannelsAreSilent :
    let d : Snd := { testSnd true with mute := #v[false, true, true, true] }
    let e : Snd := { d with out := #v[9, 0, 0, 0] }
    d.nr50 = e.nr50 ∧ d.nr51 = e.nr51 ∧ d.mute = e.mute ∧ (∀ k : Fin 4, d.mute[k] = true → d.out[k] = e.out[k]) ∧ d.out ≠ e.out ∧
      Params.standard.volumeLaw = Config.defaultVolumeLaw ∧ Params.standard.mixScale = .identity := by decide

/-- The row under the default map, and an SND_BAD read under another. -/
theorem witness_MasterRegisterReads :
    busy.params.sndMap.nr52 = 0xFF26 ∧ sndAccess .sndRdNr52 = some (.read, busy.params.sndMap.nr52) ∧
    sndAccess (.sndBad .read 0xFF40) = some (.read, (moved true).params.sndMap.nr52) := by decide

/-- Each row at an end of its range under the default map, and an SND_BAD read under another. -/
theorem witness_ChannelRegisterReads :
    (sndMapFormed busy.params.sndMap = true ∧ busy.params.sndMap = Config.defaultSndMap ∧
      sndAccess (.sndRdChA 0xF) = some (.read, 0xFF1F) ∧ mapOwns busy.params.sndMap 3 0xFF1F ∧
      sndAccess (.sndRdChB 0x3) = some (.read, 0xFF23) ∧ mapOwns busy.params.sndMap 3 0xFF23 ∧
      sndAccess (.sndRdWave 0x0) = some (.read, 0xFF30) ∧ mapOwns busy.params.sndMap 2 0xFF30) ∧
    sndMapFormed (moved true).params.sndMap = true ∧ sndAccess (.sndBad .read 0xFF2A) = some (.read, 0xFF2A) ∧
      mapOwns (moved true).params.sndMap 0 0xFF2A :=
  ⟨⟨by decide, rfl, by decide, mapOwns_of_mem ⟨0xFF1F, 0xFF23, 3⟩ (by decide) (by decide), by decide,
    mapOwns_of_mem ⟨0xFF1F, 0xFF23, 3⟩ (by decide) (by decide), by decide,
    mapOwns_of_mem ⟨0xFF30, 0xFF3F, 2⟩ (by decide) (by decide)⟩, by decide, by decide,
    mapOwns_of_mem ⟨0xFF27, 0xFF2A, 0⟩ (by decide) (by decide)⟩

/-- The four rows under the default map, and the four accesses under another. -/
theorem witness_ControlRegisterAccesses :
    (busy.params.sndMap = Config.defaultSndMap ∧ sndMapFormed busy.params.sndMap = true ∧
      sndAccess (.sndRdCtl 0) = some (.read, busy.params.sndMap.nr50) ∧
      sndAccess (.sndWrCtl 1 0x77) = some (.write 0x77, busy.params.sndMap.nr51)) ∧
    sndMapFormed (moved true).params.sndMap = true ∧
      sndAccess (.sndBad .read 0xFF2B) = some (.read, (moved true).params.sndMap.nr50) ∧
      sndAccess (.sndBad .read 0xFF2D) = some (.read, (moved true).params.sndMap.nr51) ∧
      sndAccess (.sndBad (.write 0x77) 0xFF2B) = some (.write 0x77, (moved true).params.sndMap.nr50) ∧
      sndAccess (.sndBad (.write 0x77) 0xFF2D) = some (.write 0x77, (moved true).params.sndMap.nr51) := by decide

/-- One write of each of the three rows, and an SND_BAD write under another map. -/
theorem witness_ChannelRegisterWrites :
    (busy.snd.Inv ∧ busy.params.sndMap = Config.defaultSndMap ∧
      ((0xFF1F : Addr).toNat = 0xFF10 + (0xF : BitVec 4).toNat ∧ (3 : Fin 4).val = (0xF : BitVec 4).toNat / 5) ∧
      (0xFF23 : Addr).toNat = 0xFF20 + (0x3 : BitVec 2).toNat ∧ (0xFF30 : Addr).toNat = 0xFF30 + (0x0 : BitVec 4).toNat) ∧
    (moved true).snd.Inv ∧ sndMapFormed (moved true).params.sndMap = true ∧
      sndAccess (.sndBad (.write 0x5A) 0xFF2A) = some (.write 0x5A, 0xFF2A) ∧ mapOwns (moved true).params.sndMap 0 0xFF2A :=
  ⟨⟨busy_snd_inv, rfl, by decide, by decide, by decide⟩, moved_snd_inv true, by decide, by decide,
    mapOwns_of_mem ⟨0xFF27, 0xFF2A, 0⟩ (by decide) (by decide)⟩

/-- A write of NR52 under the default map, and an SND_BAD write under another. -/
theorem writesMaster_busy (d : Byte) (s : State) (h : s.params = busy.params) : writesMaster (.sndWrNr52 d) d s.params.sndMap :=
  .inl ⟨rfl, by rw [h]; decide⟩

theorem writesMaster_moved (d : Byte) : writesMaster (.sndBad (.write d) 0xFF40) d movedMap :=
  have ⟨_, _, _, _, _, _, _, _, _, _, bad⟩ := sndAccess_rows
  .inr (bad _ _)

/-- A14, A15. -/
theorem witness_MasterWriteWithoutChangeDoesNothing :
    (writesMaster (.sndWrNr52 0x80) 0x80 busy.params.sndMap ∧ (0x80 : Byte).getLsbD 7 = busy.snd.enabled) ∧
    writesMaster (.sndBad (.write 0x7F) 0xFF40) 0x7F (moved false).params.sndMap ∧ (0x7F : Byte).getLsbD 7 = (moved false).snd.enabled :=
  ⟨⟨writesMaster_busy _ _ rfl, by decide⟩, writesMaster_moved _, by decide⟩

theorem witness_PowerOffStopsAndKeepsRegisters :
    (writesMaster (.sndWrNr52 0x7F) 0x7F busy.params.sndMap ∧ (0x7F : Byte).getLsbD 7 = false ∧ busy.snd.enabled = true) ∧
    writesMaster (.sndBad (.write 0x7F) 0xFF40) 0x7F (moved true).params.sndMap ∧ (moved true).snd.enabled = true :=
  ⟨⟨writesMaster_busy _ _ rfl, by decide, by decide⟩, writesMaster_moved _, by decide⟩

/-- Disabled, with an address of each kind: a 6-bit length, the 8-bit length, a wave byte, another register; and the same under
another map. -/
theorem witness_PowerOnClearsAllButLengths :
    ((busy.setSnd (testSnd false)).snd.Inv ∧ sndMapFormed busy.params.sndMap = true ∧
      writesMaster (.sndWrNr52 0x80) 0x80 (busy.setSnd (testSnd false)).params.sndMap ∧ (0x80 : Byte).getLsbD 7 = true ∧
      (busy.setSnd (testSnd false)).snd.enabled = false ∧ busy.params.sndMap = Config.defaultSndMap ∧
      mapOwns Config.defaultSndMap 3 0xFF20 ∧ mapOwns Config.defaultSndMap 2 0xFF1B ∧ mapOwns Config.defaultSndMap 2 0xFF3F ∧
      mapOwns Config.defaultSndMap 0 0xFF10 ∧ ((0xFF20, 0x3F) : Addr × Byte) ∈ Config.defaultSndMap.lengths ∧
      (∀ mask, ((0xFF10, mask) : Addr × Byte) ∉ Config.defaultSndMap.lengths)) ∧
    (moved false).snd.Inv ∧ sndMapFormed (moved false).params.sndMap = true ∧ (moved false).snd.enabled = false ∧
      writesMaster (.sndBad (.write 0x80) 0xFF40) 0x80 (moved false).params.sndMap ∧ mapOwns movedMap 0 0xFF28 ∧
      ((0xFF28, 0x0F) : Addr × Byte) ∈ movedMap.lengths ∧ mapOwns movedMap 2 0xFF30 ∧ movedMap.nr51.toNat < (0xFF30 : Addr).toNat :=
  ⟨⟨busy_snd_inv, by decide, writesMaster_busy _ _ rfl, by decide, by decide, rfl,
    mapOwns_of_mem ⟨0xFF1F, 0xFF23, 3⟩ (by decide) (by decide), mapOwns_of_mem ⟨0xFF1A, 0xFF1E, 2⟩ (by decide) (by decide),
    mapOwns_of_mem ⟨0xFF30, 0xFF3F, 2⟩ (by decide) (by decide), mapOwns_of_mem ⟨0xFF10, 0xFF14, 0⟩ (by decide) (by decide),
    by decide, by simp [Config.defaultSndMap]⟩,
    moved_snd_inv false, by decide, by decide, writesMaster_moved _, mapOwns_of_mem ⟨0xFF27, 0xFF2A, 0⟩ (by decide) (by decide),
    by decide, mapOwns_of_mem ⟨0xFF30, 0xFF3F, 2⟩ (by decide) (by decide), by decide⟩

theorem witness_LengthsSurviveAPowerCycle :
    (busy.snd.Inv ∧ busy.snd.enabled = true ∧ sndMapFormed busy.params.sndMap = true ∧
      writesMaster (.sndWrNr52 0x00) 0x00 busy.params.sndMap ∧ writesMaster (.sndWrNr52 0x80) 0x80 busy.params.sndMap ∧
      (0x00 : Byte).getLsbD 7 = false ∧ (0x80 : Byte).getLsbD 7 = true ∧ busy.params.sndMap = Config.defaultSndMap ∧
      mapOwns Config.defaultSndMap 0 0xFF11 ∧ mapOwns Config.defaultSndMap 2 0xFF1B ∧ mapOwns Config.defaultSndMap 3 0xFF23) ∧
    (moved true).snd.Inv ∧ (moved true).snd.enabled = true ∧ mapOwns movedMap 0 0xFF28 ∧
      movedMap.nr10.toNat ≤ (0xFF28 : Addr).toNat ∧ (0xFF28 : Addr).toNat ≤ movedMap.nr51.toNat ∧
      writesMaster (.sndBad (.write 0x00) 0xFF40) 0x00 (moved true).params.sndMap :=
  ⟨⟨busy_snd_inv, by decide, by decide, writesMaster_busy _ _ rfl, writesMaster_busy _ _ rfl, by decide, by decide, rfl,
    mapOwns_of_mem ⟨0xFF10, 0xFF14, 0⟩ (by decide) (by decide), mapOwns_of_mem ⟨0xFF1A, 0xFF1E, 2⟩ (by decide) (by decide),
    mapOwns_of_mem ⟨0xFF1F, 0xFF23, 3⟩ (by decide) (by decide)⟩,
    moved_snd_inv true, by decide, mapOwns_of_mem ⟨0xFF27, 0xFF2A, 0⟩ (by decide) (by decide), by decide, by decide,
    writesMaster_moved _⟩

theorem witness_ToggleFlipsOneMuteSlot :
    (0 : Int) = ((0 : Fin 4).val : Int) ∧ (3 : Int) = ((3 : Fin 4).val : Int) ∧ ((-1 : Int) < 0 ∨ (3 : Int) < -1) ∧ ((4 : Int) < 0 ∨ (3 : Int) < 4) := by
  decide

/-- A bad count by one, and a count of all the data. -/
theorem witness_RingWriteStoresWhatFits : busy.rb.Inv ∧ ([1] : List Byte).length < 2 ∧ 2 ≤ ([4, 5] : List Byte).length :=
  ⟨busy_rb_inv, by decide, by decide⟩

/-- A short write, a read across the wrap, and an empty buffer. -/
theorem witness_RingConservesBytes :
    busy.rb.Inv ∧ (∃ u, ringRun [.rbWrite [4, 5] 2, .rbRead 10] busy = some (u, [4], [1, 2, 3, 4])) ∧ State.reset.rb.cnt = 0 :=
  ⟨busy_rb_inv, ⟨_, rfl⟩, by decide⟩

theorem witness_StepRunsTheDecodedOperation :
    let s := ported [.agent .audio, .host] [] [.ctrl 0x42 (.amount 10), .ctrl 0x43 .nothing] []
    s.ports.turns = .agent .audio :: [.host] ∧ s.ports.queue .audio = .ctrl 0x42 (.amount 10) :: [.ctrl 0x43 .nothing] ∧
      decode (.ctrl 0x42 (.amount 10)) = .ok (.rbRead 10) ∧ mayIssue .audio (selectRow s (.rbRead 10)) = true := by decide

/-- No turn, a turn with nothing pending, and each of the host's three inputs. -/
theorem witness_TurnsWithoutAnOperation :
    (ported [] [] [] []).ports.turns = [] ∧
    ((ported [.agent .emu] [] [] []).ports.turns = .agent .emu :: [] ∧ (ported [.agent .emu] [] [] []).ports.queue .emu = []) ∧
    ((ported [.host] [] [] []).ports.turns = .host :: [] ∧ (ported [.host] [] [] []).ports.host = []) ∧
    ∀ h ∈ ([.setByte 0xFFFF 0x5A, .setLy 20, .setObj16 true] : List HostInput),
      (ported [.host] [] [] [h]).ports.turns = .host :: [] ∧ (ported [.host] [] [] [h]).ports.host = h :: [] ∧
        (ported [.host] [] [] [h]).envInv := by
  refine ⟨by decide, by decide, by decide, ?_⟩
  simp only [List.forall_mem_cons, List.not_mem_nil, false_imp_iff, implies_true, and_true]
  refine ⟨?_, ?_, ?_⟩ <;> exact ⟨rfl, rfl, busy_inv.2.2.2.2⟩

/-- An unlisted code, and a bus read of AUDIO's. -/
theorem witness_UnlistedCodesAndForeignOperationsAreRefused :
    ((ported [.agent .emu] [.ctrl 0x13 .nothing] [] []).ports.turns = .agent .emu :: [] ∧
      (ported [.agent .emu] [.ctrl 0x13 .nothing] [] []).ports.queue .emu = .ctrl 0x13 .nothing :: [] ∧
      (0x13 : Code) ∉ ([0x10, 0x11, 0x12, 0x20, 0x21, 0x22, 0x30, 0x31, 0x32, 0x41, 0x42, 0x43] : List Code)) ∧
    ((ported [.agent .audio] [] [.bus .mbc 0x00000 none] []).ports.queue .audio = .bus .mbc 0x00000 none :: [] ∧
      decode (.bus .mbc 0x00000 none) = .ok (.mbcRdRom0 0) ∧ mayIssue .audio (selectRow busy (.mbcRdRom0 0)) = false) := by decide

/-- Both kinds of access at an address, as the statement takes them. -/
def rowsAt (u : BusUnit) (a : Addr) (s : State) : Option Instr × Option Instr :=
  (((decode (.bus u (0#1 ++ a) none)).map (selectRow s)).toOption, ((decode (.bus u (1#1 ++ a) (some 0x5A))).map (selectRow s)).toOption)

/-- Each clause's range has an address at each of its ends (R103). -/
theorem witness_BusAccessesSelectTheirRows :
    ([0x0000, 0x1FFF, 0x2000, 0x3FFF] : List Addr).map (rowsAt .mbc · busy) =
      [(some (.mbcRdRom0 0x0000), some (.mbcWrRamen 0x0000 0x5A)), (some (.mbcRdRom0 0x1FFF), some (.mbcWrRamen 0x1FFF 0x5A)),
        (some (.mbcRdRom0 0x2000), some (.mbcWrRomb 0x0000 0x5A)), (some (.mbcRdRom0 0x3FFF), some (.mbcWrRomb 0x1FFF 0x5A))] ∧
    ([0x4000, 0x5FFF, 0x6000, 0x7FFF] : List Addr).map (rowsAt .mbc · busy) =
      [(some (.mbcRdRomx 0x0000), some (.mbcWrRamb 0x0000 0x5A)), (some (.mbcRdRomx 0x1FFF), some (.mbcWrRamb 0x1FFF 0x5A)),
        (some (.mbcRdRomx 0x2000), some (.mbcWrLatch 0x0000 0x5A)), (some (.mbcRdRomx 0x3FFF), some (.mbcWrLatch 0x1FFF 0x5A))] ∧
    rowsAt .mbc 0xA000 (selected 0x03) = (some (.mbcRdRam 0x0000), some (.mbcWrRam 0x0000 0x5A)) ∧
    rowsAt .mbc 0xBFFF (selected 0x04) = (some (.mbcRdRtc 0x1FFF), some (.mbcWrRtc 0x1FFF 0x5A)) ∧
    rowsAt .mbc 0x8000 busy = (some (.mbcBad8000 .read 0x0000), some (.mbcBad8000 (.write 0x5A) 0x0000)) ∧
    rowsAt .mbc 0x9FFF busy = (some (.mbcBad8000 .read 0x1FFF), some (.mbcBad8000 (.write 0x5A) 0x1FFF)) ∧
    rowsAt .mbc 0xC000 busy = (some (.mbcBadC000 .read 0x0000), some (.mbcBadC000 (.write 0x5A) 0x0000)) ∧
    rowsAt .mbc 0xFFFF busy = (some (.mbcBadC000 .read 0x3FFF), some (.mbcBadC000 (.write 0x5A) 0x3FFF)) :=
  ⟨rfl, rfl, rfl, rfl, rfl, rfl, rfl, rfl⟩

/-- The same for SND's ranges (R103, R42). -/
theorem witness_BusAccessesSelectTheirRows_snd :
    rowsAt .snd 0xFF10 busy = (some (.sndRdChA 0x0), some (.sndWrChA 0x0 0x5A)) ∧
    rowsAt .snd 0xFF1F busy = (some (.sndRdChA 0xF), some (.sndWrChA 0xF 0x5A)) ∧
    rowsAt .snd 0xFF20 busy = (some (.sndRdChB 0x0), some (.sndWrChB 0x0 0x5A)) ∧
    rowsAt .snd 0xFF23 busy = (some (.sndRdChB 0x3), some (.sndWrChB 0x3 0x5A)) ∧
    rowsAt .snd 0xFF24 busy = (some (.sndRdCtl 0), some (.sndWrCtl 0 0x5A)) ∧
    rowsAt .snd 0xFF25 busy = (some (.sndRdCtl 1), some (.sndWrCtl 1 0x5A)) ∧
    rowsAt .snd 0xFF26 busy = (some .sndRdNr52, some (.sndWrNr52 0x5A)) ∧
    rowsAt .snd 0xFF30 busy = (some (.sndRdWave 0x0), some (.sndWrWave 0x0 0x5A)) ∧
    rowsAt .snd 0xFF3F busy = (some (.sndRdWave 0xF), some (.sndWrWave 0xF 0x5A)) ∧
    ∀ a ∈ ([0x0000, 0xFF0F, 0xFF27, 0xFF2F, 0xFF40, 0xFFFF] : List Addr),
      rowsAt .snd a busy = (some (.sndBad .read a), some (.sndBad (.write 0x5A) a)) := by
  refine ⟨rfl, rfl, rfl, rfl, rfl, rfl, rfl, rfl, rfl, ?_⟩
  simp only [List.forall_mem_cons, List.not_mem_nil, false_imp_iff, implies_true, and_true]
  exact ⟨rfl, rfl, rfl, rfl, rfl, rfl⟩

theorem witness_DecodeOfEncodeIsTheOperation :
    (Instr.mbcRdRtc 0x1FFF).wellFormed = true ∧ rowCondition (.mbcRdRtc 0x1FFF) (selected 0x04) = true ∧
    (Instr.sndBad (.write 0x01) 0xFF2F).wellFormed = true ∧ rowCondition .scanTickX busy = true := by decide

theorem witness_EncodeOfDecodeIsTheTransaction : decode (.bus .snd 0x1FF2F (some 0xFF)) = .ok (.sndBad (.write 0xFF) 0xFF2F) := by decide

theorem witness_SelectedRowsHaveTrueConditions : decode (.ctrl 0x11 .nothing) = .ok .scanTickY ∧ rowCondition .scanTickX busy = true := by
  decide

/-- Each fault raised, and each fault's operation; under another map, a row of the opcode table at an address that is no longer
accepted. -/
theorem witness_FaultsAreExactlyTheListed :
    faultOf (exec (.sndWrChA 0x0 0x5A) (moved true)) = some (.addressing .snd 0xFF10 .write) ∧
    faultOf (exec .scanTickOverrun (scanAt .readingY 40 0)) = some (.scanOverrun 40) ∧
    faultOf (exec (.mbcBad8000 .read 0x1FFF) busy) = some (.addressing .mbc 0x9FFF .read) ∧
    faultOf (exec (.mbcBadC000 (.write 0x00) 0x3FFF) busy) = some (.addressing .mbc 0xFFFF .write) ∧
    faultOf (exec (.sndBad .read 0xFF27) busy) = some (.addressing .snd 0xFF27 .read) ∧
    faultOf (exec (.rbWrite [] 1) busy) = some (.argument (.rbWrite 1)) ∧ faultOf (exec (.sndToggle 4) busy) = some (.argument (.sndToggle 4)) ∧
    [0x0000, 0xFF0F, 0xFF27, 0xFF2F, 0xFF40, 0xFFFF].map (fun a => faultOf (exec (.sndBad .read a) busy)) =
      [0x0000, 0xFF0F, 0xFF27, 0xFF2F, 0xFF40, 0xFFFF].map (fun a => some (.addressing .snd a .read)) := by decide

theorem witness_ReadsChangeNothing :
    (readsOnly (.mbcRdRtc 0) = true ∧ ∃ t, exec (.mbcRdRtc 0) (selected 0x0C) = .next t) ∧
    readsOnly (.sndBad .read 0xFF28) = true ∧ ∃ t, exec (.sndBad .read 0xFF28) (moved true) = .next t :=
  ⟨⟨by decide, ⟨_, rfl⟩⟩, by decide, ⟨_, rfl⟩⟩

theorem witness_UnitsShareNoState :
    (∃ t, exec (.sndToggle 0) busy = .next t) ∧ unitOf (.sndToggle 0) ≠ .scan ∧ unitOf (.sndToggle 0) ≠ .mbc ∧ unitOf .rbCount ≠ .snd ∧
      unitOf (.sndToggle 0) ≠ .rb := ⟨⟨_, rfl⟩, by decide, by decide, by decide, by decide⟩

/-- For each unit, a state that is the same to it and differs everywhere else; an operation that completes, one that faults and one
that is refused. -/
theorem witness_UnitsShareNoState_reads :
    sameView .scan busy { State.reset with scan := busy.scan, env := busy.env } ∧
    sameView .mbc busy { State.reset with mbc := busy.mbc } ∧
    sameView .snd busy { State.reset with snd := busy.snd } ∧
    sameView .rb busy { State.reset with rb := busy.rb } ∧
    (∃ t, exec (.rbRead 2) busy = .next t) ∧ (∃ f, exec (.sndToggle 4) busy = .fault f) ∧ ∃ r, exec .scanTickY busy = .refused r :=
  ⟨⟨rfl, rfl⟩, ⟨rfl, rfl, rfl⟩, ⟨rfl, rfl⟩, rfl, ⟨_, rfl⟩, ⟨_, rfl⟩, ⟨_, rfl⟩⟩

theorem witness_RingOperationsCommuteWithOtherUnits :
    unitOf .sndTick ≠ .rb ∧ unitOf (.rbRead 2) = .rb ∧ (∃ t, exec .sndTick busy = .next t) ∧ ∃ u, exec (.rbRead 2) busy = .next u :=
  ⟨by decide, rfl, ⟨_, rfl⟩, ⟨_, rfl⟩⟩

theorem witness_NoStepChangesTheCartridgeOrTheParameters :
    ∃ t, step (ported [.agent .emu] [.bus .mbc 0x12000 (some 0x05)] [] []) = .next t := ⟨_, rfl⟩

/-- A launch with the clock of P2, C = 8, a drawn wave byte and the channel test model. -/
def testLaunch : Launch :=
  { Launch.standard with
    clock := #v[58, 59, 23, 0xFF, 0x01, 0, 0, 0, 0, 0, 0, 0]
    ring := ⟨8, [(0, 0xCC)]⟩
    wave := ⟨0x10000, [(0xFF30, 0x9C)]⟩
    models := #v[.steady 15 true, .steady 7 false, .steady 0 true, .steady 3 false] }

/-- Under the default map and under another. -/
theorem witness_ConstructionValues :
    ((∃ s, State.construct testLaunch = some s) ∧ testLaunch.params.sndMap = Config.defaultSndMap) ∧
    ∃ s, State.construct { testLaunch with params := { Params.standard with sndMap := movedMap } } = some s :=
  ⟨⟨⟨_, rfl⟩, rfl⟩, _, rfl⟩

/-- An empty ring, a field above 255. -/
theorem witness_ConstructionRefusals :
    (testLaunch.formed = true ∧ testLaunch.ring.size ≠ 0) ∧ ({ testLaunch with ring := ⟨0, []⟩ } : Launch).formed = true ∧
    ({ testLaunch with clock := #v[256, 0, 0, 0, 0, 0, 0, 0, 0, 0, 0, 0] } : Launch).formed = true := by decide

theorem witness_ConstructionMeetsTheInvariant : ∃ s, State.construct testLaunch = some s := ⟨_, rfl⟩

theorem witness_EveryStepKeepsTheInvariant :
    (ported [.agent .emu] [.ctrl 0x11 .nothing] [] []).Inv ∧ ∃ t, step (ported [.agent .emu] [.ctrl 0x11 .nothing] [] []) = .next t :=
  ⟨busy_inv, ⟨_, rfl⟩⟩

theorem witness_StoresAreCanonical :
    let m : Memory := ((Memory.blank 4).set 3 0x07).set 1 0x09
    let n : Memory := ((((Memory.blank 4).set 1 0x09).set 0 0x01).set 3 0x07).set 0 0x00
    m.wf = true ∧ n.wf = true ∧ m.size = n.size ∧ ∀ a < 4, m.get a = n.get a := by decide

end Sys2Proof.Tests
end

section
/-! SUPPORT. An operation acts on its own unit alone (10_state.md R49): it does in every state what it does in the state where
nothing but its unit's view is left, and O53 is read off that. -/

namespace Sys2Proof.Machine

/-! ## A state cut down to a unit's view, and its outcome put back -/

/-- The state in which only what the unit can see is left, and no call is recorded. -/
def State.isolated (u : CoreUnit) (s : State) : State :=
  match u with
  | .scan => { State.reset with scan := s.scan, env := s.env, trace := [] }
  | .mbc => { State.reset with
      mbc := s.mbc, params := { Params.standard with rtcLaw := s.params.rtcLaw }, draws := s.draws, trace := [] }
  | .snd => { State.reset with snd := s.snd, params := s.params, trace := [] }
  | .rb => { State.reset with rb := s.rb, trace := [] }

/-- `s` with the unit's view of `t`, and the calls of `t` recorded after its own. -/
def State.absorb (u : CoreUnit) (s t : State) : State :=
  match u with
  | .scan => { s with scan := t.scan, env := t.env, trace := s.trace ++ t.trace }
  | .mbc => { s with
      mbc := t.mbc, params := { s.params with rtcLaw := t.params.rtcLaw }, draws := t.draws, trace := s.trace ++ t.trace }
  | .snd => { s with snd := t.snd, params := t.params, trace := s.trace ++ t.trace }
  | .rb => { s with rb := t.rb, trace := s.trace ++ t.trace }

/-- What an outcome of the isolated state is in `s`. -/
def State.absorbOutcome (u : CoreUnit) (s : State) : Host.Outcome State Fault Refusal → Host.Outcome State Fault Refusal
  | .next t => .next ((s.absorb u t).answer t.result)
  | .fault f => .fault f
  | .refused r => .refused r

theorem State.isolated_eq_of_sameView {u : CoreUnit} {s s' : State} (h : sameView u s s') : s.isolated u = s'.isolated u := by
  cases u <;> simp_all [sameView, State.isolated]

theorem State.sameView_absorb (u : CoreUnit) (s s' t : State) : sameView u (s.absorb u t) (s'.absorb u t) := by
  cases u <;> simp [sameView, State.absorb]

theorem sameView_answer {u : CoreUnit} {s s' : State} (h : sameView u s s') (v : Result) :
    sameView u (s.answer v) (s'.answer v) := by
  cases u <;> exact h

theorem State.absorb_trace (u : CoreUnit) (s t : State) : (s.absorb u t).trace = s.trace ++ t.trace := by
  cases u <;> rfl

theorem State.absorb_isolated (u : CoreUnit) (s : State) : s.absorb u (s.isolated u) = s := by
  cases u <;> simp [State.absorb, State.isolated]

theorem State.isolated_absorb (u : CoreUnit) (s t : State) : (s.absorb u t).isolated u = t.isolated u := by
  cases u <;> rfl

theorem State.absorb_absorb (u : CoreUnit) (s t x : State) : (s.absorb u t).absorb u x = s.absorb u (t.absorb u x) := by
  cases u <;> simp [State.absorb]

/-- What the unit does not own is left as it was. -/
theorem State.absorb_otherUnits (u : CoreUnit) (s t : State) :
    (u ≠ .scan → (s.absorb u t).scan = s.scan) ∧ (u ≠ .mbc → (s.absorb u t).mbc = s.mbc) ∧
    (u ≠ .snd → (s.absorb u t).snd = s.snd) ∧ (u ≠ .rb → (s.absorb u t).rb = s.rb) := by
  cases u <;> simp [State.absorb]

/-! ## Changes of the state that stay in a unit -/

/-- The change reads and writes nothing but the unit's view, and may record calls. -/
def StaysIn (u : CoreUnit) (f : State → State) : Prop := ∀ s, f s = s.absorb u (f (s.isolated u))

theorem StaysIn.id (u : CoreUnit) : StaysIn u fun s => s := fun s => (s.absorb_isolated u).symm

theorem StaysIn.comp {u : CoreUnit} {g f : State → State} (hg : StaysIn u g) (hf : StaysIn u f) : StaysIn u fun s => g (f s) := by
  intro s
  calc g (f s)
      = (s.absorb u (f (s.isolated u))).absorb u (g ((s.absorb u (f (s.isolated u))).isolated u)) := by
        rw [← hf s]; exact hg (f s)
    _ = s.absorb u ((f (s.isolated u)).absorb u (g ((f (s.isolated u)).isolated u))) := by
        rw [State.isolated_absorb, State.absorb_absorb]
    _ = s.absorb u (g (f (s.isolated u))) := by rw [← hg]

theorem StaysIn.foldl {u : CoreUnit} {α : Type} {f : State → α → State} (hf : ∀ a, StaysIn u fun s => f s a) (l : List α) :
    StaysIn u fun s => l.foldl f s := by
  induction l with
  | nil => exact StaysIn.id u
  | cons a l ih => exact ih.comp (hf a)

/-- A choice between two changes by what the unit sees. -/
theorem StaysIn.ite {u : CoreUnit} {c : State → Prop} [∀ s, Decidable (c s)] {f g : State → State}
    (hc : ∀ s, c (s.isolated u) = c s) (hf : StaysIn u f) (hg : StaysIn u g) : StaysIn u fun s => if c s then f s else g s := by
  intro s
  by_cases h : c s
  · have h' : c (s.isolated u) := (hc s).mpr h
    simp only [h, h', if_true]
    exact hf s
  · have h' : ¬ c (s.isolated u) := fun e => h ((hc s).mp e)
    simp only [h, h', if_false]
    exact hg s

/-! One update of a unit's own field, and one recorded call, in terms of the isolated state. -/

theorem setScan_eq_absorb (s : State) (v : Scan) : s.setScan v = s.absorb .scan ((s.isolated .scan).setScan v) := by
  simp [State.absorb, State.isolated, State.setScan]

theorem setMbc_eq_absorb (s : State) (v : Mbc) : s.setMbc v = s.absorb .mbc ((s.isolated .mbc).setMbc v) := by
  simp [State.absorb, State.isolated, State.setMbc]

theorem setSnd_eq_absorb (s : State) (v : Snd) : s.setSnd v = s.absorb .snd ((s.isolated .snd).setSnd v) := by
  simp [State.absorb, State.isolated, State.setSnd]

theorem setRb_eq_absorb (s : State) (v : Rb) : s.setRb v = s.absorb .rb ((s.isolated .rb).setRb v) := by
  simp [State.absorb, State.isolated, State.setRb]

/-- The free values drawn are the clock's to see (log 20). -/
theorem draw_eq_absorb {s t x : State} (h : t = s.absorb .mbc x) (n : Nat) : t.draw n = s.absorb .mbc (x.draw n) := by
  subst h
  rfl

theorem record_eq_absorb {u : CoreUnit} {s t x : State} (h : t = s.absorb u x) (c : Call) :
    t.record c = s.absorb u (x.record c) := by
  subst h
  cases u <;> simp [State.absorb, State.record]

theorem flush_staysIn : StaysIn .mbc flush := fun s => record_eq_absorb (StaysIn.id .mbc s) _

/-! SND's channel calls and power sequences (R251, R256 to R258). -/

theorem writeChannel_eq_absorb (s : State) (k : Fin 4) (a : Addr) (v : Byte) :
    s.writeChannel k a v = s.absorb .snd ((s.isolated .snd).writeChannel k a v) :=
  record_eq_absorb (setSnd_eq_absorb s _) _

theorem startChannel_staysIn (k : Fin 4) : StaysIn .snd fun s => s.startChannel k :=
  fun s => record_eq_absorb (setSnd_eq_absorb s _) _

theorem stopChannel_staysIn (k : Fin 4) : StaysIn .snd fun s => s.stopChannel k :=
  fun s => record_eq_absorb (setSnd_eq_absorb s _) _

theorem tickChannel_staysIn (k : Fin 4) : StaysIn .snd fun s => s.tickChannel k :=
  fun s => record_eq_absorb (setSnd_eq_absorb s _) _

theorem powerOnWrite_staysIn (a : Addr) : StaysIn .snd fun s => powerOnWrite s a := by
  refine .ite (fun _ => rfl) (fun s => setSnd_eq_absorb s _) (.ite (fun _ => rfl) (fun s => setSnd_eq_absorb s _) fun s => ?_)
  have hp : (s.isolated .snd).params = s.params := rfl
  simp only [hp]
  cases ownerOf s.params.sndMap a with
  | none => exact StaysIn.id .snd s
  | some k => exact writeChannel_eq_absorb s k a (powerOnValue s a)

/-- The addresses of the sequence are read off SND's own parameters (R258). -/
theorem powerOn_staysIn : StaysIn .snd powerOn := by
  have registers : StaysIn .snd fun s => (powerOnAddrs s.params.sndMap).foldl powerOnWrite s :=
    fun s => StaysIn.foldl powerOnWrite_staysIn (powerOnAddrs s.params.sndMap) s
  exact fun s => record_eq_absorb ((StaysIn.foldl startChannel_staysIn channelOrder).comp registers s) _

theorem powerOff_staysIn : StaysIn .snd powerOff :=
  fun s => record_eq_absorb (StaysIn.foldl stopChannel_staysIn channelOrder s) _

theorem setEnabled_staysIn (b : Bool) : StaysIn .snd fun s => s.setSnd { s.snd with enabled := b } :=
  fun s => setSnd_eq_absorb s _

theorem writeMaster_staysIn (d : Byte) : StaysIn .snd (writeMaster d) :=
  .ite (fun _ => rfl) (powerOff_staysIn.comp (setEnabled_staysIn false))
    (.ite (fun _ => rfl) (powerOn_staysIn.comp (setEnabled_staysIn true)) (.id .snd))

/-! ## Operations that act alone -/

/-- The operation ends in every state as it ends where only the unit's view is left. -/
def ActsAlone (u : CoreUnit) (o : State → Host.Outcome State Fault Refusal) : Prop :=
  ∀ s, o s = s.absorbOutcome u (o (s.isolated u))

theorem finish_eq_absorbOutcome {u : CoreUnit} {s t x : State} (h : t = s.absorb u x) (v : Result) :
    finish t v = s.absorbOutcome u (finish x v) := by
  subst h
  rfl

/-- An operation that returns a value and changes nothing. -/
theorem answer_eq_absorbOutcome (u : CoreUnit) (s : State) (v : Result) :
    finish s v = s.absorbOutcome u (finish (s.isolated u) v) :=
  finish_eq_absorbOutcome (StaysIn.id u s) v

theorem ActsAlone.refused (u : CoreUnit) (r : Refusal) : ActsAlone u fun _ => .refused r := fun _ => rfl

/-- A choice between two operations by what the unit sees. -/
theorem ActsAlone.ite {u : CoreUnit} {c : State → Prop} [∀ s, Decidable (c s)] {o p : State → Host.Outcome State Fault Refusal}
    (hc : ∀ s, c (s.isolated u) = c s) (ho : ActsAlone u o) (hp : ActsAlone u p) :
    ActsAlone u fun s => if c s then o s else p s := by
  intro s
  by_cases h : c s
  · have h' : c (s.isolated u) := (hc s).mpr h
    simp only [h, h', if_true]
    exact ho s
  · have h' : ¬ c (s.isolated u) := fun e => h ((hc s).mp e)
    simp only [h, h', if_false]
    exact hp s

theorem execMbcWrRamen_actsAlone (lo : BitVec 13) (d : Byte) : ActsAlone .mbc (execMbcWrRamen lo d) := by
  have enable : StaysIn .mbc fun s => s.setMbc { s.mbc with ramWriteEnabled := ramEnable d } := fun s => setMbc_eq_absorb s _
  intro s
  unfold execMbcWrRamen
  split
  · exact finish_eq_absorbOutcome (enable s) _
  · exact finish_eq_absorbOutcome (flush_staysIn.comp enable s) _

theorem execSndTick_actsAlone : ActsAlone .snd execSndTick := by
  have play : StaysIn .snd fun t => t.record (.play (mixLeft t.params t.snd) (mixRight t.params t.snd)) :=
    fun t => record_eq_absorb (StaysIn.id .snd t) _
  exact .ite (fun _ => rfl)
    (fun s => finish_eq_absorbOutcome (play.comp (StaysIn.foldl tickChannel_staysIn channelOrder) s) _)
    (fun s => answer_eq_absorbOutcome .snd s _)

theorem execSndToggle_actsAlone (i : Int) : ActsAlone .snd (execSndToggle i) := by
  intro s
  unfold execSndToggle
  split
  · exact finish_eq_absorbOutcome (setSnd_eq_absorb s _) _
  · rfl

/-- A read of any address under any map: its role is read off SND's own parameters (R103). -/
theorem sndRead_actsAlone (a : Addr) : ActsAlone .snd (sndRead a) := by
  intro s
  have hp : (s.isolated .snd).params = s.params := rfl
  unfold sndRead
  rw [hp]
  match sndRole s.params.sndMap a with
  | none => rfl
  | some .master | some (.channel _) | some .volume | some .selection => exact answer_eq_absorbOutcome .snd s _

theorem sndWrite_actsAlone (a : Addr) (d : Byte) : ActsAlone .snd (sndWrite a d) := by
  intro s
  have hp : (s.isolated .snd).params = s.params := rfl
  unfold sndWrite
  rw [hp]
  match sndRole s.params.sndMap a with
  | none => rfl
  | some .master => exact finish_eq_absorbOutcome (writeMaster_staysIn d s) _
  | some (.channel k) => exact finish_eq_absorbOutcome (writeChannel_eq_absorb s k a d) _
  | some .volume | some .selection => exact finish_eq_absorbOutcome (setSnd_eq_absorb s _) _

/-- R49 for every operation of the opcode table. -/
theorem exec_actsAlone (i : Instr) : ActsAlone (unitOf i) (exec i) := by
  cases i
  case scanStart => exact fun s => finish_eq_absorbOutcome (setScan_eq_absorb s _) _
  case scanTickY | scanTickX =>
    exact .ite (fun _ => rfl) (fun s => finish_eq_absorbOutcome (setScan_eq_absorb s _) _) (.refused _ _)
  case scanTickOverrun => exact .ite (fun _ => rfl) (fun _ => rfl) (.refused _ _)
  case scanGetSprites | mbcAccepts | mbcRdRom0 | mbcRdRomx | sndAccepts | rbCount => exact fun s => answer_eq_absorbOutcome _ s _
  case mbcRdRam | mbcRdRtc => exact .ite (fun _ => rfl) (fun s => answer_eq_absorbOutcome _ s _) (.refused _ _)
  case mbcSave => exact fun s => finish_eq_absorbOutcome (flush_staysIn s) _
  case rtcAdvance => exact fun s => finish_eq_absorbOutcome (draw_eq_absorb (setMbc_eq_absorb s _) _) _
  case mbcWrRamen lo d => exact execMbcWrRamen_actsAlone lo d
  case mbcWrRomb | mbcWrRamb | mbcWrLatch => exact fun s => finish_eq_absorbOutcome (setMbc_eq_absorb s _) _
  case mbcWrRam | mbcWrRtc =>
    exact .ite (fun _ => rfl)
      (.ite (fun _ => rfl) (fun s => finish_eq_absorbOutcome (setMbc_eq_absorb s _) _) fun s => answer_eq_absorbOutcome _ s _)
      (.refused _ _)
  case mbcBad8000 | mbcBadC000 => exact fun _ => rfl
  case sndTick => exact execSndTick_actsAlone
  case sndToggle k => exact execSndToggle_actsAlone k
  case sndRdChA | sndRdChB | sndRdCtl | sndRdNr52 | sndRdWave => exact sndRead_actsAlone _
  case sndWrChA | sndWrChB | sndWrCtl | sndWrNr52 | sndWrWave => exact sndWrite_actsAlone _ _
  case sndBad acc a =>
    cases acc with
    | read => exact sndRead_actsAlone a
    | write d => exact sndWrite_actsAlone a d
  case rbWrite =>
    exact .ite (fun _ => rfl) (fun _ => rfl) fun s => finish_eq_absorbOutcome (setRb_eq_absorb s _) _
  case rbRead => exact fun s => finish_eq_absorbOutcome (setRb_eq_absorb s _) _

/-! ## What follows for two states, and for the other units -/

/-- An operation that acts alone leaves what its isolated run leaves, put into the state it started from. -/
theorem ActsAlone.next_iff {u : CoreUnit} {o : State → Host.Outcome State Fault Refusal} (h : ActsAlone u o) {s t : State} :
    o s = .next t ↔ ∃ x, o (s.isolated u) = .next x ∧ t = (s.absorb u x).answer x.result := by
  rw [h s]
  cases o (s.isolated u) <;> simp [State.absorbOutcome, eq_comm]

theorem ActsAlone.fault_iff {u : CoreUnit} {o : State → Host.Outcome State Fault Refusal} (h : ActsAlone u o) {s : State} {f : Fault} :
    o s = .fault f ↔ o (s.isolated u) = .fault f := by
  rw [h s]
  cases o (s.isolated u) <;> simp [State.absorbOutcome]

theorem ActsAlone.refused_iff {u : CoreUnit} {o : State → Host.Outcome State Fault Refusal} (h : ActsAlone u o) {s : State}
    {r : Refusal} : o s = .refused r ↔ o (s.isolated u) = .refused r := by
  rw [h s]
  cases o (s.isolated u) <;> simp [State.absorbOutcome]

/-- An operation leaves the fields of the other units as they were. -/
theorem exec_otherUnits {i : Instr} {s t : State} (h : exec i s = .next t) :
    (unitOf i ≠ .scan → t.scan = s.scan) ∧ (unitOf i ≠ .mbc → t.mbc = s.mbc) ∧
    (unitOf i ≠ .snd → t.snd = s.snd) ∧ (unitOf i ≠ .rb → t.rb = s.rb) := by
  obtain ⟨x, -, rfl⟩ := (exec_actsAlone i).next_iff.1 h
  exact s.absorb_otherUnits (unitOf i) x

/-- An operation that completes does so alike in every state that is the same to its unit. -/
theorem exec_next_of_sameView {i : Instr} {s s' t : State} (hv : sameView (unitOf i) s s') (h : exec i s = .next t) :
    ∃ t', exec i s' = .next t' ∧ sameView (unitOf i) t t' ∧ t'.result = t.result ∧
      ∃ calls, t.trace = s.trace ++ calls ∧ t'.trace = s'.trace ++ calls := by
  obtain ⟨x, hx, rfl⟩ := (exec_actsAlone i).next_iff.1 h
  rw [State.isolated_eq_of_sameView hv] at hx
  exact ⟨_, (exec_actsAlone i).next_iff.2 ⟨x, hx, rfl⟩, sameView_answer (State.sameView_absorb _ s s' x) _, rfl,
    x.trace, s.absorb_trace _ x, s'.absorb_trace _ x⟩

/-- Settles O53: every operation acts alone on its unit. -/
theorem unitsShareNoState : Obligations.UnitsShareNoState := by
  unfold Obligations.UnitsShareNoState
  refine ⟨fun i s t h => exec_otherUnits h, fun i s s' hv => ⟨fun t h => exec_next_of_sameView hv h, fun f h => ?_, fun r h => ?_⟩⟩
  · exact (exec_actsAlone i).fault_iff.2 (State.isolated_eq_of_sameView hv ▸ (exec_actsAlone i).fault_iff.1 h)
  · exact (exec_actsAlone i).refused_iff.2 (State.isolated_eq_of_sameView hv ▸ (exec_actsAlone i).refused_iff.1 h)

end Sys2Proof.Machine
end

section
/-! SUPPORT. What each of SCAN's operations leaves (40_sprite_scan.md R140 to R146); O1 to O5 are read off these rules. -/

namespace Sys2Proof.Machine

/-! ## The start of a scanline -/

/-- SCAN_START leaves the list of sprites empty (R140). -/
theorem Scan.start_sprites (c : Scan) (k : Fin 10) : c.start.sprites[k] = none :=
  Vector.getElem_replicate k.isLt

/-! ## What an X tick leaves of the scan -/

/-- The Y byte of the slot stays (R143). -/
@[simp] theorem Scan.evaluate_curY (c : Scan) (x ly : Byte) (obj16 : Bool) : (c.evaluate x ly obj16).curY = c.curY := by
  by_cases h : visible c.curY.toNat ly.toNat (spriteHeight obj16) = true
  · rw [Scan.evaluate_visible h]
    exact c.collect_curY _
  · rw [Scan.evaluate_hidden h]

/-- A visible slot is appended while the list has room (R143). -/
theorem Scan.evaluate_appends {c : Scan} {x ly : Byte} {obj16 : Bool}
    (hv : visible c.curY.toNat ly.toNat (spriteHeight obj16) = true) (hn : c.n.val < 10) :
    (c.evaluate x ly obj16).n.val = c.n.val + 1 ∧
      ∀ k : Fin 10, (c.evaluate x ly obj16).sprites[k] =
        if k.val = c.n.val then some ⟨x.toNat, c.curY.toNat, oamAddr c.i.val⟩ else c.sprites[k] := by
  rw [Scan.evaluate_visible hv]
  exact Scan.collect_room hn _

/-- A slot that is hidden, or finds the list full, leaves the list as it was (R143). -/
theorem Scan.evaluate_keeps_list {c : Scan} {x ly : Byte} {obj16 : Bool}
    (h : ¬ (visible c.curY.toNat ly.toNat (spriteHeight obj16) = true ∧ c.n.val < 10)) :
    (c.evaluate x ly obj16).n = c.n ∧ (c.evaluate x ly obj16).sprites = c.sprites := by
  by_cases hv : visible c.curY.toNat ly.toNat (spriteHeight obj16) = true
  · have full : ¬ c.n.val < 10 := fun hn => h ⟨hv, hn⟩
    rw [Scan.evaluate_visible hv, Scan.collect_full full]
    exact ⟨rfl, rfl⟩
  · rw [Scan.evaluate_hidden hv]
    exact ⟨rfl, rfl⟩

/-- The slot is collected exactly when R144's two comparisons over Int hold and the list has room. -/
theorem visible_and_room_iff (y ly : Byte) (obj16 : Bool) (n : Fin 11) :
    (visible y.toNat ly.toNat (spriteHeight obj16) = true ∧ n.val < 10) ↔
      (y.toNat : Int) ≤ (ly.toNat : Int) + 16 ∧ (ly.toNat : Int) + 16 < (y.toNat : Int) + (if obj16 then 16 else 8) ∧
        n.val < 10 := by
  rw [visible_iff, spriteHeight, and_assoc]

/-! ## A tick after the last slot -/

/-- With all 40 slots examined, SCAN_TICK_OVERRUN faults with the slot index (R145). -/
theorem execScanTickOverrun_eq {s : State} (hi : s.scan.i.val = 40) : execScanTickOverrun s = .fault (.scanOverrun 40) := by
  have last : s.scan.i = 40 := Fin.ext hi
  have hc : rowCondition .scanTickOverrun s = true := by simp [rowCondition, last]
  rw [execScanTickOverrun, if_pos hc, raise, hi]

/-- With all 40 slots examined, SCAN_TICK is its overrun row (R141). -/
theorem tickRow_overrun {s : State} (hi : s.scan.i.val = 40) : tickRow s = .scanTickOverrun := by
  rw [tickRow_eq, if_neg (by omega)]

/-- A fault of the first tick is the fault of the whole sequence. -/
theorem scanTicks_succ_of_fault {s : State} {f : Fault} (h : exec (tickRow s) s = .fault f) (k : Nat) :
    scanTicks (k + 1) s = .fault f := by
  rw [scanTicks, h]

/-! ## The obligations -/

/-- Settles O3: the X tick's next state is the evaluated scan, by whether the slot is visible and the list has room. -/
theorem scanTickXCollectsVisibleSlots : Obligations.ScanTickXCollectsVisibleSlots := by
  unfold Obligations.ScanTickXCollectsVisibleSlots
  intro s hi hs
  refine ⟨_, execScanTickX_eq hi hs, nextSlot_val hi, rfl, s.scan.evaluate_curY _ _ _, rfl, ?_, rfl⟩
  by_cases h : visible s.scan.curY.toNat s.env.ly.toNat (spriteHeight s.env.obj16) = true ∧ s.scan.n.val < 10
  · rw [if_pos ((visible_and_room_iff _ _ _ _).1 h)]
    exact Scan.evaluate_appends h.1 h.2
  · rw [if_neg (mt (visible_and_room_iff _ _ _ _).2 h)]
    exact Scan.evaluate_keeps_list h

/-- Settles O1. -/
theorem scanStartEmptiesTheScan : Obligations.ScanStartEmptiesTheScan := by
  unfold Obligations.ScanStartEmptiesTheScan
  exact fun s => ⟨_, rfl, rfl, rfl, rfl, s.scan.start_sprites, rfl, rfl⟩

/-- Settles O2. -/
theorem scanTickYReadsTheYByte : Obligations.ScanTickYReadsTheYByte := by
  unfold Obligations.ScanTickYReadsTheYByte
  exact fun s hi hs => execScanTickY_eq hi hs

/-- Settles O4: the overrun row faults, and SCAN_TICK is that row. -/
theorem scanTickAfterTheEightiethFaults : Obligations.ScanTickAfterTheEightiethFaults := by
  unfold Obligations.ScanTickAfterTheEightiethFaults
  intro s hi
  have overrun : exec .scanTickOverrun s = .fault (.scanOverrun 40) := execScanTickOverrun_eq hi
  refine ⟨overrun, scanTicks_succ_of_fault ?_ 0⟩
  rw [tickRow_overrun hi]
  exact overrun

/-- Settles O5. -/
theorem getSpritesReturnsTheList : Obligations.GetSpritesReturnsTheList := by
  unfold Obligations.GetSpritesReturnsTheList
  exact fun s => ⟨s.scan.sprites, rfl, fun _ => rfl⟩

end Sys2Proof.Machine
end

section
/-! SUPPORT. What each of MBC's operations leaves (41_bank_controller.md R170 to R187, and SND's R250 and R262), the clock's
registers and its 12 fields as numbers; O7 to O17 are read off these rules. -/

namespace Sys2Proof.Machine

/-! ## The addresses the units accept -/

/-- MBC accepts the ROM window and the RAM/RTC window (R170). -/
theorem mbcAccepts_eq (a : Addr) :
    Config.mbcAccepts a = decide (a.toNat < 0x8000 ∨ (0xA000 ≤ a.toNat ∧ a.toNat < 0xC000)) := by
  rw [Config.mbcAccepts, Bool.decide_or, Bool.decide_and]

/-- SND accepts what its map says (R250). -/
theorem sndAccepts_iff_mapAccepts (m : SndMap) (a : Addr) : sndAccepts m a = true ↔ mapAccepts m a :=
  sndRole_isSome_iff_mapAccepts m a

/-- An access of SND at an address its map does not accept faults (R262). -/
theorem sndAccessAt_of_not_mapAccepts {s : State} {a : Addr} (h : ¬ mapAccepts s.params.sndMap a) (acc : Access) :
    sndAccessAt acc a s = .fault (.addressing .snd a (accessKind acc)) := by
  have role : sndRole s.params.sndMap a = none := (sndRole_eq_none_iff _ a).2 h
  cases acc with
  | read => rw [sndAccessAt, sndRead, role]; rfl
  | write d => rw [sndAccessAt, sndWrite, role]; rfl

/-- SND_BAD makes the access its operands say (R101). -/
theorem sndAccess_sndBad (acc : Access) (a : Addr) : sndAccess (.sndBad acc a) = some (acc, a) := by
  obtain ⟨-, -, -, -, -, -, -, -, -, -, bad⟩ := sndAccess_rows
  exact bad acc a

/-! ## Which window row the bank select picks -/

theorem ramBankSelected_of_lt {s : State} (h : s.mbc.selectedRamBank.toNat < 4) : ramBankSelected s = true :=
  decide_eq_true h

theorem ramBankSelected_of_le {s : State} (h : 4 ≤ s.mbc.selectedRamBank.toNat) : ramBankSelected s = false :=
  decide_eq_false (Nat.not_lt.2 h)

/-! ## Reads -/

/-- The fixed ROM window shows the image from its start (R171). -/
theorem execMbcRdRom0_eq (lo : BitVec 14) (s : State) :
    execMbcRdRom0 lo s = .next (s.answer (.byte (romByte s.mbc lo.toNat))) := by
  rw [execMbcRdRom0, rom0Addr_toNat, finish]

/-- The switchable ROM window shows the selected bank (R172). -/
theorem execMbcRdRomx_eq (lo : BitVec 14) (s : State) :
    execMbcRdRomx lo s = .next (s.answer (.byte (romByte s.mbc (s.mbc.selectedRomBank.toNat * 0x4000 + lo.toNat)))) := by
  rw [execMbcRdRomx, romxOffset_eq, finish]

/-- The RAM window shows the selected RAM bank, whatever the enable is (R173). -/
theorem execMbcRdRam_eq {s : State} (h : s.mbc.selectedRamBank.toNat < 4) (lo : BitVec 13) :
    execMbcRdRam lo s = .next (s.answer (.byte (ramByte s.mbc (s.mbc.selectedRamBank.toNat * 0x2000 + lo.toNat)))) := by
  rw [execMbcRdRam, rowCondition, if_pos (ramBankSelected_of_lt h), ramOffset_eq, finish]

/-- Every address of the RTC window shows the selected register (R174). -/
theorem execMbcRdRtc_eq {s : State} (h : 4 ≤ s.mbc.selectedRamBank.toNat) (lo : BitVec 13) :
    execMbcRdRtc lo s = .next (s.answer (.byte (rtcRead s.mbc s.mbc.selectedRamBank))) := by
  rw [execMbcRdRtc, rowCondition, ramBankSelected_of_le h]
  rfl

/-- The byte of each register a select can name (R175). -/
theorem Clock.read_eq (c : Clock) (sel : Byte) :
    if sel = 0x08 then c.read sel = c.sec
    else if sel = 0x09 then c.read sel = c.min
    else if sel = 0x0A then c.read sel = c.hrs
    else if sel = 0x0B then (c.read sel).toNat = c.day.toNat % 256
    else if sel = 0x0C then
      (c.read sel).toNat = (if c.ovf then 128 else 0) + (if c.halt then 64 else 0) + c.day.toNat / 256
    else c.read sel = 0xFF := by
  by_cases hSec : sel = 0x08
  · subst hSec; rfl
  by_cases hMin : sel = 0x09
  · subst hMin; rfl
  by_cases hHrs : sel = 0x0A
  · subst hHrs; rfl
  by_cases hDayLow : sel = 0x0B
  · subst hDayLow; exact c.dayLow_toNat
  by_cases hDayHigh : sel = 0x0C
  · subst hDayHigh; exact c.dayHigh_toNat
  simp only [Clock.read, hSec, hMin, hHrs, hDayLow, hDayHigh, if_false]

/-! ## Writes of the control registers -/

/-- RAMEN with bit 1 or 3 of the data set enables RAM writes (R176, R104). -/
theorem execMbcWrRamen_on {d : Byte} (h : d.getLsbD 1 = true ∨ d.getLsbD 3 = true) (lo : BitVec 13) (s : State) :
    execMbcWrRamen lo d s = .next ((s.setMbc { s.mbc with ramWriteEnabled := true }).answer .nothing) := by
  have on : ramEnable d = true := by rw [ramEnable_eq, Bool.or_eq_true]; exact h
  simp only [execMbcWrRamen, on, if_true, finish]

/-- RAMEN with both bits clear disables RAM writes and flushes (R176, R104). -/
theorem execMbcWrRamen_off {d : Byte} (h : ¬ (d.getLsbD 1 = true ∨ d.getLsbD 3 = true)) (lo : BitVec 13) (s : State) :
    execMbcWrRamen lo d s = .next ((flush (s.setMbc { s.mbc with ramWriteEnabled := false })).answer .nothing) := by
  have off : ramEnable d = false := by rw [ramEnable_eq, ← Bool.not_eq_true, Bool.or_eq_true]; exact h
  simp only [execMbcWrRamen, off, Bool.false_eq_true, if_false, finish]

/-- What LATCH does to the latch and the snapshot, before the shadow takes the data (R179). -/
theorem toggledLatch_eq (m : Mbc) (d : Byte) :
    (if latchToggles m.latchRegister d then m.toggleLatch else m) =
      { m with
        clockLatched := if d.toNat = 1 ∧ m.latchRegister.toNat = 0 then !m.clockLatched else m.clockLatched
        snap := if d.toNat = 1 ∧ m.latchRegister.toNat = 0 ∧ m.clockLatched = false then m.live else m.snap } := by
  have edge : latchToggles m.latchRegister d = true ↔ d.toNat = 1 ∧ m.latchRegister.toNat = 0 := by
    rw [latchToggles_iff, ← BitVec.toNat_inj, ← BitVec.toNat_inj]
    rfl
  by_cases h : d.toNat = 1 ∧ m.latchRegister.toNat = 0
  · rw [if_pos (edge.2 h), Mbc.toggleLatch_eq]
    cases hm : m.clockLatched <;> simp [h]
  · have kept : ¬ (d.toNat = 1 ∧ m.latchRegister.toNat = 0 ∧ m.clockLatched = false) := fun g => h ⟨g.1, g.2.1⟩
    rw [if_neg (mt edge.1 h), if_neg h, if_neg kept]

/-! ## Writes of the RAM and RTC window -/

/-- An enabled RAM write goes to the selected bank (R180). -/
theorem execMbcWrRam_enabled {s : State} (h : s.mbc.selectedRamBank.toNat < 4) (he : s.mbc.ramWriteEnabled = true)
    (lo : BitVec 13) (d : Byte) :
    execMbcWrRam lo d s = .next ((s.setMbc { s.mbc with
      ram := s.mbc.ram.set (s.mbc.selectedRamBank.toNat * 0x2000 + lo.toNat) d }).answer .nothing) := by
  rw [execMbcWrRam, rowCondition, if_pos (ramBankSelected_of_lt h), if_pos he, ramOffset_eq, finish]

/-- A disabled RAM write is dropped (R180). -/
theorem execMbcWrRam_disabled {s : State} (h : s.mbc.selectedRamBank.toNat < 4) (he : ¬ s.mbc.ramWriteEnabled = true)
    (lo : BitVec 13) (d : Byte) : execMbcWrRam lo d s = .next (s.answer .nothing) := by
  rw [execMbcWrRam, rowCondition, if_pos (ramBankSelected_of_lt h), if_neg he, finish]

/-- An enabled RTC write goes to the live clock, latched or not (R181). -/
theorem execMbcWrRtc_enabled {s : State} (h : 4 ≤ s.mbc.selectedRamBank.toNat) (he : s.mbc.ramWriteEnabled = true)
    (lo : BitVec 13) (d : Byte) :
    execMbcWrRtc lo d s =
      .next ((s.setMbc { s.mbc with live := s.mbc.live.write s.mbc.selectedRamBank d }).answer .nothing) := by
  rw [execMbcWrRtc, rowCondition, ramBankSelected_of_le h, he]
  rfl

/-- A disabled RTC write is dropped (R181). -/
theorem execMbcWrRtc_disabled {s : State} (h : 4 ≤ s.mbc.selectedRamBank.toNat) (he : s.mbc.ramWriteEnabled = false)
    (lo : BitVec 13) (d : Byte) : execMbcWrRtc lo d s = .next (s.answer .nothing) := by
  rw [execMbcWrRtc, rowCondition, ramBankSelected_of_le h, he]
  rfl

/-- The clock after a write of each register a select can name (R182). -/
theorem Clock.write_eq (c : Clock) (sel d : Byte) :
    if sel = 0x08 then c.write sel d = { c with sec := d }
    else if sel = 0x09 then c.write sel d = { c with min := d }
    else if sel = 0x0A then c.write sel d = { c with hrs := d }
    else if sel = 0x0B then
      c.write sel d = { c with day := (c.write sel d).day } ∧ (c.write sel d).day.toNat = c.day.toNat / 256 * 256 + d.toNat
    else if sel = 0x0C then
      c.write sel d = { c with day := (c.write sel d).day, halt := d.getLsbD 6, ovf := c.ovf && d.getLsbD 7 } ∧
        (c.write sel d).day.toNat = d.toNat % 2 * 256 + c.day.toNat % 256
    else c.write sel d = c := by
  by_cases hSec : sel = 0x08
  · subst hSec; rfl
  by_cases hMin : sel = 0x09
  · subst hMin; rfl
  by_cases hHrs : sel = 0x0A
  · subst hHrs; rfl
  by_cases hDayLow : sel = 0x0B
  · subst hDayLow; exact ⟨rfl, dayLow_write c.day d⟩
  by_cases hDayHigh : sel = 0x0C
  · subst hDayHigh
    have cleared : (c.ovf && d.getLsbD 7) = if d.getLsbD 7 then c.ovf else false := by cases d.getLsbD 7 <;> simp
    exact ⟨by rw [cleared]; rfl, dayHigh_write c.day d⟩
  simp only [Clock.write, hSec, hMin, hHrs, hDayLow, hDayHigh, if_false]

/-! ## The 12 clock fields -/

/-- The fields of a clock as numbers (R225). -/
theorem serialize_toInt (c : Clock) (r : Vector ClockField 7) :
    (serialize c r)[0].toInt = c.sec.toNat ∧ (serialize c r)[1].toInt = c.min.toNat ∧ (serialize c r)[2].toInt = c.hrs.toNat ∧
      (serialize c r)[3].toInt = (c.day.toNat % 256 : Nat) ∧
      (serialize c r)[4].toInt = ((if c.ovf then 128 else 0) + (if c.halt then 64 else 0) + c.day.toNat / 256 : Nat) ∧
      ∀ k : Fin 7, (serialize c r)[5 + k.val] = r[k] := by
  obtain ⟨hSec, hMin, hHrs, hDayLow, hDayHigh, hReserved⟩ := serialize_fields c r
  rw [hSec, hMin, hHrs, hDayLow, hDayHigh]
  simp only [byteField_toInt, Clock.dayLow_toNat, Clock.dayHigh_toNat]
  exact ⟨trivial, trivial, trivial, trivial, trivial, hReserved⟩

theorem fieldInRange_byteField (v : Byte) : fieldInRange (byteField v) = true := by
  have := v.isLt
  rw [fieldInRange, byteField_toInt, Bool.and_eq_true, decide_eq_true_eq, decide_eq_true_eq]
  omega

theorem byteField_setWidth (v : Byte) : (byteField v).setWidth 8 = v := by
  rw [byteField, BitVec.setWidth_setWidth_of_le v (by decide), BitVec.setWidth_eq]

theorem byteField_getLsbD (v : Byte) {i : Nat} (hi : i < 8) : (byteField v).getLsbD i = v.getLsbD i := by
  rw [byteField, BitVec.getLsbD_setWidth, decide_eq_true (by omega), Bool.true_and]

/-- The three bits of RTC_DH (R108). -/
theorem Clock.dayHigh_bits (c : Clock) :
    c.dayHigh.getLsbD 0 = c.day.getLsbD 8 ∧ c.dayHigh.getLsbD 6 = c.halt ∧ c.dayHigh.getLsbD 7 = c.ovf := by
  unfold Clock.dayHigh
  cases c.ovf <;> cases c.halt <;> cases c.day.getLsbD 8 <;> decide

/-- RTC_DL and bit 0 of RTC_DH are the whole day counter (R226). -/
theorem day_of_fields (c : Clock) :
    (((byteField c.dayHigh).setWidth 9 &&& 1#9) <<< 8) ||| (byteField c.dayLow).setWidth 9 = c.day := by
  obtain ⟨hDay8, -, -⟩ := c.dayHigh_bits
  apply BitVec.eq_of_getLsbD_eq
  intro i hi
  by_cases low : i < 8
  · simp [byteField, Clock.dayLow, low, hi]
  · obtain rfl : i = 8 := by omega
    simpa [byteField, Clock.dayLow] using hDay8

/-- The reserved fields come back in their order (R226). -/
theorem reserved_of_fields (r : Vector ClockField 7) : #v[r[0], r[1], r[2], r[3], r[4], r[5], r[6]] = r :=
  Vector.ext fun i hi => by
    match i, hi with
    | 0, _ | 1, _ | 2, _ | 3, _ | 4, _ | 5, _ | 6, _ => rfl

/-- Every clock comes back from its 12 fields (R227). -/
theorem deserialize_serialize (c : Clock) (r : Vector ClockField 7) : deserialize (serialize c r) = some (c, r) := by
  obtain ⟨hSec, hMin, hHrs, hDayLow, hDayHigh, -⟩ := serialize_fields c r
  obtain ⟨-, hHalt, hOvf⟩ := c.dayHigh_bits
  simp only [deserialize, hSec, hMin, hHrs, hDayLow, hDayHigh, fieldInRange_byteField, Bool.and_self, if_true,
    byteField_setWidth, byteField_getLsbD, Nat.reduceLT, hHalt, hOvf, day_of_fields]
  exact congrArg (fun x => some (c, x)) (reserved_of_fields r)

/-! ## The obligations -/

/-- Settles O17: MBC's two rows by their addresses, SND's accesses by the map. -/
theorem unacceptedAddressesFault : Obligations.UnacceptedAddressesFault := by
  unfold Obligations.UnacceptedAddressesFault
  intro s
  have snd : ∀ (i : Instr) (acc : Access) (a : Addr), sndAccess i = some (acc, a) → ¬ mapAccepts s.params.sndMap a →
      exec i s = .fault (.addressing .snd a (accessKind acc)) := fun i acc a hi ha =>
    (exec_of_sndAccess hi s).trans (sndAccessAt_of_not_mapAccepts ha acc)
  refine ⟨fun acc lo => ⟨_, bad8000Addr_toNat lo, rfl⟩, fun acc lo => ⟨_, badC000Addr_toNat lo, rfl⟩, snd, ?_⟩
  intro acc a hm ha
  refine snd _ acc a (sndAccess_sndBad acc a) ?_
  rwa [hm, ← sndAccepts_iff_mapAccepts, sndAccepts_default]

/-- Settles O16. -/
theorem saveFlushesOnce : Obligations.SaveFlushesOnce := by
  unfold Obligations.SaveFlushesOnce
  intro s
  obtain ⟨hSec, hMin, hHrs, hDayLow, hDayHigh, hReserved⟩ := serialize_toInt s.mbc.live s.mbc.reserved
  exact ⟨_, rfl, hSec, hMin, hHrs, hDayLow, hDayHigh, hReserved, deserialize_serialize _ _⟩

/-- Settles O15. -/
theorem rtcWindowWrites : Obligations.RtcWindowWrites := by
  unfold Obligations.RtcWindowWrites
  intro s lo d h
  by_cases he : s.mbc.ramWriteEnabled = false
  · exact ⟨s.mbc.live, execMbcWrRtc_disabled h he lo d, by rw [if_pos he]⟩
  · refine ⟨_, execMbcWrRtc_enabled h (Bool.eq_true_of_not_eq_false he) lo d, ?_⟩
    rw [if_neg he]
    exact s.mbc.live.write_eq s.mbc.selectedRamBank d

/-- Settles O14: enabled, the RAM is read after the write of one byte; disabled, it is as it was. -/
theorem ramWindowWrites : Obligations.RamWindowWrites := by
  unfold Obligations.RamWindowWrites
  intro s lo d hw h
  by_cases he : s.mbc.ramWriteEnabled = true
  · refine ⟨_, execMbcWrRam_enabled h he lo d, rfl, Memory.set_size _ _ _, fun o => ?_⟩
    refine (Memory.get_set hw _ d o).trans (if_congr ?_ rfl rfl)
    constructor
    · rintro ⟨rfl, hin⟩; exact ⟨he, rfl, hin⟩
    · rintro ⟨-, rfl, hin⟩; exact ⟨rfl, hin⟩
  · exact ⟨_, execMbcWrRam_disabled h he lo d, rfl, rfl, fun o => (if_neg fun g => he g.1).symm⟩

/-- Settles O13. -/
theorem latchWrites : Obligations.LatchWrites := by
  unfold Obligations.LatchWrites
  intro s lo d
  change execMbcWrLatch lo d s = _
  rw [execMbcWrLatch, toggledLatch_eq]
  rfl

/-- Settles O12. -/
theorem bankSelectWrites : Obligations.BankSelectWrites := by
  unfold Obligations.BankSelectWrites
  exact fun s lo d => ⟨⟨romBank d, rfl, romBank_toNat d⟩, rfl⟩

/-- Settles O11: enabled where bit 1 or 3 is set, else the flush's one call. -/
theorem ramEnableWrites : Obligations.RamEnableWrites := by
  unfold Obligations.RamEnableWrites
  intro s lo d
  by_cases h : d.getLsbD 1 = true ∨ d.getLsbD 3 = true
  · rw [if_pos h]
    exact execMbcWrRamen_on h lo s
  · rw [if_neg h]
    exact ⟨_, execMbcWrRamen_off h lo s, serialize_toInt s.mbc.live s.mbc.reserved⟩

/-- Settles O10. -/
theorem rtcWindowReads : Obligations.RtcWindowReads := by
  unfold Obligations.RtcWindowReads
  intro s lo h
  refine ⟨_, execMbcRdRtc_eq h lo, ?_⟩
  rintro v rfl
  exact Clock.read_eq _ s.mbc.selectedRamBank

/-- Settles O9. -/
theorem ramWindowReads : Obligations.RamWindowReads := by
  unfold Obligations.RamWindowReads
  exact fun s lo h => execMbcRdRam_eq h lo

/-- Settles O8. -/
theorem romWindowReads : Obligations.RomWindowReads := by
  unfold Obligations.RomWindowReads
  exact fun s lo => ⟨execMbcRdRom0_eq lo s, execMbcRdRomx_eq lo s⟩

/-- Settles O7: MBC's test is a comparison, SND's asks its map, which may be the default one. -/
theorem acceptedAddressRanges : Obligations.AcceptedAddressRanges := by
  unfold Obligations.AcceptedAddressRanges
  intro s a
  rw [← mbcAccepts_eq]
  refine ⟨rfl, _, rfl, sndAccepts_iff_mapAccepts _ a, fun hm => ?_⟩
  rw [hm]
  exact sndAccepts_default a

end Sys2Proof.Machine
end

section
/-! SUPPORT. The clock as a count of seconds, its fields as bytes (42_real_time_clock.md R220 to R226), and what an operation can
do to MBC; O21, O24 and O25 are read off these rules. -/

namespace Sys2Proof.Machine

/-! ## One second of the default law (R221) -/

/-- The seconds the counting fields stand for, a carry still to be made included. -/
def Clock.count (c : Clock) : Nat := ((c.day.toNat * 24 + c.hrs.toNat) * 60 + c.min.toNat) * 60 + c.sec.toNat

/-- The carry into the minutes keeps the count and leaves the seconds in their range. -/
theorem Clock.carrySec_count {c : Clock} (hs : c.sec.toNat ≤ 60) (hm : c.min.toNat < 60) :
    c.carrySec.count = c.count ∧ c.carrySec.sec.toNat < 60 ∧ c.carrySec.min.toNat ≤ 60 ∧ c.carrySec.hrs = c.hrs ∧
      c.carrySec.ovf = c.ovf := by
  unfold Clock.carrySec
  split
  next full =>
    have next_min : (c.min + 1#8).toNat = c.min.toNat + 1 := by bv_omega
    have sixty : c.sec.toNat = 60 := by rw [full]; rfl
    refine ⟨?_, by simp, next_min.trans_le (by omega), rfl, rfl⟩
    simp only [Clock.count, BitVec.ofNat_eq_ofNat, next_min, sixty, BitVec.toNat_ofNat]
    omega
  next part => exact ⟨rfl, by bv_omega, hm.le, rfl, rfl⟩

/-- The carry into the hours keeps the count and leaves the minutes in their range. -/
theorem Clock.carryMin_count {c : Clock} (hm : c.min.toNat ≤ 60) (hh : c.hrs.toNat < 24) :
    c.carryMin.count = c.count ∧ c.carryMin.min.toNat < 60 ∧ c.carryMin.hrs.toNat ≤ 24 ∧ c.carryMin.sec = c.sec ∧
      c.carryMin.ovf = c.ovf := by
  unfold Clock.carryMin
  split
  next full =>
    have next_hrs : (c.hrs + 1#8).toNat = c.hrs.toNat + 1 := by bv_omega
    have sixty : c.min.toNat = 60 := by rw [full]; rfl
    refine ⟨?_, by simp, next_hrs.trans_le (by omega), rfl, rfl⟩
    simp only [Clock.count, BitVec.ofNat_eq_ofNat, next_hrs, sixty, BitVec.toNat_ofNat]
    omega
  next part => exact ⟨rfl, by bv_omega, hh.le, rfl, rfl⟩

/-- The carry into the day counter wraps the count at 512 days, and the wrap sets the overflow flag (R223). -/
theorem Clock.carryHrs_count {c : Clock} (hs : c.sec.toNat < 60) (hm : c.min.toNat < 60) (hh : c.hrs.toNat ≤ 24) :
    c.carryHrs.count = c.count % (512 * 86400) ∧ c.carryHrs.hrs.toNat < 24 ∧ c.carryHrs.sec = c.sec ∧
      c.carryHrs.min = c.min ∧ c.carryHrs.ovf = (c.ovf || decide (512 * 86400 ≤ c.count)) := by
  have days : c.day.toNat < 512 := c.day.isLt
  unfold Clock.carryHrs
  split
  next full =>
    have midnight : c.hrs.toNat = 24 := by rw [full]; rfl
    split
    next last =>
      have day511 : c.day.toNat = 511 := by rw [last]; rfl
      have wraps : 512 * 86400 ≤ c.count := by simp only [Clock.count]; omega
      refine ⟨?_, by simp, rfl, rfl, by simp [wraps]⟩
      simp only [Clock.count, midnight, day511, BitVec.ofNat_eq_ofNat, BitVec.toNat_ofNat]
      omega
    next more =>
      have next_day : (c.day + 1#9).toNat = c.day.toNat + 1 := by bv_omega
      have stays : ¬ 512 * 86400 ≤ c.count := by simp only [Clock.count]; bv_omega
      refine ⟨?_, by simp, rfl, rfl, by simp [stays]⟩
      rw [Nat.mod_eq_of_lt (Nat.not_le.1 stays)]
      simp only [Clock.count, midnight, BitVec.ofNat_eq_ofNat, next_day, BitVec.toNat_ofNat]
      omega
  next part =>
    have before : c.hrs.toNat < 24 := by bv_omega
    have stays : ¬ 512 * 86400 ≤ c.count := by simp only [Clock.count]; omega
    exact ⟨(Nat.mod_eq_of_lt (Nat.not_le.1 stays)).symm, before, rfl, rfl, by simp [stays]⟩

/-- A second of an in-range clock is one more in the count, in range again; the wrap sets the overflow flag (R221, R223). -/
theorem Clock.second_count {c : Clock} (hs : c.sec.toNat < 60) (hm : c.min.toNat < 60) (hh : c.hrs.toNat < 24) :
    c.second.count = (c.count + 1) % (512 * 86400) ∧ c.second.sec.toNat < 60 ∧ c.second.min.toNat < 60 ∧
      c.second.hrs.toNat < 24 ∧ c.second.ovf = (c.ovf || decide (512 * 86400 ≤ c.count + 1)) := by
  have next_sec : (c.sec + 1).toNat = c.sec.toNat + 1 := by bv_omega
  have start : ({ c with sec := c.sec + 1 } : Clock).count = c.count + 1 := by
    simp only [Clock.count, next_sec]
    omega
  obtain ⟨count₁, sec₁, min₁, hrs₁, ovf₁⟩ :=
    Clock.carrySec_count (c := { c with sec := c.sec + 1 }) (by simp only [next_sec]; omega) hm
  obtain ⟨count₂, min₂, hrs₂, sec₂, ovf₂⟩ := Clock.carryMin_count min₁ ((congrArg BitVec.toNat hrs₁).trans_lt hh)
  obtain ⟨count₃, hrs₃, sec₃, min₃, ovf₃⟩ := Clock.carryHrs_count (sec₂ ▸ sec₁) min₂ hrs₂
  have total := count₂.trans (count₁.trans start)
  refine ⟨count₃.trans (congrArg (· % _) total), ?_, min₃ ▸ min₂, hrs₃, ?_⟩
  · exact (congrArg BitVec.toNat (sec₃.trans sec₂)).trans_lt sec₁
  · exact ovf₃.trans (by rw [ovf₂, ovf₁, total])

/-- The count is full exactly at the last second of day 511 (R223). -/
theorem Clock.count_full_iff {c : Clock} (hs : c.sec.toNat < 60) (hm : c.min.toNat < 60) (hh : c.hrs.toNat < 24) :
    512 * 86400 ≤ c.count + 1 ↔ c.day.toNat = 511 ∧ c.hrs.toNat = 23 ∧ c.min.toNat = 59 ∧ c.sec.toNat = 59 := by
  have days : c.day.toNat < 512 := c.day.isLt
  simp only [Clock.count]
  omega

theorem Clock.outOfRange_iff (c : Clock) : c.outOfRange = true ↔ 60 ≤ c.sec.toNat ∨ 60 ≤ c.min.toNat ∨ 24 ≤ c.hrs.toNat := by
  simp only [Clock.outOfRange, Bool.or_eq_true, decide_eq_true_eq, or_assoc]

theorem Clock.standardLaw_halted {c : Clock} (h : c.halt = true) (n : Nat) : c.standardLaw n = (c, 0) := by
  rw [Clock.standardLaw, if_pos h]

theorem Clock.standardLaw_inRange {c : Clock} (h : c.halt = false) (hs : c.sec.toNat < 60) (hm : c.min.toNat < 60)
    (hh : c.hrs.toNat < 24) (n : Nat) : c.standardLaw n = (c.second, 0) := by
  have inside : ¬ c.outOfRange = true := by rw [Clock.outOfRange_iff]; omega
  rw [Clock.standardLaw, h, if_neg Bool.false_ne_true, if_neg inside]

/-! ## Clock fields as bytes (R226) -/

theorem fieldInRange_iff (f : ClockField) : fieldInRange f = true ↔ 0 ≤ f.toInt ∧ f.toInt ≤ 255 := by
  rw [fieldInRange, Bool.and_eq_true, decide_eq_true_eq, decide_eq_true_eq]

/-- A field is out of range exactly outside 0..255. -/
theorem fieldInRange_eq_false_iff (f : ClockField) : fieldInRange f = false ↔ f.toInt < 0 ∨ 255 < f.toInt := by
  rw [← Bool.not_eq_true, fieldInRange_iff]
  omega

/-- A field in range is a byte. -/
theorem byteField_of_fieldInRange {f : ClockField} (h : fieldInRange f = true) : byteField (f.setWidth 8) = f := by
  obtain ⟨low, high⟩ := (fieldInRange_iff f).1 h
  have small : f.toNat < 256 := by
    rw [BitVec.toInt_eq_toNat_cond] at low high
    split at high <;> omega
  apply BitVec.eq_of_toNat_eq
  rw [byteField, BitVec.toNat_setWidth_of_le (by decide), BitVec.toNat_setWidth, Nat.mod_eq_of_lt small]

/-- The low byte of a field in range is the field's number. -/
theorem setWidth_toNat_of_fieldInRange {f : ClockField} (h : fieldInRange f = true) : ((f.setWidth 8).toNat : Int) = f.toInt := by
  rw [← byteField_toInt, byteField_of_fieldInRange h]

/-- The day counter of a day-low byte and a day-high byte. -/
theorem day_of_bytes (low high : Byte) :
    (((high.setWidth 9 &&& 1#9) <<< 8) ||| low.setWidth 9).toNat = high.toNat % 2 * 256 + low.toNat := by
  have bit8 : ((high.setWidth 9 &&& 1#9) <<< 8) &&& 0x100#9 = (high.setWidth 9 &&& 1#9) <<< 8 ∧
      ((high.setWidth 9 &&& 1#9) <<< 8).toNat / 256 = high.toNat % 2 := by clear low; revert high; decide
  rw [← bit8.2, ← dayLow_write, bit8.1]

/-- The day counter two fields in range stand for. -/
theorem day_toNat_of_fieldInRange {low high : ClockField} (hl : fieldInRange low = true) (hh : fieldInRange high = true) :
    ((((high.setWidth 9 &&& 1#9) <<< 8) ||| low.setWidth 9).toNat : Int) = high.toInt % 2 * 256 + low.toInt := by
  have narrow (v : Byte) : (byteField v).setWidth 9 = v.setWidth 9 := BitVec.setWidth_setWidth_of_le v (by decide)
  rw [← byteField_of_fieldInRange hl, ← byteField_of_fieldInRange hh, narrow, narrow, day_of_bytes, byteField_toInt, byteField_toInt]
  omega

/-- The fields are refused exactly where one of the first five is out of range (R226). -/
theorem deserialize_eq_none_iff (f : Vector ClockField 12) :
    deserialize f = none ↔ ∃ k : Fin 5, fieldInRange f[k.val] = false := by
  have gate : (fieldInRange f[0] && fieldInRange f[1] && fieldInRange f[2] && fieldInRange f[3] && fieldInRange f[4]) = true ↔
      ∀ k : Fin 5, fieldInRange f[k.val] = true := by
    simp [Fin.forall_fin_succ, and_assoc]
  unfold deserialize
  split
  next all => simp [gate.1 all]
  next notAll => simpa [gate] using notAll

/-- What the fields read as (R226). -/
theorem deserialize_cases {f : Vector ClockField 12} {c : Clock} {r : Vector ClockField 7} (h : deserialize f = some (c, r)) :
    (∀ k : Fin 5, fieldInRange f[k.val] = true) ∧
      c = { sec := f[0].setWidth 8, min := f[1].setWidth 8, hrs := f[2].setWidth 8,
            day := ((f[4].setWidth 9 &&& 1#9) <<< 8) ||| f[3].setWidth 9, halt := f[4].getLsbD 6, ovf := f[4].getLsbD 7 } ∧
      ∀ k : Fin 7, r[k] = f[5 + k.val] := by
  have all : ∀ k : Fin 5, fieldInRange f[k.val] = true := fun k => by
    by_contra bad
    rw [(deserialize_eq_none_iff f).2 ⟨k, Bool.eq_false_of_not_eq_true bad⟩] at h
    cases h
  unfold deserialize at h
  split at h
  · obtain ⟨rfl, rfl⟩ := Prod.mk.inj (Option.some.inj h)
    refine ⟨all, rfl, fun k => ?_⟩
    match k with
    | 0 | 1 | 2 | 3 | 4 | 5 | 6 => rfl
  · cases h

/-- A launch whose clock fields are refused is refused (R335). -/
theorem construct_eq_none {p : Launch} (h : deserialize p.clock = none) : State.construct p = none := by
  rw [State.construct, h]

/-! ## What an operation can do to MBC -/

/-- The MBC an operation can leave: as it was, or as one of the rows that write it leaves it (R176 to R182, R220). -/
inductive MbcStep (s : State) : Instr → Mbc → Prop where
  | kept (i : Instr) : MbcStep s i s.mbc
  | advance : MbcStep s .rtcAdvance { s.mbc with live := (s.mbc.live.advance s.params.rtcLaw s.draws).1 }
  | ramen (lo : BitVec 13) (d : Byte) : MbcStep s (.mbcWrRamen lo d) { s.mbc with ramWriteEnabled := ramEnable d }
  | romb (lo : BitVec 13) (d : Byte) : MbcStep s (.mbcWrRomb lo d) { s.mbc with selectedRomBank := romBank d }
  | ramb (lo : BitVec 13) (d : Byte) : MbcStep s (.mbcWrRamb lo d) { s.mbc with selectedRamBank := d }
  | latch (lo : BitVec 13) (d : Byte) : MbcStep s (.mbcWrLatch lo d)
      { (if latchToggles s.mbc.latchRegister d then s.mbc.toggleLatch else s.mbc) with latchRegister := d }
  | ram (lo : BitVec 13) (d : Byte) (o : Nat) : MbcStep s (.mbcWrRam lo d) { s.mbc with ram := s.mbc.ram.set o d }
  | rtc (lo : BitVec 13) (d : Byte) (enabled : s.mbc.ramWriteEnabled = true) :
      MbcStep s (.mbcWrRtc lo d) { s.mbc with live := s.mbc.live.write s.mbc.selectedRamBank d }

theorem MbcStep.of_finish {i : Instr} {s u t : State} {v : Result} (step : MbcStep s i u.mbc) (h : finish u v = .next t) :
    MbcStep s i t.mbc := by
  rw [(finish_eq_next u t v).1 h]
  exact step

/-- A row with a condition on the state does its operation where the condition holds (R101). -/
theorem MbcStep.of_guarded {c : Prop} [Decidable c] {i : Instr} {s t : State} {o : Host.Outcome State Fault Refusal} {r : Refusal}
    (step : o = .next t → MbcStep s i t.mbc) (h : (if c then o else .refused r) = .next t) : MbcStep s i t.mbc := by
  split at h
  · exact step h
  · cases h

theorem execMbcWrRamen_mbcStep {lo : BitVec 13} {d : Byte} {s t : State} (h : execMbcWrRamen lo d s = .next t) :
    MbcStep s (.mbcWrRamen lo d) t.mbc := by
  unfold execMbcWrRamen at h
  split at h
  · exact .of_finish (.ramen lo d) h
  · exact .of_finish (.ramen lo d) h

theorem execMbcWrRam_mbcStep {lo : BitVec 13} {d : Byte} {s t : State} (h : execMbcWrRam lo d s = .next t) :
    MbcStep s (.mbcWrRam lo d) t.mbc := by
  obtain ⟨ram, rfl | ⟨o, rfl⟩, rfl⟩ := execMbcWrRam_cases h
  · exact .kept _
  · exact .ram lo d o

/-- A write of the RTC window changes the clock only while writes are enabled (R181). -/
theorem execMbcWrRtc_mbcStep {lo : BitVec 13} {d : Byte} {s t : State} (h : execMbcWrRtc lo d s = .next t) :
    MbcStep s (.mbcWrRtc lo d) t.mbc := by
  refine .of_guarded (fun h => ?_) h
  split at h
  next enabled => exact .of_finish (.rtc lo d enabled) h
  next => exact .of_finish (.kept _) h

/-- Every operation that completes does one of these: MBC's own rows one by one, another unit's by the frame (R49). -/
theorem exec_mbcStep {i : Instr} {s t : State} (h : exec i s = .next t) : MbcStep s i t.mbc := by
  obtain own | other := eq_or_ne (unitOf i) .mbc
  case inr =>
    obtain ⟨-, frame, -, -⟩ := exec_otherUnits h
    rw [frame other]
    exact .kept i
  cases i
  case mbcAccepts | mbcRdRom0 | mbcRdRomx => exact .of_finish (.kept _) h
  case mbcSave => exact .of_finish (u := flush s) (.kept _) h
  case mbcRdRam | mbcRdRtc => exact .of_guarded (.of_finish (.kept _)) h
  case rtcAdvance => exact .of_finish .advance h
  case mbcWrRamen => exact execMbcWrRamen_mbcStep h
  case mbcWrRomb lo d => exact .of_finish (.romb lo d) h
  case mbcWrRamb lo d => exact .of_finish (.ramb lo d) h
  case mbcWrLatch lo d => exact .of_finish (.latch lo d) h
  case mbcWrRam => exact execMbcWrRam_mbcStep h
  case mbcWrRtc => exact execMbcWrRtc_mbcStep h
  case mbcBad8000 | mbcBadC000 => cases h
  all_goals cases own

/-- Of what an operation can do to MBC, only a write of RTC_DH with bit 7 clear clears the overflow flag (R222). -/
theorem MbcStep.ovf_cleared {s : State} {i : Instr} {m : Mbc} (step : MbcStep s i m) (before : s.mbc.live.ovf = true)
    (after : m.live.ovf = false) :
    ∃ lo d, i = .mbcWrRtc lo d ∧ s.mbc.selectedRamBank = 0x0C ∧ d.getLsbD 7 = false ∧ s.mbc.ramWriteEnabled = true := by
  have keeps {c : Clock} (h : c.ovf = true) : ¬ c.ovf = false := by simp [h]
  cases step with
  | kept | ramen | romb | ramb | ram => exact absurd after (keeps before)
  | advance => exact absurd after (keeps (Clock.advance_ovf _ _ _ before))
  | latch lo d =>
    have live : (if latchToggles s.mbc.latchRegister d then s.mbc.toggleLatch else s.mbc).live = s.mbc.live := by
      rw [toggledLatch_eq]
    exact absurd after (keeps (live ▸ before))
  | rtc lo d enabled =>
    obtain kept | ⟨dayHigh, bit7⟩ := Clock.write_ovf s.mbc.live s.mbc.selectedRamBank d before
    · exact absurd after (keeps kept)
    · exact ⟨lo, d, rfl, dayHigh, bit7, enabled⟩

/-! ## The obligations -/

/-- Settles O21: the three cases of the default law. -/
theorem standardAdvanceIsOneSecond : Obligations.StandardAdvanceIsOneSecond := by
  unfold Obligations.StandardAdvanceIsOneSecond
  intro s law
  have runs : exec .rtcAdvance s = .next (((s.setMbc { s.mbc with live := (s.mbc.live.standardLaw s.draws).1 }).draw
      (s.mbc.live.standardLaw s.draws).2).answer .nothing) := by
    change execRtcAdvance s = _
    rw [execRtcAdvance, law]
    rfl
  refine ⟨_, _, runs, fun halted => ?_, fun running hs hm hh => ?_, fun running out => ⟨?_, fun ovf => ?_⟩⟩
  · rw [Clock.standardLaw_halted halted]
    exact ⟨rfl, rfl⟩
  · obtain ⟨count, sec, min, hrs, ovf⟩ := Clock.second_count hs hm hh
    rw [Clock.standardLaw_inRange running hs hm hh]
    refine ⟨rfl, sec, min, hrs, s.mbc.live.second_flags.1.trans running, count, ?_⟩
    rw [ovf, decide_eq_decide.2 (Clock.count_full_iff hs hm hh)]
  · exact (s.mbc.live.standardLaw_halt s.draws).trans running
  · exact s.mbc.live.advance_ovf .standard s.draws ovf

/-- Settles O24: the range check, the refused construction, and the numbers the fields are read as. -/
theorem clockFieldsOutOfRangeAreRefused : Obligations.ClockFieldsOutOfRangeAreRefused := by
  unfold Obligations.ClockFieldsOutOfRangeAreRefused
  intro f
  refine ⟨?_, fun p hp h => construct_eq_none (hp ▸ h), fun c r h => ?_⟩
  · rw [deserialize_eq_none_iff]
    exact exists_congr fun k => fieldInRange_eq_false_iff _
  · obtain ⟨all, rfl, reserved⟩ := deserialize_cases h
    exact ⟨setWidth_toNat_of_fieldInRange (all 0), setWidth_toNat_of_fieldInRange (all 1), setWidth_toNat_of_fieldInRange (all 2),
      day_toNat_of_fieldInRange (all 3) (all 4), rfl, rfl, reserved⟩

/-- Settles O25: the clock's own advance keeps the flag under every law, and a register write clears it only as RTC_DH. -/
theorem overflowClearedOnlyByDayHighWrite : Obligations.OverflowClearedOnlyByDayHighWrite := by
  unfold Obligations.OverflowClearedOnlyByDayHighWrite
  exact fun i s t h before after => (exec_mbcStep h).ovf_cleared before after

end Sys2Proof.Machine
end

section
/-! SUPPORT. What each of SND's operations leaves (43_sound_engine.md R251 to R257, R260, R261): an access of each kind of
address, the tick, the mute toggle and the power-off; O27, O29, O30, O31, O34 and O37 are read off these rules. -/

namespace Sys2Proof.Machine

/-! ## An access of each kind of address (R103) -/

theorem sndRead_master (s : State) : sndRead s.params.sndMap.nr52 s =
    .next (s.answer (.byte (nr52Byte s ||| readMask s s.params.sndMap.nr52))) := by
  rw [sndRead, sndRole_master]
  rfl

theorem sndRead_of_mapOwns {s : State} (hm : sndMapFormed s.params.sndMap = true) {k : Fin 4} {a : Addr}
    (h : mapOwns s.params.sndMap k a) : sndRead a s = .next (s.answer (.byte ((s.channel k).read a ||| readMask s a))) := by
  rw [sndRead, sndRole_of_mapOwns hm h]
  rfl

theorem sndRead_volume {s : State} (hm : sndMapFormed s.params.sndMap = true) : sndRead s.params.sndMap.nr50 s =
    .next (s.answer (.byte (s.snd.nr50 ||| readMask s s.params.sndMap.nr50))) := by
  rw [sndRead, (sndRole_control hm).1]
  rfl

theorem sndRead_selection {s : State} (hm : sndMapFormed s.params.sndMap = true) : sndRead s.params.sndMap.nr51 s =
    .next (s.answer (.byte (s.snd.nr51 ||| readMask s s.params.sndMap.nr51))) := by
  rw [sndRead, (sndRole_control hm).2]
  rfl

theorem sndWrite_master (d : Byte) (s : State) :
    sndWrite s.params.sndMap.nr52 d s = .next ((writeMaster d s).answer .nothing) := by
  rw [sndWrite, sndRole_master]
  rfl

theorem sndWrite_volume {s : State} (hm : sndMapFormed s.params.sndMap = true) (d : Byte) :
    sndWrite s.params.sndMap.nr50 d s = .next ((s.setSnd { s.snd with nr50 := d }).answer .nothing) := by
  rw [sndWrite, (sndRole_control hm).1]
  rfl

theorem sndWrite_selection {s : State} (hm : sndMapFormed s.params.sndMap = true) (d : Byte) :
    sndWrite s.params.sndMap.nr51 d s = .next ((s.setSnd { s.snd with nr51 := d }).answer .nothing) := by
  rw [sndWrite, (sndRole_control hm).2]
  rfl

/-! ## Which operation makes which access (R101) -/

theorem sndAccess_sndRdChA (lo : BitVec 4) : sndAccess (.sndRdChA lo) = some (.read, chAAddr lo) := by
  obtain ⟨row, -⟩ := sndAccess_rows
  exact row lo

theorem sndAccess_sndRdChB (lo : BitVec 2) : sndAccess (.sndRdChB lo) = some (.read, chBAddr lo) := by
  obtain ⟨-, row, -⟩ := sndAccess_rows
  exact row lo

theorem sndAccess_sndRdWave (lo : BitVec 4) : sndAccess (.sndRdWave lo) = some (.read, waveAddr lo) := by
  obtain ⟨-, -, -, -, row, -⟩ := sndAccess_rows
  exact row lo

/-- SND_RD_NR52 is a read of NR52 where the map has NR52 at the row's address. -/
theorem sndAccess_sndRdNr52 {m : SndMap} (h : m.nr52 = 0xFF26) : sndAccess .sndRdNr52 = some (.read, m.nr52) := by
  obtain ⟨-, -, -, row, -⟩ := sndAccess_rows
  rw [row, h, nr52Addr]

/-- Every write of NR52 is an SND write of the address the map gives it. -/
theorem sndAccess_of_writesMaster {i : Instr} {d : Byte} {m : SndMap} (h : writesMaster i d m) :
    sndAccess i = some (.write d, m.nr52) := by
  obtain ⟨rfl, h⟩ | h := h
  · obtain ⟨-, -, -, -, -, -, -, -, row, -⟩ := sndAccess_rows
    rw [row, h, nr52Addr]
  · exact h

theorem exec_of_writesMaster {i : Instr} {d : Byte} {s : State} (h : writesMaster i d s.params.sndMap) :
    exec i s = .next ((writeMaster d s).answer .nothing) :=
  (exec_of_sndAccess (sndAccess_of_writesMaster h) s).trans (sndWrite_master d s)

theorem exec_read_of_mapOwns {i : Instr} {s : State} {a : Addr} {k : Fin 4} (hm : sndMapFormed s.params.sndMap = true)
    (hi : sndAccess i = some (.read, a)) (h : mapOwns s.params.sndMap k a) :
    exec i s = .next (s.answer (.byte ((s.channel k).read a ||| readMask s a))) :=
  (exec_of_sndAccess hi s).trans (sndRead_of_mapOwns hm h)

/-! ## The owners of the default map's rows (R42) -/

/-- The four channels' registers are five addresses each from 0xFF10 on. -/
theorem mapOwns_default_chAAddr (lo : BitVec 4) :
    mapOwns Config.defaultSndMap ⟨lo.toNat / 5, by omega⟩ (chAAddr lo) :=
  (ownerOf_eq_some_iff defaultSndMap_formed).1 (by revert lo; decide)

theorem mapOwns_default_chBAddr (lo : BitVec 2) : mapOwns Config.defaultSndMap 3 (chBAddr lo) :=
  (ownerOf_eq_some_iff defaultSndMap_formed).1 (by revert lo; decide)

theorem mapOwns_default_waveAddr (lo : BitVec 4) : mapOwns Config.defaultSndMap 2 (waveAddr lo) :=
  (ownerOf_eq_some_iff defaultSndMap_formed).1 (by revert lo; decide)

/-- A read of a channel's address under the default map, the address as a number. -/
theorem exec_read_default {i : Instr} {s : State} {a : Addr} {k : Fin 4} {n : Nat} (hs : s.params.sndMap = Config.defaultSndMap)
    (hi : sndAccess i = some (.read, a)) (h : mapOwns Config.defaultSndMap k a) (ha : a.toNat = n) :
    exec i s = .next { s with result := .byte (s.snd.ch[k].regs.get n ||| s.params.readMask.get n) } := by
  subst ha
  exact exec_read_of_mapOwns (hs ▸ defaultSndMap_formed) hi (hs ▸ h)

/-! ## NR52's bits (R253) -/

/-- Setting a bit for each index that reports leaves the bits set before and those. -/
theorem foldl_setBit_getLsbD (reports : Fin 4 → Bool) (l : List (Fin 4)) (v : Byte) (j : Fin 8) :
    (l.foldl (fun v k => if reports k then v ||| ((1 : Byte) <<< k.val) else v) v).getLsbD j.val =
      (v.getLsbD j.val || l.any fun k => reports k && (k.val == j.val)) := by
  have bit : ∀ (k : Fin 4) (j : Fin 8), ((1 : Byte) <<< k.val).getLsbD j.val = (k.val == j.val) := by decide
  induction l generalizing v with
  | nil => simp
  | cons k l ih =>
    rw [List.foldl_cons, ih, List.any_cons]
    cases reports k
    · simp
    · rw [if_pos rfl, BitVec.getLsbD_or, bit, Bool.true_and, Bool.or_assoc]

/-- Bit 7 is the master enable, bit k-1 what CH[k] reports, and the other bits are clear. -/
theorem nr52Byte_getLsbD (s : State) (j : Fin 8) : (nr52Byte s).getLsbD j.val =
    ((decide (j.val = 7) && s.snd.enabled) || if h : j.val < 4 then s.snd.ch[j.val].isEnabled else false) := by
  have enable : ((if s.snd.enabled then 0x80 else 0x00 : Byte)).getLsbD j.val = (decide (j.val = 7) && s.snd.enabled) := by
    cases s.snd.enabled <;> revert j <;> decide
  rw [nr52Byte, foldl_setBit_getLsbD fun k => (s.channel k).isEnabled, enable]
  congr 1
  match j with
  | 0 | 1 | 2 | 3 | 4 | 5 | 6 | 7 => simp [channelOrder, State.channel]

/-! ## The tick and its mix (R251, R252) -/

/-- SND after its four channels have ticked: the levels stored, the channels moved on. -/
def Snd.ticked (d : Snd) : Snd := { d with out := d.ch.map fun c => c.tick.1, ch := d.ch.map fun c => c.tick.2 }

theorem execSndTick_disabled {s : State} (h : s.snd.enabled = false) : execSndTick s = .next (s.answer .nothing) := by
  simp [execSndTick, h, finish]

theorem execSndTick_enabled {s : State} (h : s.snd.enabled = true) : execSndTick s = .next { s with
    snd := s.snd.ticked
    trace := s.trace ++ [.channelTick 0, .channelTick 1, .channelTick 2, .channelTick 3,
      .play (mixLeft s.params s.snd.ticked) (mixRight s.params s.snd.ticked)]
    result := .nothing } := by
  rw [execSndTick, if_pos h, tickAll_eq]
  simp [finish, State.withChannels, State.setSnd, State.record, State.answer, Snd.ticked]

/-- The left sum over the four channels, each by its mute slot and its bit of NR51[7:4] (R110). -/
theorem sumLeft_eq (d : Snd) : sumLeft d =
    (if d.mute[0] && d.nr51.getLsbD 4 then d.out[0] else 0) + (if d.mute[1] && d.nr51.getLsbD 5 then d.out[1] else 0) +
    (if d.mute[2] && d.nr51.getLsbD 6 then d.out[2] else 0) + (if d.mute[3] && d.nr51.getLsbD 7 then d.out[3] else 0) := by
  simp [sumLeft, channelOrder, contribution, routedLeft, add_assoc]

/-- The right sum, each channel by its mute slot and its bit of NR51[3:0] (R110). -/
theorem sumRight_eq (d : Snd) : sumRight d =
    (if d.mute[0] && d.nr51.getLsbD 0 then d.out[0] else 0) + (if d.mute[1] && d.nr51.getLsbD 1 then d.out[1] else 0) +
    (if d.mute[2] && d.nr51.getLsbD 2 then d.out[2] else 0) + (if d.mute[3] && d.nr51.getLsbD 3 then d.out[3] else 0) := by
  simp [sumRight, channelOrder, contribution, routedRight, add_assoc]

/-! ## The mute toggle (R260) -/

theorem execSndToggle_slot (k : Fin 4) (s : State) : execSndToggle k.val s =
    .next ((s.setSnd { s.snd with mute := s.snd.mute.set k.val (!s.snd.mute[k]) k.isLt }).answer .nothing) := by
  have h : (k.val : Int).toNat < 4 ∧ (0 : Int) ≤ k.val := ⟨by omega, by omega⟩
  rw [execSndToggle, dif_pos h]
  rfl

theorem execSndToggle_outside {i : Int} (h : i < 0 ∨ 3 < i) (s : State) :
    execSndToggle i s = .fault (.argument (.sndToggle i)) := by
  rw [execSndToggle, dif_neg (by omega), raise]

/-! ## The power-off (R257) -/

/-- A write of NR52 with bit 7 clear while enabled disables and powers off. -/
theorem writeMaster_off {d : Byte} {s : State} (hd : d.getLsbD 7 = false) (he : s.snd.enabled = true) :
    writeMaster d s = powerOff (s.setSnd { s.snd with enabled := false }) := by
  simp only [writeMaster, hd, he, Bool.not_false, Bool.and_self, if_true]

/-! ## The obligations -/

/-- Settles O27: the tick ends in the ticked SND, whose mix is the two sums times the volumes. -/
theorem soundTickMixes : Obligations.SoundTickMixes := by
  unfold Obligations.SoundTickMixes
  refine fun s => ⟨execSndTick_disabled, fun h => ⟨_, execSndTick_enabled h, fun k => ?_, rfl, ?_⟩⟩
  · simp [Snd.ticked]
  · exact ⟨_, _, (leftVolume s.snd.nr50).toFin, (rightVolume s.snd.nr50).toFin,
      sumLeft_eq s.snd.ticked, sumRight_eq s.snd.ticked, leftVolume_toNat _, rightVolume_toNat _, rfl⟩

/-- Settles O29: either form of the read is a read of NR52, whose byte is known bit by bit. -/
theorem masterRegisterReads : Obligations.MasterRegisterReads := by
  unfold Obligations.MasterRegisterReads
  intro s i h
  have hi : sndAccess i = some (.read, s.params.sndMap.nr52) := by
    obtain ⟨rfl, h⟩ | h := h
    · exact sndAccess_sndRdNr52 h
    · exact h
  refine ⟨_, (exec_of_sndAccess hi s).trans (sndRead_master s), fun j => ?_⟩
  rw [BitVec.getLsbD_or, nr52Byte_getLsbD, Bool.or_comm, ← Bool.or_assoc]
  rfl

/-- Settles O30: the owner answers the read, and the default map's rows lie in their owners' sub-ranges. -/
theorem channelRegisterReads : Obligations.ChannelRegisterReads := by
  unfold Obligations.ChannelRegisterReads
  refine fun s => ⟨fun i a k => exec_read_of_mapOwns, fun hs =>
    ⟨fun lo => ⟨⟨lo.toNat / 5, by omega⟩, rfl, ?_⟩, fun lo => ?_, fun lo => ?_⟩⟩
  · exact exec_read_default hs (sndAccess_sndRdChA lo) (mapOwns_default_chAAddr lo) (chAAddr_toNat lo)
  · exact exec_read_default hs (sndAccess_sndRdChB lo) (mapOwns_default_chBAddr lo) (chBAddr_toNat lo)
  · exact exec_read_default hs (sndAccess_sndRdWave lo) (mapOwns_default_waveAddr lo) (waveAddr_toNat lo)

/-- Settles O31: the default rows are the accesses of the addresses the default map gives NR50 and NR51. -/
theorem controlRegisterAccesses : Obligations.ControlRegisterAccesses := by
  unfold Obligations.ControlRegisterAccesses
  intro s d
  refine ⟨fun i hm => ⟨fun hi => ?_, fun hi => ?_, fun hi => ?_, fun hi => ?_⟩, fun hs => ?_⟩
  · exact (exec_of_sndAccess hi s).trans (sndRead_volume hm)
  · exact (exec_of_sndAccess hi s).trans (sndRead_selection hm)
  · exact (exec_of_sndAccess hi s).trans (sndWrite_volume hm d)
  · exact (exec_of_sndAccess hi s).trans (sndWrite_selection hm d)
  · have hm : sndMapFormed s.params.sndMap = true := hs ▸ defaultSndMap_formed
    have nr50 : s.params.sndMap.nr50 = 0xFF24 := by rw [hs]; rfl
    have nr51 : s.params.sndMap.nr51 = 0xFF25 := by rw [hs]; rfl
    have readVolume := sndRead_volume hm
    have readSelection := sndRead_selection hm
    have writeVolume := sndWrite_volume hm d
    have writeSelection := sndWrite_selection hm d
    rw [nr50] at readVolume writeVolume
    rw [nr51] at readSelection writeSelection
    exact ⟨readVolume, readSelection, writeVolume, writeSelection⟩

/-- Settles O34: the write is the power-off, which stops the channels in order and then the sink. -/
theorem powerOffStopsAndKeepsRegisters : Obligations.PowerOffStopsAndKeepsRegisters := by
  unfold Obligations.PowerOffStopsAndKeepsRegisters
  intro s d i hi hd he
  refine ⟨_, exec_of_writesMaster hi, ?_⟩
  rw [writeMaster_off hd he, powerOff_eq]
  refine ⟨fun k => ?_, rfl⟩
  simp [State.withChannels]

/-- Settles O37: the slot written is the one the index names, and no other index is a slot. -/
theorem toggleFlipsOneMuteSlot : Obligations.ToggleFlipsOneMuteSlot := by
  unfold Obligations.ToggleFlipsOneMuteSlot
  refine fun s i => ⟨?_, fun h => execSndToggle_outside h s⟩
  rintro k rfl
  refine ⟨_, execSndToggle_slot k s, fun j => (getElem_set_fin _ k j _).trans ?_, rfl⟩
  by_cases h : j = k
  · rw [h]
  · rw [if_neg h, if_neg h]

end Sys2Proof.Machine
end

section
/-! SUPPORT. What RB's operations leave (44_ring_buffer.md R300 to R302); O38 to O40 are read off these rules. -/

namespace Sys2Proof.Machine

/-! ## The rule of each operation -/

/-- A count above the data's length is an argument error (R300). -/
theorem execRbWrite_beyond {data : List Byte} {count : Nat} (h : data.length < count) (s : State) :
    execRbWrite data count s = .fault (.argument (.rbWrite count)) := by
  rw [execRbWrite, if_pos h, raise]

/-- A count within the data's length is stored as far as it fits (R300). -/
theorem execRbWrite_within {data : List Byte} {count : Nat} (h : count ≤ data.length) (s : State) :
    execRbWrite data count s = .next ((s.setRb (s.rb.put data count)).answer (.count (s.rb.accepts count))) := by
  rw [execRbWrite, if_neg (by omega), finish]

/-! ## The bytes stored -/

theorem Rb.accepts_le (r : Rb) (count : Nat) : r.accepts count ≤ count := Nat.min_le_left _ _

theorem Rb.accepts_le_capacity (r : Rb) (count : Nat) : r.accepts count ≤ r.capacity :=
  (Nat.min_le_right _ _).trans (Nat.sub_le _ _)

/-- The `k`-th byte accepted is the data's `k`-th, at `(wc + k) mod C` (R300): no more than C are accepted, so none is stored over
another. -/
theorem Rb.put_get {r : Rb} (hr : r.buf.wf = true) {data : List Byte} {count k : Nat} (hc : count ≤ data.length)
    (hk : k < r.accepts count) : some ((r.put data count).buf.get ((r.wc + k) % r.capacity)) = data[k]? := by
  have length_take : (data.take (r.accepts count)).length = r.accepts count :=
    List.length_take_of_le ((r.accepts_le count).trans hc)
  have stored := ringStore_get (w := r.wc) hr (length_take.trans_le (r.accepts_le_capacity count)) (length_take.symm ▸ hk)
  rw [← List.getElem?_take_of_lt hk, List.getElem?_eq_getElem (length_take.symm ▸ hk)]
  exact congrArg some stored

/-- A place no accepted byte goes to keeps its byte (R300). -/
theorem Rb.put_get_other {r : Rb} (hr : r.buf.wf = true) {data : List Byte} {count o : Nat}
    (ho : ∀ k, k < r.accepts count → o ≠ (r.wc + k) % r.capacity) : (r.put data count).buf.get o = r.buf.get o :=
  ringStore_get_other hr fun k hk => ho k (hk.trans_le (List.length_take_le _ _))

/-! ## The obligations -/

/-- Settles O38: the write stores as far as it fits, or faults beyond the data. -/
theorem ringWriteStoresWhatFits : Obligations.RingWriteStoresWhatFits := by
  unfold Obligations.RingWriteStoresWhatFits
  intro s data count hInv
  obtain ⟨-, -, -, -, -, hwf⟩ := hInv
  refine ⟨fun h => execRbWrite_beyond h s, fun h => ⟨_, s.rb.accepts count, rfl, execRbWrite_within h s, ?_⟩⟩
  exact ⟨s.rb.put_capacity data count, rfl, rfl, rfl, fun k => Rb.put_get hwf h, fun o => Rb.put_get_other hwf, rfl⟩

/-- Settles O39: the bytes returned are the ring's from the read cursor on, which moves past them. -/
theorem ringReadReturnsTheOldest : Obligations.RingReadReturnsTheOldest := by
  unfold Obligations.RingReadReturnsTheOldest
  intro s count
  exact ⟨s.rb.front count, s.rb.yields count, rfl, rfl, ringLoad_length _ _ _, fun k => ringLoad_getElem? s.rb.buf s.rb.rc⟩

/-- Settles O40: the operation's own rule. -/
theorem ringCountReturnsTheStoredCount : Obligations.RingCountReturnsTheStoredCount := by
  unfold Obligations.RingCountReturnsTheStoredCount
  exact fun s => rfl

end Sys2Proof.Machine
end

section
/-! SUPPORT. Which faults an operation raises and what each records (60_exceptions.md R330); O51 is read off these rules. -/

namespace Sys2Proof.Machine

/-! ## When each operation with a fault raises it -/

/-- SCAN_TICK_OVERRUN faults after the last slot alone; before, the row is not selected (R145). -/
theorem execScanTickOverrun_eq_fault_iff {s : State} {f : Fault} :
    execScanTickOverrun s = .fault f ↔ s.scan.i.val = 40 ∧ f = .scanOverrun 40 := by
  by_cases last : s.scan.i.val = 40
  · rw [execScanTickOverrun_eq last]
    simp [last, eq_comm]
  · have unselected : ¬ rowCondition .scanTickOverrun s = true := by
      simpa [rowCondition, Fin.ext_iff] using last
    rw [execScanTickOverrun, if_neg unselected]
    simp [last]

/-- An access of SND at an address its map accepts completes (R250). -/
theorem sndAccessAt_ne_fault {s : State} {a : Addr} (h : mapAccepts s.params.sndMap a) (acc : Access) (f : Fault) :
    sndAccessAt acc a s ≠ .fault f := by
  obtain ⟨role, hr⟩ := Option.isSome_iff_exists.1 ((sndRole_isSome_iff_mapAccepts _ a).2 h)
  cases acc with
  | read => rw [sndAccessAt, sndRead, hr]; cases role <;> exact finish_ne_fault _ _ _
  | write d => rw [sndAccessAt, sndWrite, hr]; cases role <;> exact finish_ne_fault _ _ _

/-- An access of SND faults exactly where its map does not accept the address (R262). -/
theorem sndAccessAt_eq_fault_iff {s : State} {acc : Access} {a : Addr} {f : Fault} :
    sndAccessAt acc a s = .fault f ↔ ¬ mapAccepts s.params.sndMap a ∧ f = .addressing .snd a (accessKind acc) := by
  by_cases h : mapAccepts s.params.sndMap a
  · simp [h, sndAccessAt_ne_fault h]
  · rw [sndAccessAt_of_not_mapAccepts h]
    simp [h, eq_comm]

/-- RB_WRITE faults exactly where the count is above the data's length (R300). -/
theorem execRbWrite_eq_fault_iff {data : List Byte} {count : Nat} {s : State} {f : Fault} :
    execRbWrite data count s = .fault f ↔ data.length < count ∧ f = .argument (.rbWrite count) := by
  obtain beyond | within := Nat.lt_or_ge data.length count
  · rw [execRbWrite_beyond beyond]
    simp [beyond, eq_comm]
  · rw [execRbWrite_within within]
    simp [within.not_gt]

/-- SND_TOGGLE faults exactly where the index names no channel (R260). -/
theorem execSndToggle_eq_fault_iff {k : Int} {s : State} {f : Fault} :
    execSndToggle k s = .fault f ↔ (k < 0 ∨ 3 < k) ∧ f = .argument (.sndToggle k) := by
  by_cases outside : k < 0 ∨ 3 < k
  · rw [execSndToggle_outside outside]
    simp [outside, eq_comm]
  · obtain ⟨slot, rfl⟩ : ∃ slot : Fin 4, (slot.val : Int) = k := ⟨⟨k.toNat, by omega⟩, Int.toNat_of_nonneg (by omega)⟩
    rw [execSndToggle_slot]
    simp only [outside, false_and, reduceCtorEq]

/-! ## A choice without a fault -/

/-- A choice between two outcomes that are no faults; a refusal is one (R101). -/
theorem ite_ne_fault {c : Prop} [Decidable c] {o p : Host.Outcome State Fault Refusal} {f : Fault} (ho : o ≠ .fault f)
    (hp : p ≠ .fault f) : (if c then o else p) ≠ .fault f := by
  split
  · exact ho
  · exact hp

/-! ## The obligation -/

/-- Settles O51: SND's bus operations fault by their access, every other operation by its own rule. -/
theorem faultsAreExactlyTheListed : Obligations.FaultsAreExactlyTheListed := by
  unfold Obligations.FaultsAreExactlyTheListed
  intro i s f
  constructor
  · intro h
    cases access : sndAccess i with
    | some p =>
      have fault := sndAccessAt_eq_fault_iff.1 ((exec_of_sndAccess access s).symm.trans h)
      exact .inr (.inr (.inr (.inl ⟨_, _, rfl, fault⟩)))
    | none =>
      cases i
      case scanTickOverrun => exact .inl ⟨rfl, execScanTickOverrun_eq_fault_iff.1 h⟩
      case mbcBad8000 acc lo => exact .inr (.inl ⟨acc, lo, rfl, (raise_eq_fault _ f).1 h⟩)
      case mbcBadC000 acc lo => exact .inr (.inr (.inl ⟨acc, lo, rfl, (raise_eq_fault _ f).1 h⟩))
      case rbWrite data count =>
        exact .inr (.inr (.inr (.inr (.inl ⟨data, count, rfl, execRbWrite_eq_fault_iff.1 h⟩))))
      case sndToggle k => exact .inr (.inr (.inr (.inr (.inr ⟨k, rfl, execSndToggle_eq_fault_iff.1 h⟩))))
      case scanTickY | scanTickX | mbcRdRam | mbcRdRtc => exact absurd h (ite_ne_fault (finish_ne_fault _ _ _) nofun)
      case mbcWrRam | mbcWrRtc =>
        exact absurd h (ite_ne_fault (ite_ne_fault (finish_ne_fault _ _ _) (finish_ne_fault _ _ _)) nofun)
      case sndTick => exact absurd h (ite_ne_fault (finish_ne_fault _ _ _) (finish_ne_fault _ _ _))
      case scanStart | scanGetSprites | mbcAccepts | mbcSave | rtcAdvance | sndAccepts | rbRead | rbCount | mbcRdRom0
        | mbcRdRomx | mbcWrRamen | mbcWrRomb | mbcWrRamb | mbcWrLatch => exact absurd h (finish_ne_fault _ _ _)
      case sndBad acc a => cases (sndAccess_sndBad acc a).symm.trans access
      all_goals cases access
  · rintro (⟨rfl, fault⟩ | ⟨acc, lo, rfl, rfl⟩ | ⟨acc, lo, rfl, rfl⟩ | ⟨acc, a, access, fault⟩ | ⟨data, count, rfl, fault⟩ |
      ⟨k, rfl, fault⟩)
    · exact execScanTickOverrun_eq_fault_iff.2 fault
    · rfl
    · rfl
    · exact (exec_of_sndAccess access s).trans (sndAccessAt_eq_fault_iff.2 fault)
    · exact execRbWrite_eq_fault_iff.2 fault
    · exact execSndToggle_eq_fault_iff.2 fault

end Sys2Proof.Machine
end

section
/-! SUPPORT. The bytes RB holds, in order, over one operation and over a sequence of them (44_ring_buffer.md R305); O41 is read off
these rules. -/

namespace Sys2Proof.Machine

/-! ## Loading after storing -/

/-- Bytes stored are loaded in order from where they were stored, where no more than C are. -/
theorem ringLoad_ringStore {buf : Memory} (h : buf.wf = true) (w : Nat) {l : List Byte} (hl : l.length ≤ buf.size) :
    ringLoad (ringStore buf w l) w l.length = l := by
  apply List.ext_getElem?
  intro k
  obtain hk | hk := Nat.lt_or_ge k l.length
  · rw [ringLoad_getElem? _ _ hk, ringStore_size, ringStore_get h hl hk, List.getElem?_eq_getElem hk]
  · rw [List.getElem?_eq_none (by simpa using hk), List.getElem?_eq_none hk]

/-- Bytes stored behind the `n` loaded ones leave those as they were, where all of them fit in the ring. -/
theorem ringLoad_ringStore_behind {buf : Memory} (h : buf.wf = true) {r w n : Nat} {l : List Byte}
    (hw : w = (r + n) % buf.size) (hl : n + l.length ≤ buf.size) :
    ringLoad (ringStore buf w l) r n = ringLoad buf r n := by
  apply List.ext_getElem?
  intro j
  obtain hj | hj := Nat.lt_or_ge j n
  · rw [ringLoad_getElem? _ _ hj, ringLoad_getElem? _ _ hj, ringStore_size, ringStore_get_other h fun k hk => ?_]
    rw [hw, Nat.mod_add_mod, Nat.add_assoc]
    exact add_mod_ne (by omega) (by omega)
  · rw [List.getElem?_eq_none (by simpa using hj), List.getElem?_eq_none (by simpa using hj)]

/-! ## What each operation does to the contents -/

theorem Rb.accepts_le_room (r : Rb) (count : Nat) : r.accepts count ≤ r.capacity - r.cnt := Nat.min_le_right _ _

theorem Rb.yields_le (r : Rb) (count : Nat) : r.yields count ≤ r.cnt := Nat.min_le_right _ _

/-- A write puts the bytes it accepts behind the contents (R300). -/
theorem Rb.put_contents {r : Rb} (hr : r.Inv) {data : List Byte} {count : Nat} (hc : count ≤ data.length) :
    (r.put data count).contents = r.contents ++ data.take (r.accepts count) := by
  obtain ⟨-, hcnt, -, -, hwc, hwf⟩ := hr
  have length_take : (data.take (r.accepts count)).length = r.accepts count :=
    List.length_take_of_le ((r.accepts_le count).trans hc)
  have fits : r.cnt + r.accepts count ≤ r.buf.size := Nat.add_le_of_le_sub' hcnt (r.accepts_le_room count)
  have old : ringLoad (r.put data count).buf r.rc r.cnt = r.contents :=
    ringLoad_ringStore_behind hwf hwc (length_take.symm ▸ fits)
  have new : ringLoad (r.put data count).buf (r.rc + r.cnt) (r.accepts count) = data.take (r.accepts count) := by
    have size : (r.put data count).buf.size = r.buf.size := ringStore_size _ _ _
    have stored := ringLoad_ringStore hwf r.wc (length_take.trans_le (r.accepts_le_capacity count))
    rw [← ringLoad_mod, size]
    rw [length_take] at stored
    exact hwc ▸ stored
  rw [← old, ← new]
  exact ringLoad_add _ _ _ _

/-- A read takes the bytes it returns from the front of the contents (R301). -/
theorem Rb.front_append_drop (r : Rb) (count : Nat) : r.front count ++ (r.drop count).contents = r.contents := by
  have split : r.yields count + (r.cnt - r.yields count) = r.cnt := Nat.add_sub_cancel' (r.yields_le count)
  have rest : (r.drop count).contents = ringLoad r.buf (r.rc + r.yields count) (r.cnt - r.yields count) :=
    ringLoad_mod r.buf _ _
  rw [rest, Rb.front, ← ringLoad_add, split, Rb.contents]

theorem Rb.put_inv {r : Rb} (hr : r.Inv) (data : List Byte) (count : Nat) : (r.put data count).Inv := by
  obtain ⟨hcap, hcnt, -, hrc, hwc, hwf⟩ := hr
  have size := r.put_capacity data count
  refine ⟨size ▸ hcap, ?_, size ▸ Nat.mod_lt _ hcap, size ▸ hrc, ?_, ringStore_wf hwf _ _⟩
  · rw [size]
    exact Nat.add_le_of_le_sub' hcnt (r.accepts_le_room count)
  · rw [size]
    change (r.wc + r.accepts count) % r.capacity = (r.rc + (r.cnt + r.accepts count)) % r.capacity
    rw [hwc, Nat.mod_add_mod, Nat.add_assoc]

theorem Rb.drop_inv {r : Rb} (hr : r.Inv) (count : Nat) : (r.drop count).Inv := by
  obtain ⟨hcap, hcnt, hwc, -, hpos, hwf⟩ := hr
  refine ⟨hcap, (Nat.sub_le _ _).trans hcnt, hwc, Nat.mod_lt _ hcap, ?_, hwf⟩
  change r.wc = ((r.rc + r.yields count) % r.capacity + (r.cnt - r.yields count)) % r.capacity
  rw [Nat.mod_add_mod, Nat.add_assoc, Nat.add_sub_cancel' (r.yields_le count), hpos]

/-! ## One operation -/

/-- What an operation that completes does to RB: an RB_WRITE stores, an RB_READ returns, and every other leaves RB as it is. -/
theorem exec_rb_cases {i : Instr} {s t : State} (h : exec i s = .next t) :
    (∃ data count, i = .rbWrite data count ∧ count ≤ data.length ∧ t.rb = s.rb.put data count) ∨
    (∃ count, i = .rbRead count ∧ t.rb = s.rb.drop count ∧ t.result = .bytes (s.rb.front count) (s.rb.yields count)) ∨
    (t.rb = s.rb ∧ storedBy i s = [] ∧ returnedBy i t = []) := by
  obtain own | other := eq_or_ne (unitOf i) .rb
  case inr =>
    obtain ⟨-, -, -, frame⟩ := exec_otherUnits h
    refine .inr (.inr ⟨frame other, ?_⟩)
    cases i
    case rbWrite | rbRead => exact absurd rfl other
    all_goals exact ⟨rfl, rfl⟩
  cases i
  case rbWrite data count =>
    obtain beyond | within := Nat.lt_or_ge data.length count
    · cases (execRbWrite_beyond beyond s).symm.trans h
    · cases (execRbWrite_within within s).symm.trans h
      exact .inl ⟨data, count, rfl, within, rfl⟩
  case rbRead count =>
    obtain rfl := (finish_eq_next _ _ _).1 h
    exact .inr (.inl ⟨count, rfl, rfl, rfl⟩)
  case rbCount =>
    obtain rfl := (finish_eq_next _ _ _).1 h
    exact .inr (.inr ⟨rfl, rfl, rfl⟩)
  all_goals cases own

/-- Every operation keeps RB's invariant (R45). -/
theorem exec_rb_inv {i : Instr} {s t : State} (h : exec i s = .next t) (hr : s.rb.Inv) : t.rb.Inv := by
  obtain ⟨data, count, -, -, e⟩ | ⟨count, -, e, -⟩ | ⟨e, -, -⟩ := exec_rb_cases h
  · exact e ▸ Rb.put_inv hr data count
  · exact e ▸ Rb.drop_inv hr count
  · exact e ▸ hr

/-- What was in RB and what an operation stored is, in order, what it returned and what is left. -/
theorem exec_conserves {i : Instr} {s t : State} (h : exec i s = .next t) (hr : s.rb.Inv) :
    s.rb.contents ++ storedBy i s = returnedBy i t ++ t.rb.contents := by
  obtain ⟨data, count, rfl, within, e⟩ | ⟨count, rfl, e, result⟩ | ⟨e, stored, returned⟩ := exec_rb_cases h
  · rw [e, Rb.put_contents hr within]
    rfl
  · have returned : returnedBy (.rbRead count) t = s.rb.front count := by simp only [returnedBy, result]
    rw [returned, e, Rb.front_append_drop]
    exact List.append_nil _
  · rw [stored, returned, e, List.append_nil, List.nil_append]

/-! ## A sequence of operations -/

/-- A sequence completes where its first operation does and the rest do from the state it leaves. -/
theorem ringRun_cons {i : Instr} {is : List Instr} {s u : State} {stored returned : List Byte}
    (h : ringRun (i :: is) s = some (u, stored, returned)) :
    ∃ t stored' returned', exec i s = .next t ∧ ringRun is t = some (u, stored', returned') ∧
      stored = storedBy i s ++ stored' ∧ returned = returnedBy i t ++ returned' := by
  rw [ringRun] at h
  split at h
  next t first =>
    split at h
    next u' stored' returned' rest =>
      cases h
      exact ⟨t, stored', returned', first, rest, rfl, rfl⟩
    next => cases h
  next => cases h

/-- Over a sequence, what was in RB and what was stored is, in order, what was returned and what is left. -/
theorem ringRun_conserves {is : List Instr} {s u : State} {stored returned : List Byte} (hr : s.rb.Inv)
    (h : ringRun is s = some (u, stored, returned)) : s.rb.contents ++ stored = returned ++ u.rb.contents := by
  induction is generalizing s stored returned with
  | nil =>
    cases h
    exact List.append_nil _
  | cons i is ih =>
    obtain ⟨t, stored', returned', first, rest, rfl, rfl⟩ := ringRun_cons h
    calc s.rb.contents ++ (storedBy i s ++ stored')
        = returnedBy i t ++ (t.rb.contents ++ stored') := by
          rw [← List.append_assoc, exec_conserves first hr, List.append_assoc]
      _ = returnedBy i t ++ returned' ++ u.rb.contents := by
          rw [ih (exec_rb_inv first hr) rest, List.append_assoc]

/-! ## The obligation -/

/-- Settles O41: each operation conserves the bytes, so a sequence does; an empty ring has no contents. -/
theorem ringConservesBytes : Obligations.RingConservesBytes := by
  unfold Obligations.RingConservesBytes
  intro is s u stored returned hr h
  have conserved := ringRun_conserves hr h
  refine ⟨conserved, fun empty => ⟨u.rb.contents, ?_⟩⟩
  have none : s.rb.contents = [] := by rw [Rb.contents, empty, ringLoad]
  rw [← conserved, none, List.nil_append]

end Sys2Proof.Machine
end

section
/-! SUPPORT. A row of the opcode table as the fixed bits ahead of its free ones, the decoder and the encoder as each other's inverse
(30_encoding.md R101 to R103, R116); O45 to O50 are read off these rules. -/

namespace Sys2Proof

open Machine

/-! ## The fixed bits of a word -/

theorem append_toNat_div {n m : Nat} (p : BitVec n) (lo : BitVec m) : (p ++ lo).toNat / 2 ^ m = p.toNat := by
  rw [toNat_append_eq_add, Nat.add_comm, Nat.add_mul_div_right _ _ (by positivity), Nat.div_eq_of_lt lo.isLt, Nat.zero_add]

/-- A word has the bits `p` ahead of its low ones exactly where they are its high part. -/
theorem append_setWidth_eq_iff {n m : Nat} {p : BitVec n} {x : BitVec (n + m)} :
    p ++ x.setWidth m = x ↔ x.toNat / 2 ^ m = p.toNat := by
  constructor
  · intro h
    rw [← h]
    exact append_toNat_div _ _
  · intro h
    apply BitVec.eq_of_toNat_eq
    rw [toNat_append_eq_add, BitVec.toNat_setWidth, ← h, Nat.div_add_mod']

/-- Under a mask that leaves the `m` low bits free, a word is the pattern where its high part is. -/
theorem and_high_eq_iff {w : Nat} {x mask pat : BitVec w} {p : Nat} (m : Nat) (hm : mask = BitVec.allOnes w <<< m)
    (hp : pat.toNat = p * 2 ^ m) : x &&& mask = pat ↔ x.toNat / 2 ^ m = p := by
  have masked : (x &&& mask).toNat = x.toNat / 2 ^ m * 2 ^ m := by
    have small : x.toNat / 2 ^ m * 2 ^ m < 2 ^ w := (Nat.div_mul_le_self _ _).trans_lt x.isLt
    rw [hm, ← BitVec.shiftLeft_ushiftRight, BitVec.toNat_shiftLeft, BitVec.toNat_ushiftRight, Nat.shiftRight_eq_div_pow,
      Nat.shiftLeft_eq, Nat.mod_eq_of_lt small]
  rw [← BitVec.toNat_inj, masked, hp]
  exact Nat.mul_left_inj (by positivity)

/-! ## Rows and selectors (R101) -/

theorem Row.holds_iff {r : Row} {s : Selector} : r.holds s = true ↔ s &&& r.mask = r.pat := beq_iff_eq

/-- A row whose free bits are the `m` low ones holds of the selectors whose other bits are the number `p`. -/
theorem Row.holds_iff_div {r : Row} {p : Nat} (m : Nat) (hm : r.mask = BitVec.allOnes 17 <<< m)
    (hp : r.pat.toNat = p * 2 ^ m) {s : Selector} : r.holds s = true ↔ s.toNat / 2 ^ m = p :=
  Row.holds_iff.trans (and_high_eq_iff m hm hp)

/-- A row without free bits holds of its pattern alone. -/
theorem Row.eq_of_holds {r : Row} {s : Selector} (h : r.holds s = true) (hm : r.mask = BitVec.allOnes 17) : s = r.pat := by
  rw [← Row.holds_iff.1 h, hm, BitVec.and_allOnes]

/-- Two rows whose patterns differ in a bit both of them fix hold of no selector together. -/
theorem Row.not_holds_of_holds {r q : Row} {s : Selector} (h : r.holds s = true) (ne : r.pat &&& q.mask ≠ q.pat &&& r.mask) :
    q.holds s = false := by
  rw [← Bool.not_eq_true, Row.holds_iff]
  rw [Row.holds_iff] at h
  intro h'
  apply ne
  rw [← h, ← h', BitVec.and_assoc, BitVec.and_comm r.mask, BitVec.and_assoc]

/-- A row that fixes the kind bit gives it (R101). -/
theorem Row.selIsWrite_of_holds {r : Row} {s : Selector} (h : r.holds s = true) (hk : r.mask.getLsbD 16 = true) :
    selIsWrite s = r.pat.getLsbD 16 := by
  rw [← Row.holds_iff.1 h, BitVec.getLsbD_and, hk, Bool.and_true, selIsWrite]

/-- A row that leaves the kind bit free looks at the address alone. -/
theorem Row.holds_append_iff {r : Row} {mask pat : Addr} (hm : r.mask = 0#1 ++ mask) (hp : r.pat = 0#1 ++ pat) {k : BitVec 1}
    {a : Addr} : r.holds (k ++ a) = true ↔ a &&& mask = pat := by
  have split : (k ++ a) &&& (0#1 ++ mask) = (k &&& 0#1) ++ (a &&& mask) := BitVec.and_append
  rw [Row.holds_iff, hm, hp, split, BitVec.and_zero]
  exact BitVec.append_right_inj _

@[simp] theorem selAddr_append (k : BitVec 1) (a : Addr) : selAddr (k ++ a) = a := BitVec.setWidth_append_eq_right

theorem selAddr_setWidth (s : Selector) {m : Nat} (h : m ≤ 16) : (selAddr s).setWidth m = s.setWidth m :=
  BitVec.setWidth_setWidth_of_le s h

/-- A selector is its kind bit ahead of its address (R101). -/
theorem kind_append_selAddr (s : Selector) (d : Byte) : (selAccess s d).bit ++ selAddr s = s := by
  refine append_setWidth_eq_iff (n := 1) (m := 16).2 ?_
  have bound := s.isLt
  have kind : selIsWrite s = decide (s.toNat / 2 ^ 16 % 2 = 1) := Nat.testBit_eq_decide_div_mod_eq
  rw [selAccess]
  cases h : selIsWrite s with
  | false =>
    rw [h, eq_comm, decide_eq_false_iff_not] at kind
    change s.toNat / 2 ^ 16 = 0
    omega
  | true =>
    rw [h, eq_comm, decide_eq_true_eq] at kind
    change s.toNat / 2 ^ 16 = 1
    omega

/-- The row of MBC_BAD_8000 by the address, whatever the kind (R185). -/
theorem rowMbcBad8000_holds_iff {s : Selector} : rowMbcBad8000.holds s = true ↔ (selAddr s).toNat / 2 ^ 13 = 4 := by
  have holds : rowMbcBad8000.holds s = true ↔ selAddr s &&& 0xE000 = 0x8000 := by
    conv_lhs => rw [← kind_append_selAddr s 0]
    exact Row.holds_append_iff rfl rfl
  exact holds.trans (and_high_eq_iff 13 rfl rfl)

/-- The row of MBC_BAD_C000 by the address, whatever the kind (R185). -/
theorem rowMbcBadC000_holds_iff {s : Selector} : rowMbcBadC000.holds s = true ↔ (selAddr s).toNat / 2 ^ 14 = 3 := by
  have holds : rowMbcBadC000.holds s = true ↔ selAddr s &&& 0xC000 = 0xC000 := by
    conv_lhs => rw [← kind_append_selAddr s 0]
    exact Row.holds_append_iff rfl rfl
  exact holds.trans (and_high_eq_iff 14 rfl rfl)

/-! ## Every selector has a row (R103) -/

/-- Some row of MBC's holds of every selector. -/
theorem exists_mbcRow (s : Selector) : ∃ r ∈ mbcRows, r.holds s = true := by
  have bound := s.isLt
  have addr : (selAddr s).toNat = s.toNat % 2 ^ 16 := BitVec.toNat_setWidth _ _
  simp only [mbcRows, List.exists_mem_cons_iff, List.not_mem_nil, false_and, exists_false, or_false,
    rowMbcBad8000_holds_iff, rowMbcBadC000_holds_iff, addr,
    Row.holds_iff_div (r := rowMbcRdRom0) (p := 0) 14 rfl rfl, Row.holds_iff_div (r := rowMbcRdRomx) (p := 1) 14 rfl rfl,
    Row.holds_iff_div (r := rowMbcRdWindow) (p := 5) 13 rfl rfl, Row.holds_iff_div (r := rowMbcWrRamen) (p := 8) 13 rfl rfl,
    Row.holds_iff_div (r := rowMbcWrRomb) (p := 9) 13 rfl rfl, Row.holds_iff_div (r := rowMbcWrRamb) (p := 10) 13 rfl rfl,
    Row.holds_iff_div (r := rowMbcWrLatch) (p := 11) 13 rfl rfl, Row.holds_iff_div (r := rowMbcWrWindow) (p := 13) 13 rfl rfl]
  omega

/-- Some row of SND's holds of exactly the selectors whose address the default map accepts (R42). -/
theorem exists_sndRow_iff (s : Selector) : (∃ r ∈ sndRows, r.holds s = true) ↔ sndRowTakes (selAddr s) = true := by
  have bound := s.isLt
  have addr : (selAddr s).toNat = s.toNat % 2 ^ 16 := BitVec.toNat_setWidth _ _
  simp only [sndRows, List.exists_mem_cons_iff, List.not_mem_nil, false_and, exists_false, or_false, sndRowTakes,
    Bool.or_eq_true, Bool.and_eq_true, decide_eq_true_eq, addr,
    Row.holds_iff_div (r := rowSndRdChA) (p := 0x0FF1) 4 rfl rfl, Row.holds_iff_div (r := rowSndRdChB) (p := 0x3FC8) 2 rfl rfl,
    Row.holds_iff_div (r := rowSndRdCtl) (p := 0x7F92) 1 rfl rfl, Row.holds_iff_div (r := rowSndRdNr52) (p := 0x0FF26) 0 rfl rfl,
    Row.holds_iff_div (r := rowSndRdWave) (p := 0x0FF3) 4 rfl rfl, Row.holds_iff_div (r := rowSndWrChA) (p := 0x1FF1) 4 rfl rfl,
    Row.holds_iff_div (r := rowSndWrChB) (p := 0x7FC8) 2 rfl rfl, Row.holds_iff_div (r := rowSndWrCtl) (p := 0xFF92) 1 rfl rfl,
    Row.holds_iff_div (r := rowSndWrNr52) (p := 0x1FF26) 0 rfl rfl, Row.holds_iff_div (r := rowSndWrWave) (p := 0x1FF3) 4 rfl rfl]
  omega

/-- Of rows that pairwise differ in a bit both fix, exactly one holds where one does. -/
theorem filter_holds_length {rows : List Row} (h : rows.Pairwise fun r q => r.pat &&& q.mask ≠ q.pat &&& r.mask) (s : Selector) :
    (rows.filter fun r => r.holds s).length = if ∃ r ∈ rows, r.holds s = true then 1 else 0 := by
  induction rows with
  | nil => simp
  | cons r rows ih =>
    obtain ⟨first, rest⟩ := List.pairwise_cons.1 h
    cases hr : r.holds s with
    | false => simp [hr, ih rest]
    | true =>
      have others : rows.filter (fun q => q.holds s) = [] :=
        List.filter_eq_nil_iff.2 fun q hq => by simp [Row.not_holds_of_holds hr (first q hq)]
      simp [hr, others]

/-! ## From a transaction to its operation and back (R101, R102) -/

/-- A row's access at a selector: the selector's bits, and a data byte on a write alone. -/
theorem wire_of_holds {u : BusUnit} {r : Row} {x s : Selector} {d : Byte} (sel : x = s) (h : r.holds s = true)
    (hk : r.mask.getLsbD 16 = true) :
    Wire.bus u x (if r.pat.getLsbD 16 then some d else none) = .bus u s (selAccess s d).data := by
  rw [sel, ← Row.selIsWrite_of_holds h hk, selAccess]
  cases selIsWrite s <;> rfl

/-- An access of either kind at a selector, by its address. -/
theorem wire_of_selAddr {u : BusUnit} {a : Addr} {s : Selector} {d : Byte} (ha : a = selAddr s) :
    Wire.bus u ((selAccess s d).bit ++ a) (selAccess s d).data = .bus u s (selAccess s d).data := by
  rw [ha, kind_append_selAddr]

/-- The row MBC decodes a selector to is encoded as that selector. -/
theorem encode_decodeMbc (s : Selector) (d : Byte) : encode (decodeMbc s d) = .bus .mbc s (selAccess s d).data := by
  unfold decodeMbc
  split_ifs with rom0 romx window ramen romb ramb latch wrWindow bad
  · exact wire_of_holds (append_setWidth_eq_iff.2 ((Row.holds_iff_div 14 rfl rfl).1 rom0)) rom0 rfl
  · exact wire_of_holds (append_setWidth_eq_iff.2 ((Row.holds_iff_div 14 rfl rfl).1 romx)) romx rfl
  · exact wire_of_holds (append_setWidth_eq_iff.2 ((Row.holds_iff_div 13 rfl rfl).1 window)) window rfl
  · exact wire_of_holds (append_setWidth_eq_iff.2 ((Row.holds_iff_div 13 rfl rfl).1 ramen)) ramen rfl
  · exact wire_of_holds (append_setWidth_eq_iff.2 ((Row.holds_iff_div 13 rfl rfl).1 romb)) romb rfl
  · exact wire_of_holds (append_setWidth_eq_iff.2 ((Row.holds_iff_div 13 rfl rfl).1 ramb)) ramb rfl
  · exact wire_of_holds (append_setWidth_eq_iff.2 ((Row.holds_iff_div 13 rfl rfl).1 latch)) latch rfl
  · exact wire_of_holds (append_setWidth_eq_iff.2 ((Row.holds_iff_div 13 rfl rfl).1 wrWindow)) wrWindow rfl
  · refine wire_of_selAddr ?_
    rw [← selAddr_setWidth s (by decide)]
    exact append_setWidth_eq_iff.2 (rowMbcBad8000_holds_iff.1 bad)
  · have badC000 : rowMbcBadC000.holds s = true := by
      simpa [mbcRows, rom0, romx, window, ramen, romb, ramb, latch, wrWindow, bad] using exists_mbcRow s
    refine wire_of_selAddr ?_
    rw [← selAddr_setWidth s (by decide)]
    exact append_setWidth_eq_iff.2 (rowMbcBadC000_holds_iff.1 badC000)

/-- The row SND decodes a selector to is encoded as that selector. -/
theorem encode_decodeSnd (s : Selector) (d : Byte) : encode (decodeSnd s d) = .bus .snd s (selAccess s d).data := by
  unfold decodeSnd
  split_ifs with rdChA rdChB rdCtl rdNr52 rdWave wrChA wrChB wrCtl wrNr52 wrWave
  · exact wire_of_holds (append_setWidth_eq_iff.2 ((Row.holds_iff_div 4 rfl rfl).1 rdChA)) rdChA rfl
  · exact wire_of_holds (append_setWidth_eq_iff.2 ((Row.holds_iff_div 2 rfl rfl).1 rdChB)) rdChB rfl
  · exact wire_of_holds (append_setWidth_eq_iff.2 ((Row.holds_iff_div 1 rfl rfl).1 rdCtl)) rdCtl rfl
  · exact wire_of_holds (Row.eq_of_holds rdNr52 rfl).symm rdNr52 rfl
  · exact wire_of_holds (append_setWidth_eq_iff.2 ((Row.holds_iff_div 4 rfl rfl).1 rdWave)) rdWave rfl
  · exact wire_of_holds (append_setWidth_eq_iff.2 ((Row.holds_iff_div 4 rfl rfl).1 wrChA)) wrChA rfl
  · exact wire_of_holds (append_setWidth_eq_iff.2 ((Row.holds_iff_div 2 rfl rfl).1 wrChB)) wrChB rfl
  · exact wire_of_holds (append_setWidth_eq_iff.2 ((Row.holds_iff_div 1 rfl rfl).1 wrCtl)) wrCtl rfl
  · exact wire_of_holds (Row.eq_of_holds wrNr52 rfl).symm wrNr52 rfl
  · exact wire_of_holds (append_setWidth_eq_iff.2 ((Row.holds_iff_div 4 rfl rfl).1 wrWave)) wrWave rfl
  · exact wire_of_selAddr rfl

/-- MBC has no term that is out of its row. -/
theorem decodeMbc_wellFormed (s : Selector) (d : Byte) : (decodeMbc s d).wellFormed = true := by
  unfold decodeMbc
  split_ifs <;> rfl

/-- SND_BAD is decoded at addresses no other row matches (R262). -/
theorem decodeSnd_wellFormed (s : Selector) (d : Byte) : (decodeSnd s d).wellFormed = true := by
  unfold decodeSnd
  split_ifs with rdChA rdChB rdCtl rdNr52 rdWave wrChA wrChB wrCtl wrNr52 wrWave
  case neg =>
    have none : ¬ ∃ r ∈ sndRows, r.holds s = true := by
      simp [sndRows, rdChA, rdChB, rdCtl, rdNr52, rdWave, wrChA, wrChB, wrCtl, wrNr52, wrWave]
    rw [exists_sndRow_iff, Bool.not_eq_true] at none
    rw [Instr.wellFormed, none, Bool.not_false]
  all_goals rfl

theorem encode_decodeBus (u : BusUnit) (s : Selector) (d : Byte) : encode (decodeBus u s d) = .bus u s (selAccess s d).data := by
  cases u with
  | mbc => exact encode_decodeMbc s d
  | snd => exact encode_decodeSnd s d

theorem decodeBus_wellFormed (u : BusUnit) (s : Selector) (d : Byte) : (decodeBus u s d).wellFormed = true := by
  cases u with
  | mbc => exact decodeMbc_wellFormed s d
  | snd => exact decodeSnd_wellFormed s d

/-- One rung of the decoder's ladder of codes. -/
theorem ite_eq_ok {c : Prop} [Decidable c] {x y : Except Reject Instr} {i : Instr} (h : (if c then x else y) = .ok i) :
    (c ∧ x = .ok i) ∨ y = .ok i := by
  split at h
  next code => exact .inl ⟨code, h⟩
  next => exact .inr h

/-- A code that takes no operands. -/
theorem encode_of_nothing {u : Code} {ops : CtrlOperands} {e : Reject} {i j : Instr}
    (h : (if ops = .nothing then .ok j else .error e : Except Reject Instr) = .ok i) (hj : encode j = .ctrl u .nothing)
    (wf : j.wellFormed = true) : encode i = .ctrl u ops ∧ i.wellFormed = true := by
  obtain ⟨rfl, h⟩ | h := ite_eq_ok h
  · obtain rfl := Except.ok.inj h
    exact ⟨hj, wf⟩
  · cases h

/-- A CTRL code with its operands is the encoding of its operation (R102). -/
theorem encode_of_decodeCtrl {u : Code} {ops : CtrlOperands} {i : Instr} (h : decodeCtrl u ops = .ok i) :
    encode i = .ctrl u ops ∧ i.wellFormed = true := by
  unfold decodeCtrl at h
  obtain ⟨rfl, h⟩ | h := ite_eq_ok h
  · exact encode_of_nothing h rfl rfl
  obtain ⟨rfl, h⟩ | h := ite_eq_ok h
  · exact encode_of_nothing h rfl rfl
  obtain ⟨rfl, h⟩ | h := ite_eq_ok h
  · exact encode_of_nothing h rfl rfl
  obtain ⟨rfl, h⟩ | h := ite_eq_ok h
  · cases ops <;> cases h
    exact ⟨rfl, rfl⟩
  obtain ⟨rfl, h⟩ | h := ite_eq_ok h
  · exact encode_of_nothing h rfl rfl
  obtain ⟨rfl, h⟩ | h := ite_eq_ok h
  · exact encode_of_nothing h rfl rfl
  obtain ⟨rfl, h⟩ | h := ite_eq_ok h
  · cases ops <;> cases h
    exact ⟨rfl, rfl⟩
  obtain ⟨rfl, h⟩ | h := ite_eq_ok h
  · exact encode_of_nothing h rfl rfl
  obtain ⟨rfl, h⟩ | h := ite_eq_ok h
  · cases ops <;> cases h
    exact ⟨rfl, rfl⟩
  obtain ⟨rfl, h⟩ | h := ite_eq_ok h
  · cases ops <;> cases h
    exact ⟨rfl, rfl⟩
  obtain ⟨rfl, h⟩ | h := ite_eq_ok h
  · cases ops <;> cases h
    exact ⟨rfl, rfl⟩
  obtain ⟨rfl, h⟩ | h := ite_eq_ok h
  · exact encode_of_nothing h rfl rfl
  · cases h

/-- A bus transaction that decodes carries a data byte exactly on a write (R101). -/
theorem decode_bus_cases {u : BusUnit} {s : Selector} {data : Option Byte} {i : Instr} (h : decode (.bus u s data) = .ok i) :
    ∃ d, data = (selAccess s d).data ∧ i = decodeBus u s d := by
  cases data with
  | none =>
    rw [decode] at h
    split at h
    next => cases h
    next read => exact ⟨0, by rw [selAccess, if_neg read]; rfl, (Except.ok.inj h).symm⟩
  | some d =>
    rw [decode] at h
    split at h
    next write => exact ⟨d, by rw [selAccess, if_pos write]; rfl, (Except.ok.inj h).symm⟩
    next => cases h

/-- What decodes is the encoding of what it decodes to. -/
theorem encode_of_decode {w : Wire} {i : Instr} (h : decode w = .ok i) : encode i = w ∧ i.wellFormed = true := by
  cases w with
  | ctrl u ops => exact encode_of_decodeCtrl h
  | bus u s data =>
    obtain ⟨d, rfl, rfl⟩ := decode_bus_cases h
    exact ⟨encode_decodeBus u s d, decodeBus_wellFormed u s d⟩

/-! ## The decoder as a ladder of rows (R103) -/

/-- A row and the operation read off the selectors it holds of. -/
abbrev Rung := Row × (Selector → Byte → Instr)

/-- The rows a unit's decoder asks in turn. -/
def BusUnit.rungs : BusUnit → List Rung
  | .mbc => [(rowMbcRdRom0, fun s _ => .mbcRdRom0 (s.setWidth 14)), (rowMbcRdRomx, fun s _ => .mbcRdRomx (s.setWidth 14)),
      (rowMbcRdWindow, fun s _ => .mbcRdRam (s.setWidth 13)), (rowMbcWrRamen, fun s d => .mbcWrRamen (s.setWidth 13) d),
      (rowMbcWrRomb, fun s d => .mbcWrRomb (s.setWidth 13) d), (rowMbcWrRamb, fun s d => .mbcWrRamb (s.setWidth 13) d),
      (rowMbcWrLatch, fun s d => .mbcWrLatch (s.setWidth 13) d), (rowMbcWrWindow, fun s d => .mbcWrRam (s.setWidth 13) d),
      (rowMbcBad8000, fun s d => .mbcBad8000 (selAccess s d) (s.setWidth 13))]
  | .snd => [(rowSndRdChA, fun s _ => .sndRdChA (s.setWidth 4)), (rowSndRdChB, fun s _ => .sndRdChB (s.setWidth 2)),
      (rowSndRdCtl, fun s _ => .sndRdCtl (s.setWidth 1)), (rowSndRdNr52, fun _ _ => .sndRdNr52),
      (rowSndRdWave, fun s _ => .sndRdWave (s.setWidth 4)), (rowSndWrChA, fun s d => .sndWrChA (s.setWidth 4) d),
      (rowSndWrChB, fun s d => .sndWrChB (s.setWidth 2) d), (rowSndWrCtl, fun s d => .sndWrCtl (s.setWidth 1) d),
      (rowSndWrNr52, fun _ d => .sndWrNr52 d), (rowSndWrWave, fun s d => .sndWrWave (s.setWidth 4) d)]

/-- What a unit's decoder makes of a selector none of its rungs holds of. -/
def BusUnit.otherwise (u : BusUnit) (s : Selector) (d : Byte) : Instr :=
  match u with
  | .mbc => .mbcBadC000 (selAccess s d) (s.setWidth 14)
  | .snd => .sndBad (selAccess s d) (selAddr s)

/-- The first rung that holds. -/
def descend : List Rung → (Selector → Byte → Instr) → Selector → Byte → Instr
  | [], rest, s, d => rest s d
  | (r, read) :: l, rest, s, d => if r.holds s then read s d else descend l rest s d

theorem decodeBus_eq_descend (u : BusUnit) (s : Selector) (d : Byte) : decodeBus u s d = descend u.rungs u.otherwise s d := by
  cases u with
  | mbc => rfl
  | snd => rfl

/-- Of rungs whose rows differ in a bit both fix, the one that holds is taken wherever it stands. -/
theorem descend_of_holds {l : List Rung} (apart : l.Pairwise fun p q => p.1.pat &&& q.1.mask ≠ q.1.pat &&& p.1.mask)
    {rest : Selector → Byte → Instr} {p : Rung} (mem : p ∈ l) {s : Selector} (h : p.1.holds s = true) (d : Byte) :
    descend l rest s d = p.2 s d := by
  induction l with
  | nil => cases mem
  | cons q l ih =>
    obtain ⟨first, apart⟩ := List.pairwise_cons.1 apart
    rw [descend]
    obtain rfl | mem := List.mem_cons.1 mem
    · rw [if_pos h]
    · have passed : q.1.holds s = false := Row.not_holds_of_holds h (first p mem).symm
      rw [passed, if_neg Bool.false_ne_true, ih apart mem]

theorem descend_of_none {l : List Rung} {rest : Selector → Byte → Instr} {s : Selector} (none : ∀ p ∈ l, p.1.holds s = false)
    (d : Byte) : descend l rest s d = rest s d := by
  induction l with
  | nil => rfl
  | cons q l ih =>
    obtain ⟨passed, none⟩ := List.forall_mem_cons.1 none
    rw [descend, passed, if_neg Bool.false_ne_true, ih none]

/-- A selector is decoded by the row of its unit that holds of it. -/
theorem decodeBus_of_holds {u : BusUnit} {k : Nat} {r : Row} {read : Selector → Byte → Instr} (rung : u.rungs[k]? = some (r, read))
    {s : Selector} (h : r.holds s = true) (d : Byte) : decodeBus u s d = read s d := by
  have apart : ∀ u : BusUnit, u.rungs.Pairwise fun p q => p.1.pat &&& q.1.mask ≠ q.1.pat &&& p.1.mask := by
    rintro (_ | _) <;> decide
  rw [decodeBus_eq_descend]
  exact descend_of_holds (apart u) (List.mem_of_getElem? rung) h d

theorem decodeBus_of_none {u : BusUnit} {s : Selector} (none : ∀ p ∈ u.rungs, p.1.holds s = false) (d : Byte) :
    decodeBus u s d = u.otherwise s d := by
  rw [decodeBus_eq_descend]
  exact descend_of_none none d

/-! ## From an operation to its transaction and back (R101, R103) -/

/-- A row that fixes the kind bit clear decodes the reads of its selectors. -/
theorem decode_read {u : BusUnit} {s : Selector} {r : Row} {read : Selector → Byte → Instr} (k : Nat)
    (rung : u.rungs[k]? = some (r, read)) (h : r.holds s = true) (hk : r.mask.getLsbD 16 = true) (hp : r.pat.getLsbD 16 = false) :
    decode (.bus u s none) = .ok (read s 0) := by
  have kind : selIsWrite s = false := (Row.selIsWrite_of_holds h hk).trans hp
  rw [decode, kind, if_neg Bool.false_ne_true, decodeBus_of_holds rung h]

/-- A row that fixes the kind bit set decodes the writes of its selectors. -/
theorem decode_write {u : BusUnit} {s : Selector} {d : Byte} {r : Row} {read : Selector → Byte → Instr} (k : Nat)
    (rung : u.rungs[k]? = some (r, read)) (h : r.holds s = true) (hk : r.mask.getLsbD 16 = true) (hp : r.pat.getLsbD 16 = true) :
    decode (.bus u s (some d)) = .ok (read s d) := by
  have kind : selIsWrite s = true := (Row.selIsWrite_of_holds h hk).trans hp
  rw [decode, kind, if_pos rfl, decodeBus_of_holds rung h]

theorem selIsWrite_append (acc : Access) (a : Addr) : selIsWrite (acc.bit ++ a) = acc.data.isSome :=
  (Laws.Shape.kind_append acc.bit a (by decide)).trans (Laws.Shape.access_shape acc).symm

theorem selAccess_append (acc : Access) (a : Addr) : selAccess (acc.bit ++ a) (acc.data.getD 0) = acc := by
  rw [selAccess, selIsWrite_append]
  cases acc <;> rfl

/-- An access of either kind is decoded by its selector. -/
theorem decode_access (u : BusUnit) (acc : Access) (a : Addr) :
    decode (.bus u (acc.bit ++ a) acc.data) = .ok (decodeBus u (acc.bit ++ a) (acc.data.getD 0)) := by
  have kind := selIsWrite_append acc a
  cases acc <;> (rw [Access.data, decode, kind]; rfl)

/-- The low bits of a selector are the address's. -/
theorem setWidth_kind_append (k : BitVec 1) (a : Addr) {m : Nat} (h : m ≤ 16) : (k ++ a).setWidth m = a.setWidth m := by
  rw [← selAddr_setWidth _ h, selAddr_append]

/-- Decoding the transaction of a well-formed operation gives the first row of its encoding: its own row holds of the selector, and
every row of another encoding differs from it in a bit both fix. -/
theorem decode_encode {i : Instr} (wf : i.wellFormed = true) : decode (encode i) = .ok i.stateless := by
  cases i
  case mbcRdRom0 lo =>
    rw [encode, decode_read 0 rfl ((Row.holds_iff_div 14 rfl rfl).2 (append_toNat_div _ lo)) rfl rfl, BitVec.setWidth_append_eq_right]
    rfl
  case mbcRdRomx lo =>
    rw [encode, decode_read 1 rfl ((Row.holds_iff_div 14 rfl rfl).2 (append_toNat_div _ lo)) rfl rfl, BitVec.setWidth_append_eq_right]
    rfl
  case mbcRdRam lo | mbcRdRtc lo =>
    rw [encode, decode_read 2 rfl ((Row.holds_iff_div 13 rfl rfl).2 (append_toNat_div _ lo)) rfl rfl, BitVec.setWidth_append_eq_right]
    rfl
  case mbcWrRamen lo d =>
    rw [encode, decode_write 3 rfl ((Row.holds_iff_div 13 rfl rfl).2 (append_toNat_div _ lo)) rfl rfl, BitVec.setWidth_append_eq_right]
    rfl
  case mbcWrRomb lo d =>
    rw [encode, decode_write 4 rfl ((Row.holds_iff_div 13 rfl rfl).2 (append_toNat_div _ lo)) rfl rfl, BitVec.setWidth_append_eq_right]
    rfl
  case mbcWrRamb lo d =>
    rw [encode, decode_write 5 rfl ((Row.holds_iff_div 13 rfl rfl).2 (append_toNat_div _ lo)) rfl rfl, BitVec.setWidth_append_eq_right]
    rfl
  case mbcWrLatch lo d =>
    rw [encode, decode_write 6 rfl ((Row.holds_iff_div 13 rfl rfl).2 (append_toNat_div _ lo)) rfl rfl, BitVec.setWidth_append_eq_right]
    rfl
  case mbcWrRam lo d | mbcWrRtc lo d =>
    rw [encode, decode_write 7 rfl ((Row.holds_iff_div 13 rfl rfl).2 (append_toNat_div _ lo)) rfl rfl, BitVec.setWidth_append_eq_right]
    rfl
  case sndRdChA lo =>
    rw [encode, decode_read 0 rfl ((Row.holds_iff_div 4 rfl rfl).2 (append_toNat_div _ lo)) rfl rfl, BitVec.setWidth_append_eq_right]
    rfl
  case sndRdChB lo =>
    rw [encode, decode_read 1 rfl ((Row.holds_iff_div 2 rfl rfl).2 (append_toNat_div _ lo)) rfl rfl, BitVec.setWidth_append_eq_right]
    rfl
  case sndRdCtl lo =>
    rw [encode, decode_read 2 rfl ((Row.holds_iff_div 1 rfl rfl).2 (append_toNat_div _ lo)) rfl rfl, BitVec.setWidth_append_eq_right]
    rfl
  case sndRdWave lo =>
    rw [encode, decode_read 4 rfl ((Row.holds_iff_div 4 rfl rfl).2 (append_toNat_div _ lo)) rfl rfl, BitVec.setWidth_append_eq_right]
    rfl
  case sndWrChA lo d =>
    rw [encode, decode_write 5 rfl ((Row.holds_iff_div 4 rfl rfl).2 (append_toNat_div _ lo)) rfl rfl, BitVec.setWidth_append_eq_right]
    rfl
  case sndWrChB lo d =>
    rw [encode, decode_write 6 rfl ((Row.holds_iff_div 2 rfl rfl).2 (append_toNat_div _ lo)) rfl rfl, BitVec.setWidth_append_eq_right]
    rfl
  case sndWrCtl lo d =>
    rw [encode, decode_write 7 rfl ((Row.holds_iff_div 1 rfl rfl).2 (append_toNat_div _ lo)) rfl rfl, BitVec.setWidth_append_eq_right]
    rfl
  case sndWrWave lo d =>
    rw [encode, decode_write 9 rfl ((Row.holds_iff_div 4 rfl rfl).2 (append_toNat_div _ lo)) rfl rfl, BitVec.setWidth_append_eq_right]
    rfl
  case mbcBad8000 acc lo =>
    have h : rowMbcBad8000.holds (acc.bit ++ (0b100#3 ++ lo)) = true :=
      rowMbcBad8000_holds_iff.2 (by rw [selAddr_append]; exact append_toNat_div _ _)
    rw [encode, decode_access, decodeBus_of_holds (k := 8) rfl h, selAccess_append, setWidth_kind_append _ _ (by decide),
      BitVec.setWidth_append_eq_right]
    rfl
  case mbcBadC000 acc lo =>
    have h : rowMbcBadC000.holds (acc.bit ++ (0b11#2 ++ lo)) = true :=
      rowMbcBadC000_holds_iff.2 (by rw [selAddr_append]; exact append_toNat_div _ _)
    have apart : ∀ p ∈ BusUnit.mbc.rungs, rowMbcBadC000.pat &&& p.1.mask ≠ p.1.pat &&& rowMbcBadC000.mask := by decide
    rw [encode, decode_access, decodeBus_of_none fun p mem => Row.not_holds_of_holds h (apart p mem), BusUnit.otherwise,
      selAccess_append, setWidth_kind_append _ _ (by decide), BitVec.setWidth_append_eq_right]
    rfl
  case sndBad acc a =>
    have none : ¬ ∃ r ∈ sndRows, r.holds (acc.bit ++ a) = true := by
      rw [exists_sndRow_iff, selAddr_append]
      simpa [Instr.wellFormed] using wf
    have rungs : BusUnit.snd.rungs.map Prod.fst = sndRows := rfl
    rw [encode, decode_access, decodeBus_of_none fun p mem => ?_, BusUnit.otherwise, selAccess_append, selAddr_append]
    · rfl
    · rw [← Bool.not_eq_true]
      exact fun h => none ⟨p.1, rungs ▸ List.mem_map_of_mem mem, h⟩
  all_goals rfl

/-! ## The row the state selects (R103, R141) -/

/-- SCAN_TICK is the row whose condition holds (R141). -/
theorem tickRow_of_rowCondition {s : State} {i : Instr} (hi : i ∈ [.scanTickY, .scanTickX, .scanTickOverrun])
    (h : rowCondition i s = true) : tickRow s = i := by
  simp only [List.mem_cons, List.not_mem_nil, or_false] at hi
  rw [tickRow_eq]
  obtain rfl | rfl | rfl := hi
  · simp only [rowCondition, Bool.and_eq_true, decide_eq_true_eq, beq_iff_eq] at h
    rw [if_pos h.1, if_pos h.2]
  · simp only [rowCondition, Bool.and_eq_true, decide_eq_true_eq, beq_iff_eq] at h
    rw [if_pos h.1, if_neg (by simp [h.2])]
  · simp only [rowCondition, beq_iff_eq] at h
    rw [if_neg (by simp [h])]

theorem rowCondition_tickRow (s : State) : rowCondition (tickRow s) s = true := by
  rw [tickRow_eq]
  split
  next more =>
    cases phase : s.scan.state <;> simp [rowCondition, more, phase]
  next last =>
    have : s.scan.i = 40 := Fin.ext (by have := s.scan.i.isLt; simp; omega)
    simp [rowCondition, this]

/-- Of the rows that share an encoding, the state selects the one whose condition holds. -/
theorem selectRow_stateless {i : Instr} {s : State} (h : rowCondition i s = true) : selectRow s i.stateless = i := by
  cases i
  case scanTickY | scanTickX | scanTickOverrun => exact tickRow_of_rowCondition (by simp) h
  case mbcRdRam lo | mbcWrRam lo d => exact if_pos h
  case mbcRdRtc lo | mbcWrRtc lo d =>
    rw [rowCondition, Bool.not_eq_true'] at h
    simp [selectRow, Instr.stateless, h]
  all_goals rfl

/-- The row the state selects for a well-formed operation has a true condition. -/
theorem rowCondition_selectRow {i : Instr} (wf : i.wellFormed = true) (s : State) : rowCondition (selectRow s i) s = true := by
  cases i
  case scanTickY | scanTickX | scanTickOverrun => exact rowCondition_tickRow s
  case mbcRdRam | mbcRdRtc | mbcWrRam | mbcWrRtc => cases h : ramBankSelected s <;> simp [selectRow, rowCondition, h]
  case sndBad acc a => exact wf
  all_goals rfl

/-- A transaction in a state is the operation whose encoding it is and whose condition holds. -/
theorem decode_select {i : Instr} {w : Wire} {s : State} (hw : encode i = w) (wf : i.wellFormed = true)
    (h : rowCondition i s = true) : (decode w).map (selectRow s) = .ok i := by
  rw [← hw, decode_encode wf]
  exact congrArg Except.ok (selectRow_stateless h)

/-! ## What is never refused (R101) -/

/-- An access of SND completes where its map accepts the address (R250). -/
theorem sndAccessAt_completes {s : State} {a : Addr} (h : mapAccepts s.params.sndMap a) (acc : Access) :
    ∃ t, sndAccessAt acc a s = .next t := by
  obtain ⟨role, hr⟩ := Option.isSome_iff_exists.1 ((sndRole_isSome_iff_mapAccepts _ a).2 h)
  cases acc with
  | read => rw [sndAccessAt, sndRead, hr]; cases role <;> exact ⟨_, rfl⟩
  | write d => rw [sndAccessAt, sndWrite, hr]; cases role <;> exact ⟨_, rfl⟩

theorem sndAccessAt_ne_refused (acc : Access) (a : Addr) (s : State) (r : Refusal) : sndAccessAt acc a s ≠ .refused r := by
  by_cases h : mapAccepts s.params.sndMap a
  · obtain ⟨t, ht⟩ := sndAccessAt_completes h acc
    simp [ht]
  · simp [sndAccessAt_of_not_mapAccepts h]

theorem ite_ne_refused {c : Prop} [Decidable c] {o p : Host.Outcome State Fault Refusal} {r : Refusal} (ho : o ≠ .refused r)
    (hp : p ≠ .refused r) : (if c then o else p) ≠ .refused r := by
  split
  · exact ho
  · exact hp

/-- A guarded operation whose guard holds is not refused for it. -/
theorem ite_ne_refused_of_pos {c : Prop} [Decidable c] {o p : Host.Outcome State Fault Refusal} {r : Refusal} (hc : c)
    (ho : o ≠ .refused r) : (if c then o else p) ≠ .refused r := by
  rwa [if_pos hc]

/-- An operation whose row's condition holds is never refused. -/
theorem exec_ne_refused {i : Instr} {s : State} (h : rowCondition i s = true) (r : Refusal) : exec i s ≠ .refused r := by
  cases access : sndAccess i with
  | some p =>
    rw [exec_of_sndAccess access]
    exact sndAccessAt_ne_refused _ _ s r
  | none =>
    cases i
    case scanTickY | scanTickX | scanTickOverrun | mbcRdRam | mbcRdRtc => exact ite_ne_refused_of_pos h nofun
    case mbcWrRam | mbcWrRtc => exact ite_ne_refused_of_pos h (ite_ne_refused nofun nofun)
    case sndTick | rbWrite => exact ite_ne_refused nofun nofun
    case sndToggle k =>
      change execSndToggle k s ≠ _
      unfold execSndToggle
      split
      · nofun
      · nofun
    case sndBad acc a => cases (sndAccess_sndBad acc a).symm.trans access
    case sndRdChA | sndRdChB | sndRdCtl | sndRdNr52 | sndRdWave | sndWrChA | sndWrChB | sndWrCtl | sndWrNr52 | sndWrWave =>
      cases access
    all_goals nofun

/-- A step that is refused had its request refused, or ran an operation that is. -/
theorem step_refused_cases {s : State} {r : Refusal} (h : step s = .refused r) :
    ∃ a w s', fetch s = .issued a w s' ∧ (resolve a w s' = .error r ∨ ∃ i, resolve a w s' = .ok i ∧ exec i s' = .refused r) := by
  unfold step at h
  split at h
  next => cases h
  next => cases h
  next a w s' fetched =>
    refine ⟨a, w, s', fetched, ?_⟩
    split at h
    next r' why =>
      cases h
      exact .inl why
    next i resolved => exact .inr ⟨i, resolved, h⟩

theorem resolve_ne_rowNotSelected (a : Agent) (w : Wire) (s : State) (m : String) : resolve a w s ≠ .error (.rowNotSelected m) := by
  unfold resolve
  split
  · simp
  · split <;> simp

/-! ## The selectors of the bus (R101) -/

/-- Bits that are the kind's and the address's make their selector. -/
theorem selector_eq {n m : Nat} (hm : m ≤ 16) {p : BitVec n} {k : BitVec 1} {a : Addr}
    (h : p.toNat = (k.toNat * 2 ^ 16 + a.toNat) / 2 ^ m) : (p ++ a.setWidth m).toNat = (k ++ a).toNat := by
  rw [toNat_append_eq_add, toNat_append_eq_add, BitVec.toNat_setWidth, h]
  have low : a.toNat % 2 ^ m = (k.toNat * 2 ^ 16 + a.toNat) % 2 ^ m := by
    have : 2 ^ m ∣ k.toNat * 2 ^ 16 := Dvd.dvd.mul_left (pow_dvd_pow 2 hm) _
    rw [Nat.add_mod, Nat.mod_eq_zero_of_dvd this, Nat.zero_add, Nat.mod_mod]
  rw [low, Nat.div_add_mod']

/-- A read of the bus is the operation whose row has its address. -/
theorem read_select {u : BusUnit} {x : Selector} {a : Addr} {s : State} {i : Instr} (hw : encode i = .bus u x none)
    (hx : x.toNat = (0#1 ++ a).toNat) (wf : i.wellFormed = true) (h : rowCondition i s = true) :
    (decode (.bus u (0#1 ++ a) none)).map (selectRow s) = .ok i :=
  decode_select (BitVec.eq_of_toNat_eq hx ▸ hw) wf h

/-- A write of the bus is the operation whose row has its address. -/
theorem write_select {u : BusUnit} {x : Selector} {a : Addr} {d : Byte} {s : State} {i : Instr} (hw : encode i = .bus u x (some d))
    (hx : x.toNat = (1#1 ++ a).toNat) (wf : i.wellFormed = true) (h : rowCondition i s = true) :
    (decode (.bus u (1#1 ++ a) (some d))).map (selectRow s) = .ok i :=
  decode_select (BitVec.eq_of_toNat_eq hx ▸ hw) wf h

end Sys2Proof

namespace Sys2Proof.Machine

/-! ## The obligations -/

/-- Settles O47: the decoder inverts the encoder up to the rows of one encoding, and the state tells those apart. -/
theorem decodeOfEncodeIsTheOperation : Obligations.DecodeOfEncodeIsTheOperation := by
  unfold Obligations.DecodeOfEncodeIsTheOperation
  exact fun i wf => ⟨decode_encode wf, fun s h => selectRow_stateless h⟩

/-- Settles O48: a CTRL transaction by its code, a BUS transaction by the row of its selector. -/
theorem encodeOfDecodeIsTheTransaction : Obligations.EncodeOfDecodeIsTheTransaction := by
  unfold Obligations.EncodeOfDecodeIsTheTransaction
  exact fun w i h => encode_of_decode h

/-- Settles O46: each clause names the operation whose encoding has the access's bits. -/
theorem busAccessesSelectTheirRows : Obligations.BusAccessesSelectTheirRows := by
  unfold Obligations.BusAccessesSelectTheirRows
  rintro a d s rd wr rfl rfl
  refine ⟨fun hi => ?_, fun lo hi => ?_, fun hi => ?_, fun lo hi => ?_, fun lo hi => ?_, fun lo hi => ?_, fun lo hi bank => ⟨?_, ?_⟩,
    fun lo hi bank => ⟨?_, ?_⟩, fun lo hi => ⟨?_, ?_⟩, fun lo => ⟨?_, ?_⟩, fun nr52 => ?_, fun lo hi => ⟨?_, ?_⟩,
    fun lo hi => ⟨?_, ?_⟩, fun lo hi => ⟨?_, ?_⟩, fun lo hi => ⟨?_, ?_⟩, fun out => ⟨?_, ?_⟩⟩
  · exact read_select rfl (selector_eq (by decide) (by simp; omega)) rfl rfl
  · exact read_select rfl (selector_eq (by decide) (by simp; omega)) rfl rfl
  · exact write_select rfl (selector_eq (by decide) (by simp; omega)) rfl rfl
  · exact write_select rfl (selector_eq (by decide) (by simp; omega)) rfl rfl
  · exact write_select rfl (selector_eq (by decide) (by simp; omega)) rfl rfl
  · exact write_select rfl (selector_eq (by decide) (by simp; omega)) rfl rfl
  · exact read_select rfl (selector_eq (by decide) (by simp; omega)) rfl (ramBankSelected_of_lt bank)
  · exact write_select rfl (selector_eq (by decide) (by simp; omega)) rfl (ramBankSelected_of_lt bank)
  · exact read_select rfl (selector_eq (by decide) (by simp; omega)) rfl (by rw [rowCondition, ramBankSelected_of_le bank]; rfl)
  · exact write_select rfl (selector_eq (by decide) (by simp; omega)) rfl (by rw [rowCondition, ramBankSelected_of_le bank]; rfl)
  · exact read_select rfl (congrArg BitVec.toNat (congrArg (0#1 ++ ·) (append_setWidth_eq_iff.2 (by simp; omega)))) rfl rfl
  · exact write_select rfl (congrArg BitVec.toNat (congrArg (1#1 ++ ·) (append_setWidth_eq_iff.2 (by simp; omega)))) rfl rfl
  · exact read_select rfl (congrArg BitVec.toNat (congrArg (0#1 ++ ·) (append_setWidth_eq_iff.2 (by simp; omega)))) rfl rfl
  · exact write_select rfl (congrArg BitVec.toNat (congrArg (1#1 ++ ·) (append_setWidth_eq_iff.2 (by simp; omega)))) rfl rfl
  · obtain rfl : a = 0xFF26 := BitVec.eq_of_toNat_eq nr52
    exact ⟨rfl, rfl⟩
  · exact read_select rfl (selector_eq (by decide) (by simp; omega)) rfl rfl
  · exact write_select rfl (selector_eq (by decide) (by simp; omega)) rfl rfl
  · exact read_select rfl (selector_eq (by decide) (by simp; omega)) rfl rfl
  · exact write_select rfl (selector_eq (by decide) (by simp; omega)) rfl rfl
  · exact read_select rfl (selector_eq (by decide) (by simp; omega)) rfl rfl
  · exact write_select rfl (selector_eq (by decide) (by simp; omega)) rfl rfl
  · exact read_select rfl (selector_eq (by decide) (by simp; omega)) rfl rfl
  · exact write_select rfl (selector_eq (by decide) (by simp; omega)) rfl rfl
  · have none : (!sndRowTakes a) = true := by simp [sndRowTakes]; omega
    exact read_select rfl rfl none none
  · have none : (!sndRowTakes a) = true := by simp [sndRowTakes]; omega
    exact write_select rfl rfl none none

/-- Settles O49: rows differ in a bit both fix, MBC's cover every selector and SND's the addresses the default map accepts. -/
theorem exactlyOneRowMatches : Obligations.ExactlyOneRowMatches := by
  unfold Obligations.ExactlyOneRowMatches
  intro s
  have takes : sndRowTakes (selAddr s) = true ↔
      (0xFF10 ≤ (selAddr s).toNat ∧ (selAddr s).toNat ≤ 0xFF26) ∨ (0xFF30 ≤ (selAddr s).toNat ∧ (selAddr s).toNat ≤ 0xFF3F) := by
    simp only [sndRowTakes, Bool.or_eq_true, Bool.and_eq_true, decide_eq_true_eq]
  constructor
  · rw [filter_holds_length (by decide), if_pos (exists_mbcRow s)]
  · rw [filter_holds_length (by decide)]
    exact if_congr ((exists_sndRow_iff s).trans takes) rfl rfl

/-- Settles O50: what decodes is well-formed, so the row the state selects has a true condition and is not refused for it. -/
theorem selectedRowsHaveTrueConditions : Obligations.SelectedRowsHaveTrueConditions := by
  unfold Obligations.SelectedRowsHaveTrueConditions
  have selected : ∀ (w : Wire) (i : Instr) (s : State), decode w = .ok i → rowCondition (selectRow s i) s = true :=
    fun w i s h => rowCondition_selectRow (encode_of_decode h).2 s
  refine ⟨selected, fun i s h r => exec_ne_refused h r, fun s m h => ?_⟩
  obtain ⟨a, w, s', -, refused | ⟨i, resolved, refused⟩⟩ := step_refused_cases h
  · exact resolve_ne_rowNotSelected a w s' m refused
  · obtain ⟨j, decoded, -, rfl⟩ := resolve_ok_iff.1 resolved
    exact exec_ne_refused (selected w j s' decoded) _ refused

/-- Settles O45: each transaction runs through the decoder. -/
theorem specWordsDecode : Obligations.SpecWordsDecode := by
  unfold Obligations.SpecWordsDecode
  exact ⟨rfl, rfl, rfl, fun _ => rfl, rfl, rfl, fun _ => rfl, rfl, fun _ => rfl, fun _ _ => rfl, fun _ => rfl, rfl, rfl, rfl, rfl, rfl,
    rfl, rfl, rfl, rfl⟩

end Sys2Proof.Machine
end

section
/-! SUPPORT. What one operation keeps of each unit, of the inputs and of the parameters, and so what every step keeps (10_state.md R24,
R28, R32, R45, R189); O55 and O59 are read off these rules. -/

namespace Sys2Proof.Machine

/-! ## The list of sprites (R24) -/

/-- What R24 says of a descriptor at entry `k`. -/
def Scan.Lists (c : Scan) (k : Fin 10) (d : SpriteDescriptor) : Prop :=
  k.val < c.n.val ∧ (0 ≤ d.x ∧ d.x ≤ 255) ∧ (0 ≤ d.y ∧ d.y ≤ 255) ∧
    (∃ j : Fin 40, j.val < c.i.val ∧ d.oamAddress = oamAddr j.val) ∧
    ∀ l : Fin 10, k.val < l.val → ∀ e ∈ c.sprites[l], d.oamAddress < e.oamAddress

/-- The list is in order where every empty entry is behind the count and every descriptor is as R24 says. -/
theorem Scan.listed_iff (c : Scan) : c.listed ↔
    ∀ k : Fin 10, (c.sprites[k] = none → c.n.val ≤ k.val) ∧ ∀ d, c.sprites[k] = some d → c.Lists k d := by
  refine forall_congr' fun k => ?_
  cases c.sprites[k] with
  | none => simp
  | some d => simp [Scan.Lists]

/-- Entries behind the count are empty. -/
theorem Scan.listed.eq_none {c : Scan} (h : c.listed) {k : Fin 10} (hk : c.n.val ≤ k.val) : c.sprites[k] = none := by
  cases hd : c.sprites[k] with
  | none => rfl
  | some d =>
    obtain ⟨before, -⟩ := (c.listed_iff.1 h k).2 d hd
    omega

/-- A descriptor stays as R24 says where the scan moves on and the list stays. -/
theorem Scan.listed.mono {c c' : Scan} (h : c.listed) (hn : c'.n = c.n) (hs : c'.sprites = c.sprites) (hi : c.i.val ≤ c'.i.val) :
    c'.listed := by
  refine c'.listed_iff.2 fun k => ?_
  obtain ⟨empty, full⟩ := c.listed_iff.1 h k
  rw [hn, hs]
  refine ⟨empty, fun d hd => ?_⟩
  obtain ⟨before, hx, hy, ⟨j, hj, addr⟩, order⟩ := full d hd
  exact ⟨hn ▸ before, hx, hy, ⟨j, hj.trans_le hi, addr⟩, hs ▸ order⟩

/-- The list stays in order where the current slot's descriptor is put behind it and the scan moves on. -/
theorem Scan.listed.append {c c' : Scan} (h : c.listed) {x y : Byte} (room : c.i.val < 40) (hi : c'.i.val = c.i.val + 1)
    (hn : c'.n.val = c.n.val + 1)
    (hs : ∀ k : Fin 10, c'.sprites[k] = if k.val = c.n.val then some ⟨x.toNat, y.toNat, oamAddr c.i.val⟩ else c.sprites[k]) :
    c'.listed := by
  have byte (v : Byte) : (0 : Int) ≤ v.toNat ∧ (v.toNat : Int) ≤ 255 := by have := v.isLt; omega
  refine c'.listed_iff.2 fun k => ?_
  rw [hs k]
  split
  next new =>
    refine ⟨nofun, fun d hd => ?_⟩
    cases hd
    refine ⟨by omega, byte x, byte y, ⟨⟨c.i.val, room⟩, hi ▸ Nat.lt_succ_self _, rfl⟩, fun l hl e he => ?_⟩
    rw [hs l, if_neg (by omega), h.eq_none (by omega)] at he
    cases he
  next old =>
    obtain ⟨empty, full⟩ := c.listed_iff.1 h k
    refine ⟨fun hk => by have := empty hk; omega, fun d hd => ?_⟩
    obtain ⟨before, hx, hy, ⟨j, hj, addr⟩, order⟩ := full d hd
    refine ⟨by omega, hx, hy, ⟨j, by omega, addr⟩, fun l hl e he => ?_⟩
    rw [hs l] at he
    split at he
    · cases he
      rw [addr]
      simp only [oamAddr]
      omega
    · exact order l hl e he

theorem Scan.start_inv (c : Scan) : c.start.Inv :=
  ⟨c.start.listed_iff.2 fun k => ⟨fun _ => Nat.zero_le _, fun d hd => by cases (c.start_sprites k).symm.trans hd⟩, nofun⟩

/-- The ReadingY tick keeps SCAN's invariant (R142). -/
theorem Scan.readY_inv {c : Scan} (h : c.Inv) (room : c.i.val < 40) (y : Byte) : Scan.Inv { c with curY := y, state := .readingX } :=
  ⟨Scan.listed.mono (c := c) h.1 rfl rfl le_rfl, fun _ => room⟩

/-- The ReadingX tick keeps SCAN's invariant (R143). -/
theorem Scan.evaluate_inv {c : Scan} (h : c.Inv) (room : c.i.val < 40) (x ly : Byte) (obj16 : Bool) :
    (c.evaluate x ly obj16).Inv := by
  obtain ⟨listed, -⟩ := h
  have next : (c.evaluate x ly obj16).i.val = c.i.val + 1 := nextSlot_val room
  refine ⟨?_, nofun⟩
  by_cases collects : visible c.curY.toNat ly.toNat (spriteHeight obj16) = true ∧ c.n.val < 10
  · obtain ⟨count, sprites⟩ := Scan.evaluate_appends (x := x) collects.1 collects.2
    exact listed.append room next count sprites
  · obtain ⟨count, sprites⟩ := Scan.evaluate_keeps_list (x := x) collects
    exact listed.mono count sprites (by omega)

/-- What an operation that completes does to SCAN: a start, a tick of a slot that is left, or nothing. -/
theorem exec_scan_cases {i : Instr} {s t : State} (h : exec i s = .next t) :
    t.scan = s.scan ∨ t.scan = s.scan.start ∨
      (s.scan.i.val < 40 ∧ ((∃ y, t.scan = { s.scan with curY := y, state := .readingX }) ∨
        ∃ x ly obj16, t.scan = s.scan.evaluate x ly obj16)) := by
  obtain own | other := eq_or_ne (unitOf i) .scan
  case inr =>
    obtain ⟨frame, -⟩ := exec_otherUnits h
    exact .inl (frame other)
  cases i
  case scanStart =>
    obtain rfl := (finish_eq_next _ _ _).1 h
    exact .inr (.inl rfl)
  case scanTickY =>
    change execScanTickY s = _ at h
    unfold execScanTickY at h
    split at h
    next selected =>
      obtain rfl := (finish_eq_next _ _ _).1 h
      simp only [rowCondition, Bool.and_eq_true, decide_eq_true_eq] at selected
      exact .inr (.inr ⟨selected.1, .inl ⟨_, rfl⟩⟩)
    next => cases h
  case scanTickX =>
    change execScanTickX s = _ at h
    unfold execScanTickX at h
    split at h
    next selected =>
      obtain rfl := (finish_eq_next _ _ _).1 h
      simp only [rowCondition, Bool.and_eq_true, decide_eq_true_eq] at selected
      exact .inr (.inr ⟨selected.1, .inr ⟨_, _, _, rfl⟩⟩)
    next => cases h
  case scanTickOverrun =>
    change execScanTickOverrun s = _ at h
    unfold execScanTickOverrun at h
    split at h <;> cases h
  case scanGetSprites =>
    obtain rfl := (finish_eq_next _ _ _).1 h
    exact .inl rfl
  all_goals cases own

/-- Every operation keeps SCAN's invariant (R24). -/
theorem exec_scan_inv {i : Instr} {s t : State} (h : exec i s = .next t) (hs : s.scan.Inv) : t.scan.Inv := by
  obtain e | e | ⟨room, ⟨y, e⟩ | ⟨x, ly, obj16, e⟩⟩ := exec_scan_cases h
  · exact e ▸ hs
  · exact e ▸ s.scan.start_inv
  · exact e ▸ Scan.readY_inv hs room y
  · exact e ▸ Scan.evaluate_inv hs room x ly obj16

/-! ## MBC (R28, R32, R189) -/

/-- What an operation can do to MBC keeps its invariant: a ROMB write never stores bank 0, and a RAM write one byte. -/
theorem MbcStep.inv {s : State} {i : Instr} {m : Mbc} (step : MbcStep s i m) (hm : s.mbc.Inv) : m.Inv := by
  obtain ⟨bank, ram, rom⟩ := hm
  cases step with
  | kept | advance | ramen | ramb | rtc => exact ⟨bank, ram, rom⟩
  | romb lo d => exact ⟨romBank_ne_zero d, ram, rom⟩
  | latch lo d =>
    rw [toggledLatch_eq]
    exact ⟨bank, ram, rom⟩
  | ram lo d o => exact ⟨bank, Memory.set_wf ram o d, rom⟩

/-- No operation changes the ROM image, the RAM's size or the reserved clock fields. -/
theorem MbcStep.cartridge {s : State} {i : Instr} {m : Mbc} (step : MbcStep s i m) :
    m.rom = s.mbc.rom ∧ m.ram.size = s.mbc.ram.size ∧ m.reserved = s.mbc.reserved := by
  cases step with
  | kept | advance | ramen | romb | ramb | rtc => exact ⟨rfl, rfl, rfl⟩
  | latch lo d =>
    rw [toggledLatch_eq]
    exact ⟨rfl, rfl, rfl⟩
  | ram lo d o => exact ⟨rfl, Memory.set_size _ _ _, rfl⟩

/-! ## The channels, the inputs and the parameters -/

/-- `d` is the channel `c` but for raw bytes and what its model keeps inside. -/
def Channel.Evolves (c d : Channel) : Prop :=
  d.model = c.model ∧ d.regs.size = c.regs.size ∧ (c.regs.wf = true → d.regs.wf = true)

theorem Channel.Evolves.refl (c : Channel) : c.Evolves c := ⟨rfl, rfl, id⟩

theorem Channel.Evolves.trans {c d e : Channel} (h : c.Evolves d) (g : d.Evolves e) : c.Evolves e := by
  obtain ⟨model, size, wf⟩ := h
  obtain ⟨model', size', wf'⟩ := g
  exact ⟨model'.trans model, size'.trans size, wf' ∘ wf⟩

theorem Channel.Evolves.inv {c d : Channel} (h : c.Evolves d) (hc : c.Inv) : d.Inv := by
  obtain ⟨-, size, wf⟩ := h
  exact ⟨wf hc.1, size.trans hc.2⟩

theorem Channel.evolves_of_regs {c d : Channel} (model : d.model = c.model) (regs : d.regs = c.regs) : c.Evolves d :=
  ⟨model, congrArg Memory.size regs, fun h => regs ▸ h⟩

theorem Channel.write_evolves (c : Channel) (a : Addr) (v : Byte) : c.Evolves (c.write a v) :=
  ⟨rfl, Memory.set_size _ _ _, fun h => Memory.set_wf h _ _⟩

theorem Channel.tick_evolves (c : Channel) : c.Evolves c.tick.2 := evolves_of_regs c.tick_model c.tick_regs
theorem Channel.start_evolves (c : Channel) : c.Evolves c.start := evolves_of_regs c.start_model c.start_regs
theorem Channel.stop_evolves (c : Channel) : c.Evolves c.stop := evolves_of_regs c.stop_model c.stop_regs

/-- From `s` to `t` the inputs and the parameters stay and each channel stays itself. -/
def State.Retains (s t : State) : Prop :=
  t.env = s.env ∧ t.params = s.params ∧ ∀ k : Fin 4, s.snd.ch[k].Evolves t.snd.ch[k]

theorem State.Retains.refl (s : State) : s.Retains s := ⟨rfl, rfl, fun _ => .refl _⟩

theorem State.Retains.trans {s t u : State} (h : s.Retains t) (g : t.Retains u) : s.Retains u := by
  obtain ⟨env, params, channels⟩ := h
  obtain ⟨env', params', channels'⟩ := g
  exact ⟨env'.trans env, params'.trans params, fun k => (channels k).trans (channels' k)⟩

/-- A change of the other fields alone. -/
theorem State.Retains.of_eq {s t : State} (env : t.env = s.env) (params : t.params = s.params) (ch : t.snd.ch = s.snd.ch) :
    s.Retains t := ⟨env, params, fun _ => ch ▸ .refl _⟩

theorem State.Retains.of_finish {s u t : State} {v : Result} (h : finish u v = .next t) (kept : s.Retains u) : s.Retains t := by
  obtain rfl := (finish_eq_next u t v).1 h
  exact kept

/-- A row with a condition on the state does its operation where the condition holds (R101). -/
theorem State.Retains.of_guarded {c : Prop} [Decidable c] {s t : State} {o : Host.Outcome State Fault Refusal} {r : Refusal}
    (h : (if c then o else .refused r) = .next t) (kept : o = .next t → s.Retains t) : s.Retains t := by
  split at h
  · exact kept h
  · cases h

theorem State.Retains.record {s t : State} (h : s.Retains t) (c : Call) : s.Retains (t.record c) := h

theorem State.Retains.foldl {α : Type} {f : State → α → State} (hf : ∀ (s : State) (a : α), s.Retains (f s a)) (l : List α) (s : State) :
    s.Retains (l.foldl f s) := by
  induction l generalizing s with
  | nil => exact .refl s
  | cons a l ih => exact (hf s a).trans (ih _)

theorem State.retains_setChannel {s : State} {k : Fin 4} {c : Channel} (h : (s.channel k).Evolves c) :
    s.Retains (s.setChannel k c) := by
  refine ⟨rfl, rfl, fun j => ?_⟩
  rw [State.setChannel_ch]
  split
  next same => exact same ▸ h
  next => exact .refl _

theorem State.retains_writeChannel (s : State) (k : Fin 4) (a : Addr) (v : Byte) : s.Retains (s.writeChannel k a v) :=
  State.retains_setChannel ((s.channel k).write_evolves a v)

theorem State.retains_startChannel (s : State) (k : Fin 4) : s.Retains (s.startChannel k) :=
  State.retains_setChannel (s.channel k).start_evolves

theorem State.retains_stopChannel (s : State) (k : Fin 4) : s.Retains (s.stopChannel k) :=
  State.retains_setChannel (s.channel k).stop_evolves

theorem powerOnWrite_retains (s : State) (a : Addr) : s.Retains (powerOnWrite s a) := by
  unfold powerOnWrite
  split
  · exact .refl s
  split
  · exact .refl s
  split
  · exact s.retains_writeChannel _ _ _
  · exact .refl s

theorem powerOn_retains (s : State) : s.Retains (powerOn s) := by
  have registers : s.Retains ((powerOnAddrs s.params.sndMap).foldl powerOnWrite s) := .foldl powerOnWrite_retains _ s
  rw [powerOn]
  exact (registers.trans (.foldl State.retains_startChannel _ _)).record _

theorem powerOff_retains (s : State) : s.Retains (powerOff s) := by
  rw [powerOff]
  exact (State.Retains.foldl State.retains_stopChannel _ s).record _

theorem writeMaster_retains (d : Byte) (s : State) : s.Retains (writeMaster d s) := by
  unfold writeMaster
  split
  · exact powerOff_retains (s.setSnd { s.snd with enabled := false })
  split
  · exact powerOn_retains (s.setSnd { s.snd with enabled := true })
  · exact .refl s

theorem sndAccessAt_retains {acc : Access} {a : Addr} {s t : State} (h : sndAccessAt acc a s = .next t) : s.Retains t := by
  cases acc with
  | read =>
    obtain ⟨v, rfl⟩ := sndRead_cases h
    exact .refl s
  | write d =>
    obtain rfl | ⟨k, -, rfl⟩ | rfl | rfl := sndWrite_cases h
    · exact writeMaster_retains d s
    · exact s.retains_writeChannel k a d
    · exact .refl s
    · exact .refl s

theorem execSndTick_retains {s t : State} (h : execSndTick s = .next t) : s.Retains t := by
  cases enabled : s.snd.enabled with
  | true =>
    cases (execSndTick_enabled enabled).symm.trans h
    exact ⟨rfl, rfl, fun k => by simpa [Snd.ticked] using Channel.tick_evolves _⟩
  | false =>
    cases (execSndTick_disabled enabled).symm.trans h
    exact .refl s

theorem execSndToggle_retains {i : Int} {s t : State} (h : execSndToggle i s = .next t) : s.Retains t := by
  unfold execSndToggle at h
  split at h
  · exact .of_finish h (.of_eq rfl rfl rfl)
  · cases h

theorem execMbcWrRamen_retains {lo : BitVec 13} {d : Byte} {s t : State} (h : execMbcWrRamen lo d s = .next t) : s.Retains t := by
  unfold execMbcWrRamen at h
  split at h
  · exact .of_finish h (.of_eq rfl rfl rfl)
  · exact .of_finish h (.of_eq rfl rfl rfl)

theorem execMbcWrRtc_retains {lo : BitVec 13} {d : Byte} {s t : State} (h : execMbcWrRtc lo d s = .next t) : s.Retains t := by
  refine .of_guarded h fun h => ?_
  split at h
  · exact .of_finish h (.of_eq rfl rfl rfl)
  · exact .of_finish h (.refl s)

theorem execRbWrite_retains {data : List Byte} {count : Nat} {s t : State} (h : execRbWrite data count s = .next t) :
    s.Retains t := by
  unfold execRbWrite at h
  split at h
  · cases h
  · exact .of_finish h (.of_eq rfl rfl rfl)

/-- Every operation keeps the inputs, the parameters and each channel itself (log 2, R25). -/
theorem exec_retains {i : Instr} {s t : State} (h : exec i s = .next t) : s.Retains t := by
  cases access : sndAccess i with
  | some p => exact sndAccessAt_retains ((exec_of_sndAccess access s).symm.trans h)
  | none =>
    cases i
    case scanStart | mbcSave | rtcAdvance | rbRead | mbcWrRomb | mbcWrRamb | mbcWrLatch => exact .of_finish h (.of_eq rfl rfl rfl)
    case scanGetSprites | mbcAccepts | sndAccepts | rbCount | mbcRdRom0 | mbcRdRomx => exact .of_finish h (.refl s)
    case scanTickY | scanTickX => exact .of_guarded h fun h => .of_finish h (.of_eq rfl rfl rfl)
    case mbcRdRam | mbcRdRtc => exact .of_guarded h fun h => .of_finish h (.refl s)
    case scanTickOverrun => exact .of_guarded h nofun
    case mbcBad8000 | mbcBadC000 => cases h
    case mbcWrRamen lo d => exact execMbcWrRamen_retains (lo := lo) h
    case mbcWrRam =>
      obtain ⟨ram, -, rfl⟩ := execMbcWrRam_cases h
      exact .of_eq rfl rfl rfl
    case mbcWrRtc => exact execMbcWrRtc_retains h
    case sndTick => exact execSndTick_retains h
    case sndToggle => exact execSndToggle_retains h
    case rbWrite => exact execRbWrite_retains h
    case sndBad acc a => cases (sndAccess_sndBad acc a).symm.trans access
    all_goals cases access

/-! ## The obligations -/

/-- Every operation keeps the machine's invariant. -/
theorem exec_inv {i : Instr} {s t : State} (h : exec i s = .next t) (hs : s.Inv) : t.Inv := by
  obtain ⟨scan, mbc, snd, rb, memory, size, mask, formed⟩ := hs
  obtain ⟨env, params, channels⟩ := exec_retains h
  refine ⟨exec_scan_inv h scan, (exec_mbcStep h).inv mbc, fun k => (channels k).inv (snd k), exec_rb_inv h rb, ?_⟩
  rw [State.envInv, env, params]
  exact ⟨memory, size, mask, formed⟩

/-- A change of the host's keeps its bytes canonical (R25). -/
theorem Env.apply_mem (e : Env) (i : HostInput) : (e.apply i).mem.size = e.mem.size ∧ (e.mem.wf = true → (e.apply i).mem.wf = true) := by
  cases i with
  | setByte a v => exact ⟨Memory.set_size _ _ _, fun h => Memory.set_wf h _ _⟩
  | setLy | setObj16 => exact ⟨rfl, id⟩

/-- Settles O59: the invariant does not look at the ports, the host's inputs keep it, and every operation does. -/
theorem everyStepKeepsTheInvariant : Obligations.EveryStepKeepsTheInvariant := by
  unfold Obligations.EveryStepKeepsTheInvariant
  intro s t hs h
  obtain rfl | ⟨p, rfl⟩ | ⟨i, p, rfl⟩ | ⟨i, p, h⟩ := step_cases h
  · exact hs
  · exact hs
  · obtain ⟨scan, mbc, snd, rb, memory, size, mask, formed⟩ := hs
    obtain ⟨sameSize, wf⟩ := s.env.apply_mem i
    exact ⟨scan, mbc, snd, rb, wf memory, sameSize.trans size, mask, formed⟩
  · exact exec_inv (s := s.setPorts p) h hs

theorem exec_sameMachine {i : Instr} {s t : State} (h : exec i s = .next t) : s.sameMachine t := by
  obtain ⟨rom, ram, reserved⟩ := (exec_mbcStep h).cartridge
  obtain ⟨-, params, channels⟩ := exec_retains h
  have capacity : t.rb.capacity = s.rb.capacity := by
    obtain ⟨data, count, -, -, e⟩ | ⟨count, -, e, -⟩ | ⟨e, -, -⟩ := exec_rb_cases h
    · rw [e, Rb.put_capacity]
    · rw [e, Rb.drop_capacity]
    · rw [e]
  exact ⟨params, rom, ram, capacity, reserved, fun k => (channels k).1⟩

/-- Settles O55: a step that is no operation changes ports and inputs alone, and no operation changes these. -/
theorem noStepChangesTheCartridgeOrTheParameters : Obligations.NoStepChangesTheCartridgeOrTheParameters := by
  unfold Obligations.NoStepChangesTheCartridgeOrTheParameters
  have same (s : State) : s.sameMachine s := ⟨rfl, rfl, rfl, rfl, rfl, fun _ => rfl⟩
  intro s t h
  obtain rfl | ⟨p, rfl⟩ | ⟨i, p, rfl⟩ | ⟨i, p, h⟩ := step_cases h
  · exact same t
  · exact same s
  · exact same s
  · exact exec_sameMachine (s := s.setPorts p) h

end Sys2Proof.Machine
end

section
/-! SUPPORT. Turns, requests and the host's inputs, and what construction leaves (00_scope.md R10; 30_encoding.md R116;
60_exceptions.md R335, R339; 70_reset_and_hazards.md R371); O42 to O44 and O56 to O58 are read off these rules. -/

namespace Sys2Proof.Machine

/-! ## A turn of an agent (R10) -/

/-- The row a state selects is read off SCAN and MBC (R103). -/
theorem selectRow_setPorts (s : State) (p : Ports) (i : Instr) : selectRow (s.setPorts p) i = selectRow s i := by
  cases i <;> rfl

/-- A turn of an agent with a request pending issues the oldest one. -/
theorem fetch_issued {s : State} {a : Agent} {ts : List Turn} {w : Wire} {ws : List Wire} (turn : s.ports.turns = .agent a :: ts)
    (pending : s.ports.queue a = w :: ws) :
    fetch s = .issued a w (s.setPorts { s.ports.setQueue a ws with turns := ts, issuer := some a }) := by
  simp only [fetch, turn, pending]

theorem step_of_resolve_ok {s s' : State} {a : Agent} {w : Wire} {i : Instr} (issued : fetch s = .issued a w s')
    (resolved : resolve a w s' = .ok i) : step s = exec i s' := by
  simp only [step, issued, resolved]

theorem step_of_resolve_error {s s' : State} {a : Agent} {w : Wire} {r : Refusal} (issued : fetch s = .issued a w s')
    (refused : resolve a w s' = .error r) : step s = .refused r := by
  simp only [step, issued, refused]

theorem resolve_rejected {w : Wire} {why : Reject} (h : decode w = .error why) (a : Agent) (s : State) :
    resolve a w s = .error (.rejected why) := by
  simp only [resolve, h]

/-- A request for an operation R1 gives the agent resolves to the row the state selects, the ports aside. -/
theorem resolve_given {s : State} {a : Agent} {w : Wire} {i : Instr} (h : decode w = .ok i)
    (may : mayIssue a (selectRow s i) = true) (p : Ports) : resolve a w (s.setPorts p) = .ok (selectRow s i) := by
  simp only [resolve, h, selectRow_setPorts, may, if_true]

/-- A request for an operation R1 does not give the agent is refused (log 19). -/
theorem resolve_foreign {s : State} {a : Agent} {w : Wire} {i : Instr} (h : decode w = .ok i)
    (not : mayIssue a (selectRow s i) = false) (p : Ports) :
    resolve a w (s.setPorts p) = .error (.notThisAgents a (selectRow s i)) := by
  simp only [resolve, h, selectRow_setPorts, not, Bool.false_eq_true, if_false]

/-- A code that is none of R102's is unknown, whatever its operands (R116). -/
theorem decode_unlisted {u : Code}
    (h : u ∉ ([0x10, 0x11, 0x12, 0x20, 0x21, 0x22, 0x30, 0x31, 0x32, 0x41, 0x42, 0x43] : List Code)) (ops : CtrlOperands) :
    decode (.ctrl u ops) = .error (.unknownCode u) := by
  simp only [List.mem_cons, List.not_mem_nil, or_false, not_or] at h
  simp only [decode, decodeCtrl, h, if_false]

/-! ## A turn without an operation (R25, R339) -/

theorem step_idle {s : State} (h : s.ports.turns = []) : step s = .next s := by
  simp only [step, fetch, h]

/-- A turn of an agent with nothing pending passes. -/
theorem step_agent_empty {s : State} {a : Agent} {ts : List Turn} (turn : s.ports.turns = .agent a :: ts)
    (empty : s.ports.queue a = []) : step s = .next (s.setPorts { s.ports with turns := ts }) := by
  simp only [step, fetch, turn, empty]

theorem step_host_empty {s : State} {ts : List Turn} (turn : s.ports.turns = .host :: ts) (empty : s.ports.host = []) :
    step s = .next (s.setPorts { s.ports with turns := ts }) := by
  simp only [step, fetch, turn, empty]

/-- A turn of the host applies its oldest input. -/
theorem step_host {s : State} {ts : List Turn} {h : HostInput} {hs : List HostInput} (turn : s.ports.turns = .host :: ts)
    (pending : s.ports.host = h :: hs) :
    step s = .next ((s.setEnv (s.env.apply h)).setPorts { s.ports with turns := ts, host := hs }) := by
  simp only [step, fetch, turn, pending]

/-- A byte the host sets is at its address, and every other is as it was. -/
theorem Env.apply_setByte_get {e : Env} (wf : e.mem.wf = true) (size : e.mem.size = 0x10000) (a : Addr) (v : Byte) (o : Nat) :
    (e.apply (.setByte a v)).mem.get o = if o = a.toNat then v else e.mem.get o := by
  have inside : a.toNat < e.mem.size := size ▸ a.isLt
  refine (Memory.get_set wf a.toNat v o).trans (if_congr ?_ rfl rfl)
  simp only [inside, and_true]

/-! ## Construction (R335, R371) -/

/-- Construction is refused exactly for clock fields out of range, an empty ring and a launch that is not formed. -/
theorem construct_eq_none_iff (p : Launch) :
    State.construct p = none ↔ deserialize p.clock = none ∨ p.ring.size = 0 ∨ p.formed = false := by
  unfold State.construct
  split
  next refused => simp [refused]
  next live reserved read =>
    simp only [read, reduceCtorEq, false_or]
    split
    next refused => simpa using refused
    next accepted => simpa using accepted

theorem construct_standard : State.construct Launch.standard = some State.reset := rfl

theorem Scan.reset_inv : Scan.reset.Inv :=
  ⟨Scan.reset.listed_iff.2 fun k => ⟨fun _ => Nat.zero_le _, fun d hd => by cases (Vector.getElem_replicate k.isLt).symm.trans hd⟩,
    nofun⟩

/-- An empty ring that has room meets RB's invariant. -/
theorem Rb.empty_inv {ring : Memory} (room : ring.size ≠ 0) (wf : ring.wf = true) : Rb.Inv ⟨ring, 0, 0, 0⟩ := by
  have pos : 0 < ring.size := Nat.pos_of_ne_zero room
  exact ⟨pos, Nat.zero_le _, pos, pos, (Nat.zero_mod _).symm, wf⟩

/-- Construction leaves each channel as the launch gives it. -/
theorem Launch.channels_getElem (p : Launch) (k : Fin 4) :
    (#v[p.channel 0, p.channel 1, p.channel 2, p.channel 3] : Vector Channel 4)[k] = p.channel k := by
  match k with
  | 0 | 1 | 2 | 3 => rfl

/-- The invariant holds after construction. -/
theorem construct_inv {p : Launch} {s : State} (h : State.construct p = some s) : s.Inv := by
  obtain ⟨live, reserved, -, room, formed, scan, mbc, snd, rb, env, params, -⟩ := construct_cases h
  obtain ⟨⟨rom, ram, ring, memory, mask, -⟩, ⟨size, -, -⟩, map, -⟩ := p.formed_iff.1 formed
  refine ⟨scan ▸ Scan.reset_inv, ?_, fun k => ?_, rb ▸ Rb.empty_inv room ring, ?_⟩
  · rw [mbc]
    exact ⟨(by decide : (1 : BitVec 7) ≠ 0), ram, rom⟩
  · obtain ⟨wf, size, -⟩ := Launch.channel_regs formed k
    simp only [snd, Launch.channels_getElem]
    exact ⟨wf, size⟩
  · rw [State.envInv, env, params]
    exact ⟨memory, size, mask, map⟩

/-! ## The obligations -/

/-- Settles O42: the request resolves to the row the state selects. -/
theorem stepRunsTheDecodedOperation : Obligations.StepRunsTheDecodedOperation := by
  unfold Obligations.StepRunsTheDecodedOperation
  exact fun s a ts w ws i turn pending decoded may =>
    step_of_resolve_ok (fetch_issued turn pending) (resolve_given decoded may _)

/-- Settles O44: an unlisted code does not decode, and a foreign operation does not resolve. -/
theorem unlistedCodesAndForeignOperationsAreRefused : Obligations.UnlistedCodesAndForeignOperationsAreRefused := by
  unfold Obligations.UnlistedCodesAndForeignOperationsAreRefused
  intro s a ts w ws turn pending
  refine ⟨?_, fun i decoded not => step_of_resolve_error (fetch_issued turn pending) (resolve_foreign decoded not _)⟩
  rintro u ops rfl unlisted
  exact step_of_resolve_error (fetch_issued turn pending) (resolve_rejected (decode_unlisted unlisted ops) _ _)

/-- Settles O43. -/
theorem turnsWithoutAnOperation : Obligations.TurnsWithoutAnOperation := by
  unfold Obligations.TurnsWithoutAnOperation
  intro s ts
  refine ⟨step_idle, fun a => step_agent_empty, step_host_empty, fun h hs turn pending => ⟨s.env.apply h, step_host turn pending, ?_⟩⟩
  refine ⟨?_, ?_, ?_⟩
  · rintro a v rfl
    exact ⟨rfl, Memory.set_size _ _ _, fun ⟨wf, size, _⟩ => Env.apply_setByte_get wf size a v⟩
  · rintro v rfl
    rfl
  · rintro b rfl
    rfl

/-- Settles O56: the values of the constructed state, its channels by the launch's. -/
theorem constructionValues : Obligations.ConstructionValues := by
  unfold Obligations.ConstructionValues
  intro p ⟨scan, mbc, snd, rb, env, params, ports, result, trace, draws⟩ h
  obtain ⟨live, reserved, clock, room, formed, rfl, rfl, rfl, rfl, rfl, rfl, rfl, rfl, rfl, rfl⟩ := construct_cases h
  have levels (k : Fin 4) : Snd.reset.out[k] = 0 ∧ Snd.reset.mute[k] = true := by
    match k with
    | 0 | 1 | 2 | 3 => exact ⟨rfl, rfl⟩
  have registers (k : Fin 4) (o : Nat) (lo : p.params.sndMap.nr10.toNat ≤ o) (hi : o ≤ p.params.sndMap.nr51.toNat) :
      (#v[p.channel 0, p.channel 1, p.channel 2, p.channel 3] : Vector Channel 4)[k].regs.get o = 0x00 := by
    obtain ⟨-, -, zero⟩ := Launch.channel_regs formed k
    rw [Launch.channels_getElem]
    exact zero o lo hi
  have onDefaultMap (map : p.params.sndMap = Config.defaultSndMap) (k : Fin 4) (o : Nat) (lo : 0xFF10 ≤ o) (hi : o ≤ 0xFF23) :
      (#v[p.channel 0, p.channel 1, p.channel 2, p.channel 3] : Vector Channel 4)[k].regs.get o = 0x00 := by
    refine registers k o ?_ ?_ <;> rw [map]
    · exact lo
    · exact hi.trans (by decide)
  have start (k : Fin 4) : (#v[p.channel 0, p.channel 1, p.channel 2, p.channel 3] : Vector Channel 4)[k] =
      ⟨p.models[k], p.wave, p.inner[k]⟩ := p.channels_getElem k
  refine ⟨rfl, rfl, rfl, fun k => Vector.getElem_replicate k.isLt, rfl, rfl, rfl, rfl, rfl, rfl, rfl, rfl, rfl, clock, rfl, levels, rfl,
    rfl, registers, onDefaultMap, fun k => ?_, rfl, rfl, Nat.pos_of_ne_zero room, rfl, rfl, rfl, rfl, rfl, rfl⟩
  simp only [start, and_self]

/-- Settles O57: of a formed launch the fields and the ring are all that can be refused. -/
theorem constructionRefusals : Obligations.ConstructionRefusals := by
  unfold Obligations.ConstructionRefusals
  refine ⟨construct_standard, fun p formed => ?_⟩
  rw [construct_eq_none_iff, deserialize_eq_none_iff, formed, or_comm]
  simp only [fieldInRange_eq_false_iff, Bool.true_eq_false, or_false]

/-- Settles O58: the state after reset is a construction. -/
theorem constructionMeetsTheInvariant : Obligations.ConstructionMeetsTheInvariant := by
  unfold Obligations.ConstructionMeetsTheInvariant
  exact ⟨construct_inv construct_standard, fun p s h => construct_inv h⟩

end Sys2Proof.Machine
end

section
/-! SUPPORT. What sequences of MBC's operations leave (R77, R377, R379), what reads leave (R76), RB beside the other units (R78), and
stores as data (log 12); O18 to O20, O22, O23, O26, O52, O54 and O60 are read off these rules. -/

namespace Sys2Proof.Machine

/-! ## Stores as data (log 12) -/

/-- A list that rises above `b` rises. -/
theorem rising_of_risingAbove {b : Nat} {cs : List Host.Cell} (h : risingAbove b cs = true) : rising cs = true := by
  cases cs with
  | nil => rfl
  | cons x cs => exact rising_iff_risingAbove_tail.2 ((risingAbove_cons b x.1 x.2 cs).1 h).2

/-- A canonical list that reads 0x00 everywhere is empty. -/
theorem cellsOk.eq_nil {cs : List Host.Cell} (h : cellsOk cs) (zero : ∀ a, lookupCell cs a = 0) : cs = [] := by
  cases cs with
  | nil => rfl
  | cons x cs =>
    have first := zero x.1
    rw [lookupCell_cons x.1 x.2, if_pos rfl] at first
    exact absurd first (h.2 x List.mem_cons_self)

theorem cellsOk.tail {x : Host.Cell} {cs : List Host.Cell} (h : cellsOk (x :: cs)) : risingAbove x.1 cs = true ∧ cellsOk cs := by
  have above := rising_iff_risingAbove_tail.1 h.1
  exact ⟨above, rising_of_risingAbove above, fun c hc => h.2 c (List.mem_cons_of_mem _ hc)⟩

/-- The first address of a canonical list is the first at which it reads a byte other than 0x00. -/
theorem cellsOk.head_le {x y : Host.Cell} {cs ds : List Host.Cell} (hc : cellsOk (x :: cs)) (hd : cellsOk (y :: ds))
    (same : ∀ a, lookupCell (x :: cs) a = lookupCell (y :: ds) a) : y.1 ≤ x.1 := by
  by_contra before
  have byte := same x.1
  rw [lookupCell_cons x.1 x.2, if_pos rfl, lookupCell_cons y.1 y.2, if_neg (by omega),
    lookupCell_of_risingAbove hd.tail.1 (by omega)] at byte
  exact hc.2 x List.mem_cons_self byte

/-- Canonical lists that read the same at every address are the same. -/
theorem cellsOk.ext {cs ds : List Host.Cell} (hc : cellsOk cs) (hd : cellsOk ds)
    (same : ∀ a, lookupCell cs a = lookupCell ds a) : cs = ds := by
  induction cs generalizing ds with
  | nil => exact (hd.eq_nil fun a => (same a).symm).symm
  | cons x cs ih =>
    cases ds with
    | nil => exact hc.eq_nil same
    | cons y ds =>
      obtain ⟨k, v⟩ := x
      obtain ⟨l, w⟩ := y
      obtain rfl : k = l := Nat.le_antisymm (hd.head_le hc fun a => (same a).symm) (hc.head_le hd same)
      obtain rfl : v = w := by simpa [lookupCell_cons] using same k
      obtain ⟨abovec, okc⟩ := hc.tail
      obtain ⟨aboved, okd⟩ := hd.tail
      congr 1
      refine ih okc okd fun a => ?_
      by_cases ha : a = k
      · rw [ha, lookupCell_of_risingAbove abovec le_rfl, lookupCell_of_risingAbove aboved le_rfl]
      · simpa [lookupCell_cons, ha] using same a

theorem Memory.cellsOk_of_wf {m : Memory} (h : m.wf = true) : cellsOk m.cells := by
  obtain ⟨rises, cells⟩ := Memory.wf_iff.1 h
  exact ⟨rises, fun c hc => (cells c hc).2⟩

/-! ## The RAM window (R173) -/

theorem execMbcRdRam_of_byte {lo : BitVec 13} {s : State} {b : Byte} (h : s.mbc.selectedRamBank.toNat < 4)
    (byte : ramByte s.mbc (s.mbc.selectedRamBank.toNat * 0x2000 + lo.toNat) = b) :
    execMbcRdRam lo s = .next (s.answer (.byte b)) := by
  rw [execMbcRdRam_eq h, byte]

/-! ## The switchable window (R72, R379) -/

/-- The switchable window of a bank above 0 shows the image from offset 0x4000 on, below 0x200000. -/
theorem romx_offset_bounds {bank : BitVec 7} (h : bank ≠ 0) (lo : BitVec 14) :
    0x4000 ≤ bank.toNat * 0x4000 + lo.toNat ∧ bank.toNat * 0x4000 + lo.toNat < 0x200000 := by
  have := bank.isLt
  have := lo.isLt
  have : bank.toNat ≠ 0 := fun e => h (BitVec.eq_of_toNat_eq e)
  omega

/-! ## The latch (R179, R377) -/

/-- A LATCH write that is no edge moves the shadow alone. -/
theorem execMbcWrLatch_kept (lo : BitVec 13) {d : Byte} {s : State} (h : latchToggles s.mbc.latchRegister d = false) :
    execMbcWrLatch lo d s = .next ((s.setMbc { s.mbc with latchRegister := d }).answer .nothing) := by
  simp only [execMbcWrLatch, h, Bool.false_eq_true, if_false, finish]

/-- A LATCH write that is an edge toggles the latch. -/
theorem execMbcWrLatch_toggled (lo : BitVec 13) {d : Byte} {s : State} (h : latchToggles s.mbc.latchRegister d = true) :
    execMbcWrLatch lo d s = .next ((s.setMbc { s.mbc.toggleLatch with latchRegister := d }).answer .nothing) := by
  simp only [execMbcWrLatch, h, if_true, finish]

/-! ## The clock (R220) -/

theorem execRtcAdvance_eq (s : State) : execRtcAdvance s =
    .next (((s.setMbc { s.mbc with live := (s.mbc.live.advance s.params.rtcLaw s.draws).1 }).draw
      (s.mbc.live.advance s.params.rtcLaw s.draws).2).answer .nothing) := rfl

/-! ## What an operation can do to the latch and the snapshot (R31, R47) -/

/-- Of what an operation can do to MBC, only a LATCH write of 0x01 over a shadow of 0x00 changes the latch, and only one that closes it
the snapshot, to the live clock. -/
theorem MbcStep.latch_cases {s : State} {i : Instr} {m : Mbc} (step : MbcStep s i m) :
    (m.clockLatched = s.mbc.clockLatched ∧ m.snap = s.mbc.snap) ∨
      (∃ lo d, i = .mbcWrLatch lo d ∧ d = 0x01 ∧ s.mbc.latchRegister = 0x00) ∧ m.clockLatched = !s.mbc.clockLatched ∧
        m.snap = if s.mbc.clockLatched then s.mbc.snap else s.mbc.live := by
  cases step with
  | kept | advance | ramen | romb | ramb | ram | rtc => exact .inl ⟨rfl, rfl⟩
  | latch lo d =>
    by_cases toggles : latchToggles s.mbc.latchRegister d = true
    · obtain ⟨data, shadow⟩ := (latchToggles_iff _ _).1 toggles
      rw [if_pos toggles, Mbc.toggleLatch_eq]
      exact .inr ⟨⟨lo, d, rfl, data, shadow⟩, rfl, rfl⟩
    · rw [if_neg toggles]
      exact .inl ⟨rfl, rfl⟩

/-! ## Reads (R76) -/

theorem eq_answer_of_finish {s t : State} {v : Result} (h : finish s v = .next t) : t = s.answer t.result := by
  obtain rfl := (finish_eq_next s t v).1 h
  rfl

/-- A row with a condition on the state does its operation where the condition holds (R101). -/
theorem eq_answer_of_guarded {c : Prop} [Decidable c] {s t : State} {v : Result} {r : Refusal}
    (h : (if c then finish s v else .refused r) = .next t) : t = s.answer t.result := by
  split at h
  · exact eq_answer_of_finish h
  · cases h

theorem sndRead_eq_answer {a : Addr} {s t : State} (h : sndRead a s = .next t) : t = s.answer t.result := by
  obtain ⟨v, rfl⟩ := sndRead_cases h
  rfl

/-- An operation that only reads leaves the state as it was but for the result. -/
theorem exec_readsOnly {i : Instr} {s t : State} (reads : readsOnly i = true) (h : exec i s = .next t) : t = s.answer t.result := by
  cases i
  case scanGetSprites | mbcAccepts | sndAccepts | rbCount | mbcRdRom0 | mbcRdRomx => exact eq_answer_of_finish h
  case mbcRdRam | mbcRdRtc => exact eq_answer_of_guarded h
  case sndRdChA | sndRdChB | sndRdCtl | sndRdNr52 | sndRdWave => exact sndRead_eq_answer h
  case sndBad acc a =>
    cases acc with
    | read => exact sndRead_eq_answer h
    | write d => cases reads
  all_goals cases reads

/-! ## RB beside the other units (R49, R78) -/

/-- An RB operation changes RB and returns a result. -/
theorem exec_rb_eq {j : Instr} {s u : State} (rb : unitOf j = .rb) (h : exec j s = .next u) : u = (s.setRb u.rb).answer u.result := by
  cases j
  case rbWrite data count =>
    obtain beyond | within := Nat.lt_or_ge data.length count
    · cases (execRbWrite_beyond beyond s).symm.trans h
    · cases (execRbWrite_within within s).symm.trans h
      rfl
  case rbRead | rbCount =>
    obtain rfl := (finish_eq_next _ _ _).1 h
    rfl
  all_goals cases rb

theorem State.isolated_setRb {u : CoreUnit} (h : u ≠ .rb) (s : State) (r : Rb) (v : Result) :
    ((s.setRb r).answer v).isolated u = s.isolated u := by
  cases u
  case rb => exact absurd rfl h
  all_goals rfl

theorem State.absorb_setRb {u : CoreUnit} (h : u ≠ .rb) (s x : State) (r : Rb) (v : Result) :
    ((s.setRb r).answer v).absorb u x = ((s.absorb u x).setRb r).answer v := by
  cases u
  case rb => exact absurd rfl h
  all_goals rfl

/-- Another unit's operation does beside any contents of RB what it does beside the present ones. -/
theorem exec_setRb {i : Instr} (other : unitOf i ≠ .rb) {s t : State} (h : exec i s = .next t) (r : Rb) (v : Result) :
    exec i ((s.setRb r).answer v) = .next (t.setRb r) := by
  obtain ⟨x, hx, rfl⟩ := (exec_actsAlone i).next_iff.1 h
  refine (exec_actsAlone i).next_iff.2 ⟨x, (State.isolated_setRb other s r v).symm ▸ hx, ?_⟩
  rw [State.absorb_setRb other]
  rfl

/-! ## The obligations -/

/-- Settles O18: the enabled write stores the byte within the capacity, and the read of the same offset finds it. -/
theorem ramWriteThenReadReturnsTheByte : Obligations.RamWriteThenReadReturnsTheByte := by
  unfold Obligations.RamWriteThenReadReturnsTheByte
  intro s lo d wf bank enabled inside
  have read : ramByte { s.mbc with ram := s.mbc.ram.set (s.mbc.selectedRamBank.toNat * 0x2000 + lo.toNat) d }
      (s.mbc.selectedRamBank.toNat * 0x2000 + lo.toNat) = d := by
    rw [ramByte, if_pos ((Memory.set_size _ _ _).symm ▸ inside), Memory.get_set_same wf inside]
  exact ⟨_, execMbcWrRam_enabled bank enabled lo d, execMbcRdRam_of_byte bank read⟩

/-- Settles O19: a ROMB write stores a bank above 0. -/
theorem switchableWindowNeverShowsBankZero : Obligations.SwitchableWindowNeverShowsBankZero := by
  unfold Obligations.SwitchableWindowNeverShowsBankZero
  intro s lo d r
  obtain ⟨low, high⟩ := romx_offset_bounds (romBank_ne_zero d) r
  exact ⟨_, _, rfl, execMbcRdRomx_eq r _, _, low, high, rfl⟩

/-- Settles O20: 0x00 leaves a shadow over which 0x01 toggles, and 0x01 one over which it does not. -/
theorem latchProtocolToggles : Obligations.LatchProtocolToggles := by
  unfold Obligations.LatchProtocolToggles
  intro s lo
  refine ⟨_, _, _, execMbcWrLatch_kept lo rfl, execMbcWrLatch_toggled lo rfl, execMbcWrLatch_kept lo rfl, ?_, rfl, fun opened => ?_⟩
  · exact congrArg Mbc.clockLatched (Mbc.toggleLatch_eq { s.mbc with latchRegister := 0x00 })
  · refine (congrArg Mbc.snap (Mbc.toggleLatch_eq { s.mbc with latchRegister := 0x00 })).trans ?_
    simp [opened]

/-- Settles O22: every law completes, keeps the overflow flag, and under the default one halt. -/
theorem advanceTouchesOnlyTheLiveClock : Obligations.AdvanceTouchesOnlyTheLiveClock := by
  unfold Obligations.AdvanceTouchesOnlyTheLiveClock
  intro s
  refine ⟨_, execRtcAdvance_eq s, rfl, Clock.advance_ovf _ _ _, fun law => ?_, fun law halted => ?_⟩
  · rw [law]
    exact s.mbc.live.standardLaw_halt s.draws
  · rw [law]
    simp [Clock.advance, Clock.standardLaw_halted halted]

/-- Settles O23. -/
theorem clockFieldsRoundTrip : Obligations.ClockFieldsRoundTrip := by
  unfold Obligations.ClockFieldsRoundTrip
  exact deserialize_serialize

/-- Settles O26: a LATCH write that toggles is the one operation that changes either. -/
theorem snapshotWrittenOnlyWhenLatching : Obligations.SnapshotWrittenOnlyWhenLatching := by
  unfold Obligations.SnapshotWrittenOnlyWhenLatching
  intro i s t h
  obtain ⟨latch, snap⟩ | ⟨write, latch, snap⟩ := (exec_mbcStep h).latch_cases
  · exact ⟨fun changed => absurd latch changed, fun changed => absurd snap changed⟩
  · refine ⟨fun _ => write, fun changed => ?_⟩
    cases latched : s.mbc.clockLatched with
    | true => exact absurd (by rw [snap, latched, if_pos rfl]) changed
    | false => exact ⟨rfl, by rw [latch, latched, Bool.not_false], by rw [snap, latched]; rfl⟩

/-- Settles O52: each such operation ends in an answer. -/
theorem readsChangeNothing : Obligations.ReadsChangeNothing := by
  unfold Obligations.ReadsChangeNothing
  exact fun i s t reads h => exec_readsOnly reads h

/-- Settles O54: the RB operation sees RB alone, which the other left as it was, and the other does not see RB. -/
theorem ringOperationsCommuteWithOtherUnits : Obligations.RingOperationsCommuteWithOtherUnits := by
  unfold Obligations.RingOperationsCommuteWithOtherUnits
  intro i j s t u other rb hi hj
  obtain ⟨-, -, -, frame⟩ := exec_otherUnits hi
  have view : sameView (unitOf j) s t := by
    rw [rb]
    exact (frame other).symm
  obtain ⟨v, hv, same, result, -⟩ := exec_next_of_sameView view hj
  rw [rb] at same
  have alone := exec_rb_eq rb hj
  refine ⟨v, t.setRb u.rb, hv, ?_, result, rfl, ?_⟩
  · rw [alone]
    exact exec_setRb other hi u.rb u.result
  · rw [exec_rb_eq rb hv, ← same]
    rfl

/-- Settles O60: canonical lists are told apart by what they read. -/
theorem storesAreCanonical : Obligations.StoresAreCanonical := by
  unfold Obligations.StoresAreCanonical
  rintro ⟨size, cs⟩ ⟨size', ds⟩ hm hn rfl same
  exact congrArg (Memory.mk size) ((Memory.cellsOk_of_wf hm).ext (Memory.cellsOk_of_wf hn) same)

end Sys2Proof.Machine
end

section
/-! SUPPORT. A complete scan, slot by slot (40_sprite_scan.md R140 to R147); O6 is read off these rules. -/

namespace Sys2Proof.Machine

/-! ## The slots examined so far -/

/-- R144's test of slot `j` for the inputs of a state. -/
def slotVisible (s : State) (j : Nat) : Bool :=
  decide ((s.env.mem.get (0xFE00 + 4 * j)).toNat ≤ s.env.ly.toNat + 16) &&
    decide (s.env.ly.toNat + 16 < (s.env.mem.get (0xFE00 + 4 * j)).toNat + if s.env.obj16 then 16 else 8)

/-- The visible ones of the first `j` slots, in ascending order. -/
def visibleBefore (s : State) (j : Nat) : List Nat := (List.range j).filter (slotVisible s)

theorem visibleBefore_all (s : State) : visibleBefore s 40 = visibleSlots s := rfl

theorem visibleBefore_succ (s : State) (j : Nat) :
    visibleBefore s (j + 1) = visibleBefore s j ++ if slotVisible s j then [j] else [] := by
  rw [visibleBefore, List.range_succ, List.filter_append, visibleBefore]
  cases h : slotVisible s j <;> simp [h]

/-- The X tick's test is the slot's (R143). -/
theorem visible_eq_slotVisible (s : State) (j : Nat) :
    visible (s.env.mem.get (0xFE00 + 4 * j)).toNat s.env.ly.toNat (spriteHeight s.env.obj16) = slotVisible s j := by
  rw [visible, slotVisible, spriteHeight]
  congr 1 <;> rw [decide_eq_decide]
  · omega
  · split_ifs <;> omega

/-- What `j` slots of a scan have left, under the inputs of `s`. -/
structure Scanned (s : State) (j : Nat) (u : State) : Prop where
  frame : u = { s with scan := u.scan, result := u.result }
  slot : u.scan.i.val = j
  phase : u.scan.state = .readingY
  count : u.scan.n.val = min 10 (visibleBefore s j).length
  sprites : ∀ k : Fin 10, u.scan.sprites[k] = ((visibleBefore s j).map (slotDescriptor s))[k.val]?

/-- A start has examined no slot (R140). -/
theorem Scanned.start (s : State) : Scanned s 0 ((s.setScan s.scan.start).answer .nothing) :=
  ⟨rfl, rfl, rfl, rfl, fun k => s.scan.start_sprites k⟩

/-! ## The two ticks of a slot -/

/-- A list with one more entry behind it, entry by entry. -/
theorem getElem?_append_singleton {α : Type} (l : List α) (x : α) (k : Nat) {n : Nat} (hn : l.length = n) :
    (l ++ [x])[k]? = if k = n then some x else l[k]? := by
  subst hn
  split
  next last => rw [last, List.getElem?_concat_length]
  next other =>
    obtain before | behind := Nat.lt_or_gt_of_ne other
    · rw [List.getElem?_append_left before]
    · rw [List.getElem?_eq_none (by simpa using behind), List.getElem?_eq_none behind.le]

/-- What the list becomes over a slot: the first ten visible ones again (R143). -/
theorem evaluate_list {s : State} {c : Scan} {j : Nat} (slot : c.i.val = j) (curY : c.curY = s.env.mem.get (0xFE00 + 4 * j))
    (count : c.n.val = min 10 (visibleBefore s j).length)
    (sprites : ∀ k : Fin 10, c.sprites[k] = ((visibleBefore s j).map (slotDescriptor s))[k.val]?) :
    (c.evaluate (s.env.mem.get (0xFE00 + 4 * j + 1)) s.env.ly s.env.obj16).n.val = min 10 (visibleBefore s (j + 1)).length ∧
      ∀ k : Fin 10, (c.evaluate (s.env.mem.get (0xFE00 + 4 * j + 1)) s.env.ly s.env.obj16).sprites[k] =
        ((visibleBefore s (j + 1)).map (slotDescriptor s))[k.val]? := by
  have test : visible c.curY.toNat s.env.ly.toNat (spriteHeight s.env.obj16) = slotVisible s j := by
    rw [curY, visible_eq_slotVisible]
  by_cases collects : slotVisible s j = true ∧ c.n.val < 10
  · obtain ⟨seen, room⟩ := collects
    obtain ⟨n, entries⟩ := Scan.evaluate_appends (x := s.env.mem.get (0xFE00 + 4 * j + 1)) (test.trans seen) room
    have length : c.n.val = (visibleBefore s j).length := by omega
    have descriptor : (⟨(s.env.mem.get (0xFE00 + 4 * j + 1)).toNat, c.curY.toNat, oamAddr c.i.val⟩ : SpriteDescriptor) =
        slotDescriptor s j := by
      simp [slotDescriptor, curY, slot, oamAddr]
    rw [visibleBefore_succ, if_pos seen]
    refine ⟨by rw [n, List.length_append, List.length_singleton]; omega, fun k => ?_⟩
    rw [entries k, descriptor, sprites k, length, List.map_append, List.map_singleton]
    exact (getElem?_append_singleton _ _ _ (List.length_map _)).symm
  · obtain ⟨n, entries⟩ := Scan.evaluate_keeps_list (x := s.env.mem.get (0xFE00 + 4 * j + 1)) (test.symm ▸ collects)
    rw [n, entries, count, visibleBefore_succ]
    cases seen : slotVisible s j with
    | false => exact ⟨by simp, fun k => by simpa using sprites k⟩
    | true =>
      have full : 10 ≤ (visibleBefore s j).length := by
        have : ¬ c.n.val < 10 := fun room => collects ⟨seen, room⟩
        omega
      refine ⟨by rw [List.length_append]; omega, fun k => ?_⟩
      have inside : k.val < ((visibleBefore s j).map (slotDescriptor s)).length := by rw [List.length_map]; omega
      rw [sprites k, List.map_append, List.getElem?_append_left inside]

/-- The state a ReadingY tick leaves (R142). -/
def afterYTick (s : State) : State :=
  (s.setScan { s.scan with curY := memRead s (oamAddr s.scan.i.val), state := .readingX }).answer (.bool true)

/-- The state a ReadingX tick leaves (R143). -/
def afterXTick (s : State) : State :=
  (s.setScan (s.scan.evaluate (memRead s (oamAddr s.scan.i.val + 1)) s.env.ly s.env.obj16)).answer
    (.bool (decide (s.scan.i.val + 1 < 40)))

theorem exec_tickRow_readingY {s : State} (left : s.scan.i.val < 40) (phase : s.scan.state = .readingY) :
    exec (tickRow s) s = .next (afterYTick s) := by
  rw [tickRow_eq, if_pos left, if_pos phase]
  exact execScanTickY_eq left phase

theorem exec_tickRow_readingX {s : State} (left : s.scan.i.val < 40) (phase : s.scan.state = .readingX) :
    exec (tickRow s) s = .next (afterXTick s) := by
  rw [tickRow_eq, if_pos left, if_neg (by rw [phase]; decide)]
  exact execScanTickX_eq left phase

theorem Scanned.exec_yTick {s u : State} {j : Nat} (h : Scanned s j u) (more : j < 40) :
    exec (tickRow u) u = .next (afterYTick u) :=
  exec_tickRow_readingY (h.slot.trans_lt more) h.phase

theorem Scanned.exec_xTick {s u : State} {j : Nat} (h : Scanned s j u) (more : j < 40) :
    exec (tickRow (afterYTick u)) (afterYTick u) = .next (afterXTick (afterYTick u)) :=
  exec_tickRow_readingX (h.slot.trans_lt more) rfl

/-- The two ticks of a slot leave the next slot's start. -/
theorem Scanned.succ {s u : State} {j : Nat} (h : Scanned s j u) (more : j < 40) :
    Scanned s (j + 1) (afterXTick (afterYTick u)) := by
  obtain ⟨frame, slot, -, count, sprites⟩ := h
  have env : u.env = s.env := by rw [frame]
  have left : u.scan.i.val < 40 := slot ▸ more
  have yByte : memRead u (oamAddr u.scan.i.val) = s.env.mem.get (0xFE00 + 4 * j) := by rw [memRead, oamAddr, env, slot]
  have xByte : memRead (afterYTick u) (oamAddr u.scan.i.val + 1) = s.env.mem.get (0xFE00 + 4 * j + 1) := by
    change u.env.mem.get _ = _
    rw [oamAddr, env, slot]
  have scan : (afterXTick (afterYTick u)).scan =
      (afterYTick u).scan.evaluate (s.env.mem.get (0xFE00 + 4 * j + 1)) s.env.ly s.env.obj16 := by
    rw [← xByte, ← env]
    rfl
  obtain ⟨count', sprites'⟩ := evaluate_list (s := s) (c := (afterYTick u).scan) slot yByte count sprites
  refine ⟨?_, (nextSlot_val left).trans (congrArg (· + 1) slot), rfl, scan ▸ count', scan ▸ sprites'⟩
  rw [frame]
  rfl

/-! ## Sequences of ticks -/

theorem scanTicks_succ {s t : State} (h : exec (tickRow s) s = .next t) (k : Nat) : scanTicks (k + 1) s = scanTicks k t := by
  rw [scanTicks, h]

/-- A sequence of ticks that completes goes on from where it left. -/
theorem scanTicks_add {s t : State} {m : Nat} (h : scanTicks m s = .next t) (k : Nat) :
    scanTicks (m + k) s = scanTicks k t := by
  induction m generalizing s with
  | zero => cases h; rw [Nat.zero_add]
  | succ m ih =>
    rw [Nat.add_right_comm]
    rw [scanTicks] at h ⊢
    cases first : exec (tickRow s) s with
    | next u => rw [first] at h; exact ih h
    | fault f => rw [first] at h; cases h
    | refused r => rw [first] at h; cases h

/-- `2 * j` ticks examine `j` slots; the last returns whether there are more (R142, R143). -/
theorem Scanned.ticks {s t : State} (start : Scanned s 0 t) (j : Nat) (bound : j ≤ 40) :
    ∃ u, scanTicks (2 * j) t = .next u ∧ Scanned s j u ∧ (0 < j → u.result = .bool (decide (j < 40))) := by
  induction j with
  | zero => exact ⟨t, rfl, start, fun none => absurd none (Nat.lt_irrefl 0)⟩
  | succ j ih =>
    obtain ⟨u, run, scanned, -⟩ := ih (by omega)
    refine ⟨afterXTick (afterYTick u), ?_, scanned.succ bound, fun _ => ?_⟩
    · rw [Nat.mul_succ, scanTicks_add run, scanTicks_succ (scanned.exec_yTick bound), scanTicks_succ (scanned.exec_xTick bound)]
      rfl
    · change Result.bool (decide (u.scan.i.val + 1 < 40)) = _
      rw [scanned.slot]

/-- Every tick of a scan but the 80th returns true. -/
theorem Scanned.tick_result {s t : State} (start : Scanned s 0 t) {m : Nat} (ticked : 0 < m) (before : m < 80) :
    ∃ v, scanTicks m t = .next v ∧ v.result = .bool true := by
  obtain ⟨u, run, scanned, result⟩ := start.ticks (m / 2) (by omega)
  obtain even | odd := Nat.mod_two_eq_zero_or_one m
  · have m_eq : m = 2 * (m / 2) := by omega
    refine ⟨u, m_eq ▸ run, ?_⟩
    rw [result (by omega), decide_eq_true (by omega)]
  · have m_eq : m = 2 * (m / 2) + 1 := by omega
    have more : m / 2 < 40 := by omega
    refine ⟨afterYTick u, ?_, rfl⟩
    rw [m_eq, scanTicks_add run, scanTicks_succ (scanned.exec_yTick more)]
    rfl

/-- Settles O6: two ticks a slot, by induction on the slots. -/
theorem completeScanListsFirstTenVisible : Obligations.CompleteScanListsFirstTenVisible := by
  unfold Obligations.CompleteScanListsFirstTenVisible
  intro s
  have start := Scanned.start s
  obtain ⟨u, run, ⟨frame, slot, phase, count, sprites⟩, result⟩ := start.ticks 40 (by omega)
  rw [visibleBefore_all] at count
  simp only [visibleBefore_all] at sprites
  exact ⟨_, rfl, fun m ticked before => start.tick_result ticked before,
    u, run, sprites, count, slot, phase, result (by omega), frame⟩

end Sys2Proof.Machine
end

section
/-! SUPPORT. SND's mix, a write of an owned address and the power-on sequence (43_sound_engine.md R252, R256, R258, R259, R263);
O28, O32, O33, O35 and O36 are read off these rules. -/

namespace Sys2Proof.Machine

/-! ## The mix (R252) -/

/-- A channel whose level is the same wherever its mute slot is true contributes the same. -/
theorem contribution_congr {d e : Snd} (mute : d.mute = e.mute) {k : Fin 4} (out : d.mute[k] = true → d.out[k] = e.out[k])
    (routed : Bool) : contribution d routed k = contribution e routed k := by
  rw [contribution, contribution, ← mute]
  cases heard : d.mute[k] with
  | false => rfl
  | true => rw [out heard]

theorem sumLeft_congr {d e : Snd} (nr51 : d.nr51 = e.nr51) (mute : d.mute = e.mute)
    (out : ∀ k : Fin 4, d.mute[k] = true → d.out[k] = e.out[k]) : sumLeft d = sumLeft e := by
  rw [sumLeft, sumLeft, nr51]
  exact congrArg List.sum (List.map_congr_left fun k _ => contribution_congr mute (out k) _)

theorem sumRight_congr {d e : Snd} (nr51 : d.nr51 = e.nr51) (mute : d.mute = e.mute)
    (out : ∀ k : Fin 4, d.mute[k] = true → d.out[k] = e.out[k]) : sumRight d = sumRight e := by
  rw [sumRight, sumRight, nr51]
  exact congrArg List.sum (List.map_congr_left fun k _ => contribution_congr mute (out k) _)

/-- The default volume law is the volume itself. -/
theorem defaultVolumeLaw_get (v : BitVec 3) : Config.defaultVolumeLaw.get v.toFin = (v.toNat : Int) := by
  revert v
  decide

/-- Settles O28: each sum is one of contributions, and the default laws are identities. -/
theorem mutedChannelsAreSilent : Obligations.MutedChannelsAreSilent := by
  unfold Obligations.MutedChannelsAreSilent
  intro p d e nr50 nr51 mute out
  refine ⟨?_, ?_, fun law scale => ⟨?_, ?_⟩⟩
  · rw [mixLeft, mixLeft, nr50, sumLeft_congr nr51 mute out]
  · rw [mixRight, mixRight, nr50, sumRight_congr nr51 mute out]
  · rw [mixLeft, law, scale, defaultVolumeLaw_get, leftVolume_toNat, MixScale.apply]
  · rw [mixRight, law, scale, defaultVolumeLaw_get, rightVolume_toNat, MixScale.apply]

/-! ## A write of an address a channel owns (R259, R264) -/

theorem sndAccess_sndWrChA (lo : BitVec 4) (d : Byte) : sndAccess (.sndWrChA lo d) = some (.write d, chAAddr lo) := by
  obtain ⟨-, -, -, -, -, row, -⟩ := sndAccess_rows
  exact row lo d

theorem sndAccess_sndWrChB (lo : BitVec 2) (d : Byte) : sndAccess (.sndWrChB lo d) = some (.write d, chBAddr lo) := by
  obtain ⟨-, -, -, -, -, -, row, -⟩ := sndAccess_rows
  exact row lo d

theorem sndAccess_sndWrWave (lo : BitVec 4) (d : Byte) : sndAccess (.sndWrWave lo d) = some (.write d, waveAddr lo) := by
  obtain ⟨-, -, -, -, -, -, -, -, -, row, -⟩ := sndAccess_rows
  exact row lo d

theorem exec_write_of_mapOwns {i : Instr} {s : State} {a : Addr} {d : Byte} {k : Fin 4} (hm : sndMapFormed s.params.sndMap = true)
    (hi : sndAccess i = some (.write d, a)) (h : mapOwns s.params.sndMap k a) :
    exec i s = .next ((s.writeChannel k a d).answer .nothing) := by
  rw [exec_of_sndAccess hi, sndAccessAt, sndWrite, sndRole_of_mapOwns hm h]
  rfl

/-- A write of a channel leaves the other channels. -/
theorem writeChannel_other (s : State) {k j : Fin 4} (other : j ≠ k) (a : Addr) (d : Byte) :
    (s.writeChannel k a d).snd.ch[j] = s.snd.ch[j] :=
  (State.setChannel_ch s k _ j).trans (if_neg other)

/-- Settles O32: each row of the default map is a write of an address its owner has, and such a write is the owner's. -/
theorem channelRegisterWrites : Obligations.ChannelRegisterWrites := by
  unfold Obligations.ChannelRegisterWrites
  intro s d inv i k a access
  have write : sndMapFormed s.params.sndMap = true ∧ sndAccess i = some (.write d, a) ∧ mapOwns s.params.sndMap k a := by
    obtain access | ⟨default, ⟨lo, rfl, addr, owner⟩ | ⟨lo, rfl, addr, rfl⟩ | ⟨lo, rfl, addr, rfl⟩⟩ := access
    · exact access
    · obtain rfl : a = chAAddr lo := BitVec.eq_of_toNat_eq (addr.trans (chAAddr_toNat lo).symm)
      have fifth : k = ⟨lo.toNat / 5, by omega⟩ := Fin.ext owner
      exact ⟨default ▸ defaultSndMap_formed, sndAccess_sndWrChA lo d, default ▸ fifth ▸ mapOwns_default_chAAddr lo⟩
    · obtain rfl : a = chBAddr lo := BitVec.eq_of_toNat_eq (addr.trans (chBAddr_toNat lo).symm)
      exact ⟨default ▸ defaultSndMap_formed, sndAccess_sndWrChB lo d, default ▸ mapOwns_default_chBAddr lo⟩
    · obtain rfl : a = waveAddr lo := BitVec.eq_of_toNat_eq (addr.trans (waveAddr_toNat lo).symm)
      exact ⟨default ▸ defaultSndMap_formed, sndAccess_sndWrWave lo d, default ▸ mapOwns_default_waveAddr lo⟩
  obtain ⟨formed, access, owns⟩ := write
  refine ⟨_, exec_write_of_mapOwns formed access owns, fun o => ?_, fun j other => writeChannel_other s other a d, rfl⟩
  exact (writeChannel_get inv k a d k o).trans (by simp only [true_and])

/-! ## Writes of NR52 (R256) -/

theorem writeMaster_same {d : Byte} {s : State} (same : d.getLsbD 7 = s.snd.enabled) : writeMaster d s = s := by
  rw [writeMaster, same]
  cases s.snd.enabled <;> rfl

/-- A write of NR52 with bit 7 set while disabled enables and powers on. -/
theorem writeMaster_on {d : Byte} {s : State} (hd : d.getLsbD 7 = true) (he : s.snd.enabled = false) :
    writeMaster d s = powerOn (s.setSnd { s.snd with enabled := true }) := by
  simp only [writeMaster, hd, he, Bool.not_true, Bool.not_false, Bool.and_self, Bool.false_eq_true, if_false, if_true]

/-- Settles O33. -/
theorem masterWriteWithoutChangeDoesNothing : Obligations.MasterWriteWithoutChangeDoesNothing := by
  unfold Obligations.MasterWriteWithoutChangeDoesNothing
  intro s d i writes same
  rw [exec_of_writesMaster writes, writeMaster_same same]
  rfl

/-! ## The bytes the power-on sequence leaves (R258, R113) -/

theorem cleared_of_mem {m : SndMap} (hm : sndMapFormed m = true) {a : Addr} {mask : Byte} (h : (a, mask) ∈ m.lengths) (raw : Byte) :
    cleared m a raw = raw &&& mask := by
  rw [cleared, lengthMask_of_mem hm h, Option.map_some, Option.getD_some]

theorem cleared_of_not_mem {m : SndMap} {a : Addr} (h : ∀ mask, (a, mask) ∉ m.lengths) (raw : Byte) : cleared m a raw = 0x00 := by
  rw [cleared, lengthMask_eq_none h, Option.map_none, Option.getD_none]

/-- Under the default map NR11, NR21 and NR41 keep six bits and NR31 all eight. -/
theorem cleared_default (a : Addr) (raw : Byte) : cleared Config.defaultSndMap a raw =
    if a = 0xFF11 ∨ a = 0xFF16 ∨ a = 0xFF20 then raw &&& 0x3F else if a = 0xFF1B then raw else 0x00 := by
  have all : raw &&& 0xFF = raw := BitVec.and_allOnes
  split_ifs with six eight
  · refine cleared_of_mem defaultSndMap_formed ?_ raw
    obtain rfl | rfl | rfl := six <;> decide
  · refine (cleared_of_mem defaultSndMap_formed ?_ raw).trans all
    subst eight
    decide
  · refine cleared_of_not_mem (fun mask h => ?_) raw
    simp only [Config.defaultSndMap, List.mem_cons, Prod.mk.injEq, List.not_mem_nil, or_false] at h
    obtain ⟨rfl, -⟩ | ⟨rfl, -⟩ | ⟨rfl, -⟩ | ⟨rfl, -⟩ := h
    · exact six (.inl rfl)
    · exact six (.inr (.inl rfl))
    · exact eight rfl
    · exact six (.inr (.inr rfl))

/-- The default map's channels have NR10 .. NR44 and the wave bytes. -/
theorem mapOwns_default_range {k : Fin 4} {a : Addr} (h : mapOwns Config.defaultSndMap k a) :
    (0xFF10 ≤ a.toNat ∧ a.toNat ≤ 0xFF23) ∨ (0xFF30 ≤ a.toNat ∧ a.toNat ≤ 0xFF3F) := by
  obtain ⟨r, mem, -, first, last⟩ := h
  simp only [Config.defaultSndMap, List.mem_cons, List.not_mem_nil, or_false] at mem
  obtain rfl | rfl | rfl | rfl | rfl := mem <;> simp only [BitVec.reduceToNat] at first last <;> omega

/-- The raw byte a channel's address has after the sequence. -/
def poweredOnByte (m : SndMap) (a : Addr) (raw : Byte) : Byte := if a ∈ powerOnAddrs m then cleared m a raw else raw

theorem poweredOnByte_outside {m : SndMap} {a : Addr} (h : a.toNat < m.nr10.toNat ∨ m.nr51.toNat < a.toNat) (raw : Byte) :
    poweredOnByte m a raw = raw :=
  if_neg fun mem => by have := (mem_powerOnAddrs m a).1 mem; omega

theorem poweredOnByte_inside {m : SndMap} {a : Addr} (first : m.nr10.toNat ≤ a.toNat) (last : a.toNat ≤ m.nr51.toNat) (raw : Byte) :
    poweredOnByte m a raw = cleared m a raw :=
  if_pos ((mem_powerOnAddrs m a).2 ⟨first, last⟩)

theorem poweredOnByte_default {k : Fin 4} {a : Addr} (h : mapOwns Config.defaultSndMap k a) (raw : Byte) :
    poweredOnByte Config.defaultSndMap a raw =
      if a = 0xFF11 ∨ a = 0xFF16 ∨ a = 0xFF20 then raw &&& 0x3F
      else if a = 0xFF1B ∨ 0xFF30 ≤ a.toNat then raw else 0x00 := by
  have first : Config.defaultSndMap.nr10.toNat = 0xFF10 := rfl
  have last : Config.defaultSndMap.nr51.toNat = 0xFF25 := rfl
  obtain ⟨_, _⟩ | ⟨wave, _⟩ := mapOwns_default_range h
  · have register : ¬ 0xFF30 ≤ a.toNat := by omega
    rw [poweredOnByte_inside (by omega) (by omega), cleared_default]
    simp only [register, or_false]
  · have other : ¬ (a = 0xFF11 ∨ a = 0xFF16 ∨ a = 0xFF20) := by
      rintro (rfl | rfl | rfl) <;> simp only [BitVec.reduceToNat] at wave <;> omega
    rw [poweredOnByte_outside (by omega), if_neg other, if_pos (.inr wave)]

/-! ## The power-on (R258) -/

/-- The state an NR52 write that enables leaves. -/
def poweredOn (s : State) : State := (powerOn (s.setSnd { s.snd with enabled := true })).answer .nothing

theorem exec_powerOn {i : Instr} {d : Byte} {s : State} (writes : writesMaster i d s.params.sndMap) (hd : d.getLsbD 7 = true)
    (he : s.snd.enabled = false) : exec i s = .next (poweredOn s) := by
  rw [exec_of_writesMaster writes, writeMaster_on hd he, poweredOn]

theorem poweredOn_frame (s : State) : (poweredOn s).snd.enabled = true ∧ (poweredOn s).snd.out = s.snd.out ∧
    (poweredOn s).snd.mute = s.snd.mute ∧
    poweredOn s = { s with snd := (poweredOn s).snd, trace := (poweredOn s).trace, result := .nothing } := by
  obtain ⟨x, y, ch, tr, e⟩ := powerOn_registersOnly (s.setSnd { s.snd with enabled := true })
  rw [poweredOn, e]
  exact ⟨rfl, rfl, rfl, rfl⟩

theorem poweredOn_control {s : State} (inv : s.snd.Inv) (formed : sndMapFormed s.params.sndMap = true) :
    (poweredOn s).snd.nr50 = 0x00 ∧ (poweredOn s).snd.nr51 = 0x00 := by
  obtain ⟨-, -, nr50, nr51, -⟩ := powerOn_spec (s := s.setSnd { s.snd with enabled := true }) inv rfl formed
  exact ⟨nr50, nr51⟩

theorem poweredOn_get {s : State} (inv : s.snd.Inv) (formed : sndMapFormed s.params.sndMap = true) {a : Addr} {k : Fin 4}
    (owns : mapOwns s.params.sndMap k a) :
    (poweredOn s).snd.ch[k].regs.get a.toNat = poweredOnByte s.params.sndMap a (s.snd.ch[k].regs.get a.toNat) := by
  obtain ⟨-, bytes, -⟩ := powerOn_spec (s := s.setSnd { s.snd with enabled := true }) inv rfl formed
  exact bytes a k ((ownerOf_eq_some_iff formed).2 owns)

/-! ## The power-on's writes (R258) -/

/-- The writes the power-on makes, in order. -/
def powerOnCalls (s : State) : List (Fin 4 × Addr × Byte) := (powerOnAddrs s.params.sndMap).filterMap (powerOnCall s)

theorem powerOnCall_addr {s : State} {a : Addr} {w : Fin 4 × Addr × Byte} (h : powerOnCall s a = some w) :
    w.2.1 = a ∧ ownerOf s.params.sndMap a = some w.1 ∧ w.2.2 = powerOnValue s a := by
  obtain ⟨k, owner, rfl⟩ := Option.map_eq_some_iff.1 h
  exact ⟨rfl, owner, rfl⟩

theorem mem_powerOnCalls {s : State} {w : Fin 4 × Addr × Byte} (h : w ∈ powerOnCalls s) :
    w.2.1 ∈ powerOnAddrs s.params.sndMap ∧ ownerOf s.params.sndMap w.2.1 = some w.1 ∧ w.2.2 = powerOnValue s w.2.1 := by
  obtain ⟨a, mem, call⟩ := List.mem_filterMap.1 h
  obtain ⟨rfl, owner, value⟩ := powerOnCall_addr call
  exact ⟨mem, owner, value⟩

/-- The addresses written are those of the sequence that have an owner, in its order. -/
theorem powerOnCalls_addrs (s : State) : (powerOnCalls s).map (fun w => w.2.1) =
    (powerOnAddrs s.params.sndMap).filter fun a => (ownerOf s.params.sndMap a).isSome := by
  rw [powerOnCalls, List.map_filterMap, ← List.filterMap_eq_filter]
  congr 1
  funext a
  rw [powerOnCall]
  cases owner : ownerOf s.params.sndMap a <;> simp [owner, Option.guard]

theorem powerOnCalls_addrs_toNat (s : State) : (powerOnCalls s).map (fun w => w.2.1.toNat) =
    ((powerOnAddrs s.params.sndMap).filter fun a => (ownerOf s.params.sndMap a).isSome).map BitVec.toNat := by
  rw [← powerOnCalls_addrs, List.map_map]
  rfl

theorem powerOnCalls_ascending (s : State) : ((powerOnCalls s).map fun w => w.2.1.toNat).Pairwise (· < ·) := by
  rw [powerOnCalls_addrs_toNat, List.pairwise_map]
  exact (powerOnAddrs_ascending _).filter _

theorem mem_powerOnCalls_addrs {s : State} (formed : sndMapFormed s.params.sndMap = true) (a : Addr) :
    a ∈ (powerOnCalls s).map (fun w => w.2.1) ↔ s.params.sndMap.nr10.toNat ≤ a.toNat ∧ a.toNat ≤ s.params.sndMap.nr51.toNat ∧
      ∃ k, mapOwns s.params.sndMap k a := by
  rw [powerOnCalls_addrs, List.mem_filter, mem_powerOnAddrs, Option.isSome_iff_exists, and_assoc]
  simp only [ownerOf_eq_some_iff formed]

/-- Under the default map the writes are those of NR10 .. NR44, each address once. -/
theorem powerOnCalls_default {s : State} (default : s.params.sndMap = Config.defaultSndMap) :
    (powerOnCalls s).map (fun w => w.2.1.toNat) = List.range' 0xFF10 20 := by
  rw [powerOnCalls_addrs_toNat, default]
  decide

/-- What each write stores is the byte its register ends with. -/
theorem powerOnCalls_value {s : State} (inv : s.snd.Inv) (formed : sndMapFormed s.params.sndMap = true) {w : Fin 4 × Addr × Byte}
    (h : w ∈ powerOnCalls s) : mapOwns s.params.sndMap w.1 w.2.1 ∧ w.2.2 = (poweredOn s).snd.ch[w.1].regs.get w.2.1.toNat := by
  obtain ⟨mem, owner, value⟩ := mem_powerOnCalls h
  have owns := (ownerOf_eq_some_iff formed).1 owner
  refine ⟨owns, ?_⟩
  rw [value, powerOnValue_of_owner owner, poweredOn_get inv formed owns, poweredOnByte, if_pos mem]

theorem poweredOn_trace {s : State} (inv : s.snd.Inv) (formed : sndMapFormed s.params.sndMap = true) :
    (poweredOn s).trace = s.trace ++ (powerOnCalls s).map writeCall ++
      [.channelStart 0, .channelStart 1, .channelStart 2, .channelStart 3, .sinkStart] := by
  obtain ⟨-, -, -, -, trace⟩ := powerOn_spec (s := s.setSnd { s.snd with enabled := true }) inv rfl formed
  exact trace

/-- Settles O35: the registers by their last byte, the calls by the sequence's addresses. -/
theorem powerOnClearsAllButLengths : Obligations.PowerOnClearsAllButLengths := by
  unfold Obligations.PowerOnClearsAllButLengths
  rintro s d i m rfl formed inv writes hd he
  obtain ⟨enabled, out, mute, frame⟩ := poweredOn_frame s
  obtain ⟨nr50, nr51⟩ := poweredOn_control inv formed
  refine ⟨_, exec_powerOn writes hd he, enabled, nr50, nr51, out, mute, fun a k owns => ?_, ?_, frame⟩
  · rw [poweredOn_get inv formed owns]
    refine ⟨fun outside => poweredOnByte_outside outside _, fun first last => ?_, fun default => ?_⟩
    · rw [poweredOnByte_inside first last]
      exact ⟨fun mask mem => cleared_of_mem formed mem _, fun none => cleared_of_not_mem none _⟩
    · rw [default] at owns ⊢
      exact poweredOnByte_default owns _
  · exact ⟨powerOnCalls s, powerOnCalls_ascending s, mem_powerOnCalls_addrs formed, powerOnCalls_default,
      fun w mem => powerOnCalls_value inv formed mem, poweredOn_trace inv formed⟩

/-! ## A power cycle (R257, R263) -/

/-- The state an NR52 write that disables leaves. -/
def poweredOff (s : State) : State := (powerOff (s.setSnd { s.snd with enabled := false })).answer .nothing

theorem exec_powerOff {i : Instr} {d : Byte} {s : State} (writes : writesMaster i d s.params.sndMap) (hd : d.getLsbD 7 = false)
    (he : s.snd.enabled = true) : exec i s = .next (poweredOff s) := by
  rw [exec_of_writesMaster writes, writeMaster_off hd he, poweredOff]

theorem poweredOff_enabled (s : State) : (poweredOff s).snd.enabled = false := by
  rw [poweredOff, powerOff_eq]
  rfl

theorem poweredOff_params (s : State) : (poweredOff s).params = s.params := by
  rw [poweredOff, powerOff_eq]
  rfl

/-- A power-off changes no raw byte (R257). -/
theorem poweredOff_regs (s : State) (k : Fin 4) : (poweredOff s).snd.ch[k].regs = s.snd.ch[k].regs := by
  rw [poweredOff, powerOff_eq]
  simp [State.withChannels]

theorem poweredOff_inv {s : State} (inv : s.snd.Inv) : (poweredOff s).snd.Inv := by
  intro k
  rw [Channel.Inv, poweredOff_regs]
  exact inv k

/-- Settles O36: the power-off keeps every raw byte, and the power-on clears by the map. -/
theorem lengthsSurviveAPowerCycle : Obligations.LengthsSurviveAPowerCycle := by
  unfold Obligations.LengthsSurviveAPowerCycle
  rintro s d e i j m rfl formed inv off on enabled hd he
  have params : (poweredOff s).params.sndMap = s.params.sndMap := congrArg Params.sndMap (poweredOff_params s)
  have inv' := poweredOff_inv inv
  have formed' := params.symm ▸ formed
  obtain ⟨nr50, nr51⟩ := poweredOn_control inv' formed'
  refine ⟨_, _, exec_powerOff off hd enabled, exec_powerOn (params.symm ▸ on) he (poweredOff_enabled s), nr50, nr51, ?_⟩
  intro a k owns first last
  rw [poweredOn_get inv' formed' (params.symm ▸ owns), params, poweredOff_regs, poweredOnByte_inside first last]
  refine ⟨fun mask mem => cleared_of_mem formed mem _, fun none => cleared_of_not_mem none _, fun default => ?_⟩
  rw [default]
  exact cleared_default a _

end Sys2Proof.Machine
end
